-- ==== Sys2Proof/Word.lean ====
section
/-! DEFINITION. The words of the machine: bytes, lanes, command words and the 25-lane registers. -/

namespace Sys2Proof

/-- An 8-bit byte: a byte of the state byte space (R30), a data byte of a command word (R46). -/
abbrev Byte := BitVec 8

/-- A lane: an unsigned 64-bit word (R8, R12, R76). -/
abbrev Lane := BitVec 64

/-- A command word CW, 96 bits, bit 0 the least significant (R45). -/
abbrev CommandWord := BitVec 96

/-- A register of 25 lanes `L[0]` … `L[24]` (R12): the sponge state S, the working copy W (R17), the
scratch register B (R14). -/
abbrev Lanes := Vector Lane 25

/-- Five lanes, one for each column x: the scratch registers C and D (R14). -/
abbrev Columns := Vector Lane 5

/-- Every lane 0. -/
def Lanes.zero : Lanes := Vector.replicate 25 0#64

/-- Every column 0. -/
def Columns.zero : Columns := Vector.replicate 5 0#64

end Sys2Proof
end

