-- ==== Sys2Proof/Syntax.lean ====
section
/-! DEFINITION. The commands: one constructor for each row of spec/opcode_table.json. -/

namespace Sys2Proof

/-- The two command ports (R3). -/
inductive Port where
  /-- The S-port: sponge commands. -/
  | sponge
  /-- The E-port: engine commands. -/
  | engine
  deriving DecidableEq, Repr

/-- A command with its operands, taken from the command word as R46 says. -/
inductive Instr where
  /-- S.RESET (R103). -/
  | sReset
  /-- S.ABSORB nb, data (R104). -/
  | sAbsorb (nb : BitVec 4) (data : BitVec 64)
  /-- S.DIGEST len (R106). -/
  | sDigest (len : BitVec 32)
  /-- S.ERRCLR (R114). -/
  | sErrclr
  /-- E.RESET (R83). -/
  | eReset
  /-- E.XORB off, value (R84). -/
  | eXorb (off : BitVec 8) (value : BitVec 64)
  /-- E.XOR off, nb, data (R85). -/
  | eXor (off : BitVec 8) (nb : BitVec 4) (data : BitVec 64)
  /-- E.EXTRACT off, nb (R86). -/
  | eExtract (off : BitVec 8) (nb : BitVec 4)
  /-- E.PERMUTE (R87). -/
  | ePermute
  deriving DecidableEq, Repr

/-- The port a command belongs to (R47, R48). -/
def Instr.port : Instr → Port
  | .sReset => .sponge
  | .sAbsorb _ _ => .sponge
  | .sDigest _ => .sponge
  | .sErrclr => .sponge
  | .eReset => .engine
  | .eXorb _ _ => .engine
  | .eXor _ _ _ => .engine
  | .eExtract _ _ => .engine
  | .ePermute => .engine

end Sys2Proof
end

