-- ==== Sys2Proof/WellFormed.lean ====
section
/-! DEFINITION. Which command terms stand for a legal command word: the byte count of S.ABSORB, E.XOR and
E.EXTRACT is at most 8 (R46, R49, R50). The range check of the E-port is no part of legality (R50). -/

namespace Sys2Proof

/-- The command is legal on its port (R49, R50): its only operand with an illegal value is nb above 8. -/
def Instr.wf : Instr → Bool
  | .sReset => true
  | .sAbsorb nb _ => decide (nb.toNat ≤ 8)
  | .sDigest _ => true
  | .sErrclr => true
  | .eReset => true
  | .eXorb _ _ => true
  | .eXor _ nb _ => decide (nb.toNat ≤ 8)
  | .eExtract _ nb => decide (nb.toNat ≤ 8)
  | .ePermute => true

end Sys2Proof
end

