-- ==== Sys2Proof/Decode.lean ====
section
/-! DEFINITION. Command words: fields, legality, the match and mask table, the decoder of each port, the
encoder (R45 to R51, R58). -/

namespace Sys2Proof

/-! ### Fields (R45, R46) -/

/-- OP = CW[3:0]. -/
def CommandWord.op (cw : CommandWord) : BitVec 4 := cw.extractLsb' 0 4

/-- NB = CW[7:4]. -/
def CommandWord.nb (cw : CommandWord) : BitVec 4 := cw.extractLsb' 4 4

/-- OFF = CW[15:8]. -/
def CommandWord.off (cw : CommandWord) : BitVec 8 := cw.extractLsb' 8 8

/-- RSV = CW[31:16]. -/
def CommandWord.rsv (cw : CommandWord) : BitVec 16 := cw.extractLsb' 16 16

/-- LEN = ARG_LO = CW[63:32]. -/
def CommandWord.len (cw : CommandWord) : BitVec 32 := cw.extractLsb' 32 32

/-- ARG_HI = CW[95:64]. -/
def CommandWord.argHi (cw : CommandWord) : BitVec 32 := cw.extractLsb' 64 32

/-- ARG = DATA = VALUE = CW[95:32]. -/
def CommandWord.data (cw : CommandWord) : BitVec 64 := cw.extractLsb' 32 64

/-- A word from its five fields (R45). -/
def CommandWord.ofFields (op nb : BitVec 4) (off : BitVec 8) (rsv : BitVec 16) (arg : BitVec 64) :
    CommandWord :=
  arg ++ (rsv ++ (off ++ (nb ++ op)))

/-- A word from the three groups of eight hex digits it is written as, `CW[95:64]_CW[63:32]_CW[31:0]` (R58). -/
def CommandWord.ofGroups (hi mid lo : BitVec 32) : CommandWord := hi ++ (mid ++ lo)

/-! ### Legality (R49, R50) -/

/-- LegalS(CW), as R49 writes it. -/
def legalS (cw : CommandWord) : Bool :=
  cw.rsv == 0 && cw.off == 0 &&
    ((cw.op == 0x1 && cw.nb == 0 && cw.data == 0) ||
     (cw.op == 0x2 && decide (cw.nb.toNat ≤ 8)) ||
     (cw.op == 0x3 && cw.nb == 0 && cw.argHi == 0) ||
     (cw.op == 0x4 && cw.nb == 0 && cw.data == 0))

/-- LegalE(CW), as R50 writes it. -/
def legalE (cw : CommandWord) : Bool :=
  cw.rsv == 0 &&
    ((cw.op == 0x8 && cw.nb == 0 && cw.off == 0 && cw.data == 0) ||
     (cw.op == 0x9 && cw.nb == 0) ||
     (cw.op == 0xA && decide (cw.nb.toNat ≤ 8)) ||
     (cw.op == 0xB && decide (cw.nb.toNat ≤ 8) && cw.data == 0) ||
     (cw.op == 0xC && cw.nb == 0 && cw.off == 0 && cw.data == 0))

/-- The legality test of a port. -/
def legal : Port → CommandWord → Bool
  | .sponge => legalS
  | .engine => legalE

/-! ### The opcode table (R47 to R50) -/

/-- One row of the opcode map: the bits that `mask` selects must equal `word`, and, where `nbLimited`
says so, NB is at most 8. -/
structure OpcodeRow where
  /-- The port whose map holds the row. -/
  port : Port
  /-- The match value. -/
  word : CommandWord
  /-- The bits that must equal the match value. -/
  mask : CommandWord
  /-- Whether the row also asks for nb ≤ 8. -/
  nbLimited : Bool
  deriving DecidableEq, Repr

/-- The nine match and mask pairs of R49 and R50, in the table's order. -/
def opcodeRows : List OpcodeRow :=
  [ ⟨.sponge, 0x000000000000000000000001, 0xFFFFFFFFFFFFFFFFFFFFFFFF, false⟩,
    ⟨.sponge, 0x000000000000000000000002, 0x0000000000000000FFFFFF0F, true⟩,
    ⟨.sponge, 0x000000000000000000000003, 0xFFFFFFFF00000000FFFFFFFF, false⟩,
    ⟨.sponge, 0x000000000000000000000004, 0xFFFFFFFFFFFFFFFFFFFFFFFF, false⟩ ] ++
  [ ⟨.engine, 0x000000000000000000000008, 0xFFFFFFFFFFFFFFFFFFFFFFFF, false⟩,
    ⟨.engine, 0x000000000000000000000009, 0x0000000000000000FFFF00FF, false⟩,
    ⟨.engine, 0x00000000000000000000000A, 0x0000000000000000FFFF000F, true⟩,
    ⟨.engine, 0x00000000000000000000000B, 0xFFFFFFFFFFFFFFFFFFFF000F, true⟩,
    ⟨.engine, 0x00000000000000000000000C, 0xFFFFFFFFFFFFFFFFFFFFFFFF, false⟩ ]

/-- The word matches the row. -/
def OpcodeRow.matches (r : OpcodeRow) (cw : CommandWord) : Bool :=
  cw &&& r.mask == r.word && (!r.nbLimited || decide (cw.nb.toNat ≤ 8))

/-- The command a row stands for, with its operands taken from the word (R46). -/
def operandsOf (p : Port) (cw : CommandWord) : Option Instr :=
  match p, cw.op.toNat with
  | .sponge, 0x1 => some .sReset
  | .sponge, 0x2 => some (.sAbsorb cw.nb cw.data)
  | .sponge, 0x3 => some (.sDigest cw.len)
  | .sponge, 0x4 => some .sErrclr
  | .engine, 0x8 => some .eReset
  | .engine, 0x9 => some (.eXorb cw.off cw.data)
  | .engine, 0xA => some (.eXor cw.off cw.nb cw.data)
  | .engine, 0xB => some (.eExtract cw.off cw.nb)
  | .engine, 0xC => some .ePermute
  | _, _ => none

/-! ### Decoding -/

/-- Why a word is illegal on its port (R51). Every one of them has the same consequence, IllegalCommand. -/
inductive DecodeError where
  /-- OP is not in the port's map (R47, R48); each port's opcodes are illegal on the other. -/
  | unassignedOpcode
  /-- RSV is not 0 (R45). -/
  | reservedNonzero
  /-- NB is above 8 in S.ABSORB, E.XOR or E.EXTRACT (R46). -/
  | byteCountAboveEight
  /-- A field that the command does not use is not 0 (R49, R50). -/
  | unusedFieldNonzero
  deriving DecidableEq, Repr

/-- The command, if the fields it does not use are 0. -/
def ifUnusedZero (zero : Bool) (i : Instr) : Except DecodeError Instr :=
  if zero then .ok i else .error .unusedFieldNonzero

/-- The command, if its byte count is legal. -/
def ifByteCount (nb : BitVec 4) (r : Except DecodeError Instr) : Except DecodeError Instr :=
  if nb.toNat ≤ 8 then r else .error .byteCountAboveEight

/-- The S-port's decoder (R47, R49): total, and an illegal word is rejected by name. -/
def decodeS (cw : CommandWord) : Except DecodeError Instr :=
  if cw.rsv == 0 then
    match cw.op.toNat with
    | 0x1 => ifUnusedZero (cw.off == 0 && cw.nb == 0 && cw.data == 0) .sReset
    | 0x2 => ifByteCount cw.nb (ifUnusedZero (cw.off == 0) (.sAbsorb cw.nb cw.data))
    | 0x3 => ifUnusedZero (cw.off == 0 && cw.nb == 0 && cw.argHi == 0) (.sDigest cw.len)
    | 0x4 => ifUnusedZero (cw.off == 0 && cw.nb == 0 && cw.data == 0) .sErrclr
    | _ => .error .unassignedOpcode
  else .error .reservedNonzero

/-- The E-port's decoder (R48, R50). -/
def decodeE (cw : CommandWord) : Except DecodeError Instr :=
  if cw.rsv == 0 then
    match cw.op.toNat with
    | 0x8 => ifUnusedZero (cw.off == 0 && cw.nb == 0 && cw.data == 0) .eReset
    | 0x9 => ifUnusedZero (cw.nb == 0) (.eXorb cw.off cw.data)
    | 0xA => ifByteCount cw.nb (.ok (.eXor cw.off cw.nb cw.data))
    | 0xB => ifByteCount cw.nb (ifUnusedZero (cw.data == 0) (.eExtract cw.off cw.nb))
    | 0xC => ifUnusedZero (cw.off == 0 && cw.nb == 0 && cw.data == 0) .ePermute
    | _ => .error .unassignedOpcode
  else .error .reservedNonzero

/-- The decoder of a port: a word means the same in every state (R55). -/
def decode : Port → CommandWord → Except DecodeError Instr
  | .sponge => decodeS
  | .engine => decodeE

/-- The port whose half of the opcode space the word's OP lies in: 0x0 to 0x7 the S-port, 0x8 to 0xF the
E-port (R47, R48). -/
def CommandWord.port (cw : CommandWord) : Port := if cw.op.toNat < 8 then .sponge else .engine

/-! ### Encoding (R45 to R50, R56): fields that a command does not name are 0 -/

/-- The word of a command. -/
def encode : Instr → CommandWord
  | .sReset => .ofFields 0x1 0 0 0 0
  | .sAbsorb nb data => .ofFields 0x2 nb 0 0 data
  | .sDigest len => .ofFields 0x3 0 0 0 (len.setWidth 64)
  | .sErrclr => .ofFields 0x4 0 0 0 0
  | .eReset => .ofFields 0x8 0 0 0 0
  | .eXorb off value => .ofFields 0x9 0 off 0 value
  | .eXor off nb data => .ofFields 0xA nb off 0 data
  | .eExtract off nb => .ofFields 0xB nb off 0 0
  | .ePermute => .ofFields 0xC 0 0 0 0

/-! ### The opcode table's numbering -/

/-- The command read from a word of the opcode table: bit 0 of `w` is CW bit 0, and the bits at and above
`nbits` are 0. Every command is exactly one 96-bit word (R55), so a longer one is no command. -/
def decodeTableWord (nbits w : Nat) : Option Instr :=
  if nbits ≤ 96 then
    let cw : CommandWord := BitVec.ofNat 96 (w % 2 ^ nbits)
    match decode cw.port cw with
    | .ok i => some i
    | .error _ => none
  else none

end Sys2Proof
end

