-- ==== Sys2Proof/Config.lean ====
section
/-! DEFINITION. What is fixed for one block: the constants of R6, the two build parameters of R7, and the
free values of the model (STATUS while BUSY = 1, and data wires while their valid signal is 0). -/

namespace Sys2Proof

namespace Config

/-- RATE, the bytes of state that absorb input and give output (R6, R34). -/
def rate : Nat := 168

/-- The capacity in bytes, 200 − RATE (R6, R34). -/
def capacity : Nat := 32

/-- STATE_BYTES, the size of the state byte space (R6, R30). -/
def stateBytes : Nat := 200

/-- RATE_LANES, the lanes of the rate: 0 … 20 (R6, R34). -/
def rateLanes : Nat := 21

/-- SUFFIX, the SHAKE domain byte XORed at offset `absorbed` by finalization (R6, R107). -/
def suffix : Byte := 0x1F#8

/-- PADEND, the padding tail byte XORed at offset RATE − 1 (R6, R107). -/
def padEnd : Byte := 0x80#8

/-- FREE VALUE: what STATUS shows in its unspecified bits in the n-th clock cycle, if BUSY = 1 then
(R24, R158, U1; log entry 3). It has no body, so a statement about it holds for every value. -/
opaque busyStatus : Nat → BitVec 32

/-- FREE VALUE: what the data wires of the O-port show in the n-th clock cycle while `o_valid = 0`; the
spec states no value there (R54; log entry 4). Bits 63:0 are o_data, 67:64 o_nb, 68 o_last. -/
opaque idleOPort : Nat → BitVec 69

/-- FREE VALUE: what the response wires of the E-port show in the n-th clock cycle while
`e_rsp_valid = 0`; the spec states no value there (R54; log entry 4). Bits 63:0 are e_rsp_data, 65:64 e_rsp_code. -/
opaque idleRspPort : Nat → BitVec 66

/-- Whether S.RESET leaves a held E-port response in its register. The spec contradicts itself there: R80
holds a response until it is taken and R103 does not name the register, R121 and R152 with R29's table empty
it. A block does one or the other, and no statement can rest on which (log entry 25). -/
opaque resetKeepsResponse : Bool

end Config

/-- UNROLL, the rounds the folded datapath computes per clock: exactly the eight legal values (R7, R72). -/
inductive Unroll where
  | one | two | three | four | six | eight | twelve | twentyFour
  deriving DecidableEq, Repr

/-- The number UNROLL stands for (R7). -/
def Unroll.rounds : Unroll → Nat
  | .one => 1
  | .two => 2
  | .three => 3
  | .four => 4
  | .six => 6
  | .eight => 8
  | .twelve => 12
  | .twentyFour => 24

/-- The build parameters of one block (R7, R28). They are not state: no step changes them. The model
takes them as an argument, and carries that argument in `State.build` (log entry 10). -/
structure Build where
  /-- UNROLL; timing only. -/
  unroll : Unroll
  /-- ENGINE_TEST_PORT: whether the E-port is reachable from outside the block. -/
  engineTestPort : Bool
  deriving DecidableEq, Repr

/-- The default build: UNROLL = 1, ENGINE_TEST_PORT = false (R7). -/
def Build.default : Build := { unroll := .one, engineTestPort := false }

end Sys2Proof
end

