-- ==== Sys2Proof/Machine/State.lean ====
section
/-! DEFINITION. The state of the block, all of it (10_state.md), with what the environment drives and has
taken; the reasons to stop; the state after rst_n. -/

namespace Sys2Proof.Machine

/-- The scratch storage of the permutation datapath (R14). No command reads it. -/
structure Scratch where
  /-- C[0..4], the Theta column parities. -/
  C : Columns
  /-- D[0..4], the Theta effect. -/
  D : Columns
  /-- B[0..24], the Rho/Pi output. -/
  B : Lanes
  deriving DecidableEq, Repr

/-- The controller micro-states, exactly those R23 names. -/
inductive Micro where
  /-- IDLE. BUSY = 0 exactly here. -/
  | idle
  /-- ABSORB: XORing a command's bytes. -/
  | absorb
  /-- ABS_PERM: a permutation of S started by a full rate block. -/
  | absPerm
  /-- FIN_PERM: the finalization permutation of S. -/
  | finPerm
  /-- SQZ_OUT: handing output words to the O-port. -/
  | sqzOut
  /-- SQZ_PERM: a permutation of W between output blocks. -/
  | sqzPerm
  /-- ENG: executing an E-port command. -/
  | eng
  deriving DecidableEq, Repr

/-- What an accepted command still has to do. The spec implies this storage (a command word is sampled
only on its accepting edge, R156, and a command may take many cycles, R155). DEDUCED (log entry 15). -/
structure Latch where
  /-- Bytes of an S.ABSORB not yet XORed. -/
  pend : List Byte
  /-- The padding of an S.DIGEST is not yet XORed. -/
  pad : Bool
  /-- The copy W <- S of an S.DIGEST is not yet done. -/
  copy : Bool
  /-- Output bytes of an S.DIGEST not yet put into an output word. -/
  left : Nat
  deriving DecidableEq, Repr

/-- No work left. -/
def Latch.empty : Latch := { pend := [], pad := false, copy := false, left := 0 }

/-- An output word of the O-port (R52). -/
structure OutWord where
  /-- o_data. -/
  data : BitVec 64
  /-- o_nb, the number of valid bytes, 1..8. -/
  nb : Nat
  /-- o_last. -/
  last : Bool
  deriving DecidableEq, Repr

/-- The response codes the E-port gives (R53). Code 1 is never produced, so it has no constructor. -/
inductive RspCode where
  /-- Code 0. -/
  | ok
  /-- Code 2. -/
  | illegalCommand
  /-- Code 3. -/
  | engineRange
  deriving DecidableEq, Repr

/-- A response word of the E-port (R53). -/
structure Response where
  /-- e_rsp_code. -/
  code : RspCode
  /-- e_rsp_data. -/
  data : BitVec 64
  deriving DecidableEq, Repr

/-- The record, never cleared, of the E-port responses that a model counts as faults (R134, U9, O1). It is
the model's own: the block holds no such bits (log entry 5). -/
structure PortFaults where
  /-- A response with code 2 was given. -/
  illegal : Bool
  /-- A response with code 3 was given. -/
  range : Bool
  deriving DecidableEq, Repr

/-- What the environment drives on the block's inputs at one rising clock edge (R54). -/
structure Inputs where
  /-- rst_n; false is the active level (R150). -/
  rstN : Bool
  /-- s_valid. -/
  sValid : Bool
  /-- s_cw. -/
  sCw : CommandWord
  /-- o_ready. -/
  oReady : Bool
  /-- e_valid. -/
  eValid : Bool
  /-- e_cw. -/
  eCw : CommandWord
  /-- e_rsp_ready. -/
  eRspReady : Bool
  deriving DecidableEq, Repr

/-- An edge on which the environment does nothing: no reset, no command, no output taken. -/
def Inputs.quiet : Inputs :=
  { rstN := true, sValid := false, sCw := 0, oReady := false, eValid := false, eCw := 0,
    eRspReady := false }

/-- What the host and the requester have seen of one run: the run lasts from one rst_n to the next (R164). -/
structure RunRecord where
  /-- The command words accepted, each with its port, in the order of acceptance (R40, R91, R156). -/
  accepted : List (Port × CommandWord)
  /-- The output words taken. -/
  taken : List OutWord
  /-- The E-port responses taken. -/
  responses : List Response
  deriving DecidableEq, Repr

/-- The whole machine. The block's own state stands first, then what belongs to its environment, then two
fields of the model's own. STATUS, err_o, BUSY and the ready and valid outputs are computed from it
(Machine/Flags.lean, Machine/Ports.lean). -/
structure State where
  /-- The build parameters (R7, R28): an argument of the model, changed by no step. -/
  build : Build
  /-- S, the sponge state (R12). -/
  S : Lanes
  /-- W, the squeeze working copy (R17). -/
  W : Lanes
  /-- C, D and B (R14), held as registers (log entry 16). -/
  scratch : Scratch
  /-- `absorbed`, an 8-bit counter with the legal values 0..167 (R15). -/
  absorbed : Fin 168
  /-- `finalized`: false Absorbing, true Squeezable (R16). -/
  finalized : Bool
  /-- `squeeze_off`, an 8-bit counter with the legal values 0..168 (R18). -/
  squeezeOff : Fin 169
  /-- ERR_UAF, sticky (R20). -/
  errUaf : Bool
  /-- ERR_ILL, sticky (R20). -/
  errIll : Bool
  /-- The controller micro-state (R23). -/
  micro : Micro
  /-- `rnd`, the round counter, 0..23 (R22). -/
  rnd : Fin 24
  /-- What the accepted command still has to do (R155, R156). -/
  latch : Latch
  /-- OQ, the output queue, next word to be taken first (R25). -/
  oq : List OutWord
  /-- The E-port response register (R26). -/
  rsp : Option Response
  /-- What the environment drives on the coming edges, next edge first; after the last, it is quiet. -/
  inputs : List Inputs
  /-- The command words accepted since rst_n, each with its port, oldest first (R156, R164). -/
  accepted : List (Port × CommandWord)
  /-- The output words the host has taken since rst_n, oldest first (R164). -/
  taken : List OutWord
  /-- The E-port responses the requester has taken since rst_n, oldest first (R164). -/
  responses : List Response
  /-- The runs that an rst_n has ended, oldest first: what was taken before it stays taken (R151). -/
  pastRuns : List RunRecord
  /-- The faults recorded at the E-port (R134). -/
  portFaults : PortFaults
  /-- The model's own count of clock edges: it gives the free values of Config a fresh argument (log entry
  3). -/
  freeCtr : Nat
  deriving DecidableEq, Repr

/-- A reason for the machine to stop. The block never stops: no error transfers control (R140), every
host input pattern is safe (R165), a hang goes on being a state (R159). So there is no reason, and the
type is empty; every outcome of `exec` and `step` is a next state (log entry 14). -/
inductive Fault where
  deriving DecidableEq, Repr

/-- A reason for the model to refuse a command. -/
inductive Refusal where
  /-- An instruction without a meaning in the model. No arm of `exec` answers it: every command of the
  table has its meaning. Safe. -/
  | notModelled (mnemonic : String)
  deriving DecidableEq, Repr

/-- What a step of this machine answers. -/
abbrev Outcome := Host.Outcome State Fault Refusal

/-- The scratch storage after rst_n. DESIGN CHOICE (log entry 2): the spec leaves it unspecified. -/
def Scratch.reset : Scratch := { C := Columns.zero, D := Columns.zero, B := Lanes.zero }

/-- The machine right after rst_n, built with the given parameters: the table of R29. W and the scratch
storage, which the spec leaves unspecified, are 0 (DESIGN CHOICE, log entry 2). -/
def State.resetOf (build : Build) : State :=
  { build := build
    S := Lanes.zero
    W := Lanes.zero
    scratch := Scratch.reset
    absorbed := 0
    finalized := false
    squeezeOff := 0
    errUaf := false
    errIll := false
    micro := .idle
    rnd := 0
    latch := Latch.empty
    oq := []
    rsp := none
    inputs := []
    accepted := []
    taken := []
    responses := []
    pastRuns := []
    portFaults := { illegal := false, range := false }
    freeCtr := 0 }

/-- The machine right after rst_n, in the default build (R7, R29), with nothing driven on its ports. -/
def State.reset : State := State.resetOf Build.default

end Sys2Proof.Machine
end

