-- ==== Sys2Proof/Machine/Keccak.lean ====
section
/-! DEFINITION. The Keccak-f[1600] permutation (40_permutation.md): the step mappings as pure functions on
25 lanes, the round, the 24 rounds; and the datapath that computes them and leaves C, D and B behind. -/

namespace Sys2Proof.Machine

/-! ### Lanes by column and row (R10, R12) -/

/-- The lane A[x,y] = L[x + 5y]. -/
def laneAt (A : Lanes) (x y : Fin 5) : Lane := A[x.val + 5 * y.val]

/-- The column x of lane index i = x + 5y. -/
def columnOf (i : Fin 25) : Fin 5 := ⟨i.val % 5, by omega⟩

/-- The row y of lane index i = x + 5y. -/
def rowOf (i : Fin 25) : Fin 5 := ⟨i.val / 5, by omega⟩

/-- The 25 lanes whose lane at column x and row y is `f x y`. -/
def lanesOf (f : Fin 5 → Fin 5 → Lane) : Lanes := Vector.ofFn fun i => f (columnOf i) (rowOf i)

/-- The lane indices 0, 1, …, 24 in increasing order. -/
def laneIndices : List (Fin 25) :=
  [0, 1, 2, 3, 4, 5, 6, 7, 8, 9, 10, 11, 12, 13, 14, 15, 16, 17, 18, 19, 20, 21, 22, 23, 24]

/-- The round indices 0, 1, …, 23 in increasing order (R69). -/
def roundIndices : List (Fin 24) :=
  [0, 1, 2, 3, 4, 5, 6, 7, 8, 9, 10, 11, 12, 13, 14, 15, 16, 17, 18, 19, 20, 21, 22, 23]

/-! ### Constant tables (R63, R64, R67, R75) -/

/-- Rho rotation offsets r[0..24], in lane-index order (R63). -/
def rhoTable : Vector Nat 25 :=
  #v[0, 1, 62, 28, 27, 36, 44, 6, 55, 20, 3, 10, 43, 25, 39, 41, 45, 15, 21, 8, 18, 2, 61, 56, 14]

/-- Pi destinations π[0..24] (R64). -/
def piTable : Vector Nat 25 :=
  #v[0, 10, 20, 5, 15, 16, 1, 11, 21, 6, 7, 17, 2, 12, 22, 23, 8, 18, 3, 13, 14, 24, 9, 19, 4]

/-- The rows of the table of R67. Row k prints RC[k] and, beside it, RC[k + 12]. -/
def rcRows : List (Lane × Lane) :=
  [(0x0000000000000001, 0x000000008000808B),
   (0x0000000000008082, 0x800000000000008B),
   (0x800000000000808A, 0x8000000000008089),
   (0x8000000080008000, 0x8000000000008003),
   (0x000000000000808B, 0x8000000000008002),
   (0x0000000080000001, 0x8000000000000080),
   (0x8000000080008081, 0x000000000000800A),
   (0x8000000000008009, 0x800000008000000A),
   (0x000000000000008A, 0x8000000080008081),
   (0x0000000000000088, 0x8000000000008080),
   (0x0000000080008009, 0x0000000080000001),
   (0x000000008000000A, 0x8000000080008008)]

/-- Round constants RC[0..23] (R67): the left column of its table, then the right one. -/
def rcTable : Vector Lane 24 := ⟨(rcRows.map Prod.fst ++ rcRows.map Prod.snd).toArray, rfl⟩

/-! ### Rotation (R60, R61) -/

/-- ROTL64(x, n) for 0 ≤ n ≤ 63: the formula of R60 for n in 1..63, the identity for n = 0 (R61). -/
def rotl64 (x : Lane) (n : Nat) : Lane := if n = 0 then x else (x <<< n) ||| (x >>> (64 - n))

/-! ### The step mappings (R62 to R67) -/

/-- Theta's column parities C. -/
def thetaParity (A : Lanes) : Columns :=
  Vector.ofFn fun x => laneAt A x 0 ^^^ laneAt A x 1 ^^^ laneAt A x 2 ^^^ laneAt A x 3 ^^^ laneAt A x 4

/-- Theta's effect D, from the complete C. The index sums are taken mod 5. -/
def thetaEffect (C : Columns) : Columns :=
  Vector.ofFn fun x => C[x + 4] ^^^ rotl64 C[x + 1] 1

/-- Theta's last line: every lane of column x is XORed with D[x]. -/
def thetaApply (A : Lanes) (D : Columns) : Lanes := lanesOf fun x y => laneAt A x y ^^^ D[x]

/-- Theta (R62). -/
def theta (A : Lanes) : Lanes := thetaApply A (thetaEffect (thetaParity A))

/-- Rho (R63). -/
def rho (A : Lanes) : Lanes := Vector.ofFn fun i => rotl64 A[i] rhoTable[i]

/-- Pi (R64): `B[π[i]] = A'[i]` for i = 0..24, into scratch storage distinct from the input. -/
def piStep (A : Lanes) : Lanes :=
  laneIndices.foldl (fun B i => B.setIfInBounds piTable[i] A[i]) Lanes.zero

/-- Chi (R66): every output lane reads the input only. -/
def chi (B : Lanes) : Lanes :=
  lanesOf fun x y => laneAt B x y ^^^ (~~~ laneAt B (x + 1) y &&& laneAt B (x + 2) y)

/-- Iota (R67). -/
def iota (A : Lanes) (rd : Fin 24) : Lanes := A.set 0 (A[0] ^^^ rcTable[rd])

/-! ### The round and the permutation (R68, R69) -/

/-- Round(A, rd) (R68). The attribute keeps the elaborator from evaluating rounds on its own. -/
@[irreducible] def keccakRound (A : Lanes) (rd : Fin 24) : Lanes := iota (chi (piStep (rho (theta A)))) rd

/-- KeccakF(A): the 24 rounds in increasing order (R69). -/
@[irreducible] def keccakF (A : Lanes) : Lanes := roundIndices.foldl keccakRound A

/-- k applications of KeccakF (R112). -/
def keccakFTimes : Nat → Lanes → Lanes
  | 0, A => A
  | k + 1, A => keccakFTimes k (keccakF A)

/-! ### The datapath (R14, R70, R71, R72) -/

/-- The lanes that the one datapath works on, and its scratch storage. -/
structure Datapath where
  /-- The register being permuted: S or W. -/
  lanes : Lanes
  /-- C, D and B. -/
  scratch : Scratch
  deriving DecidableEq, Repr

/-- One round through the scratch storage: C and D from the lanes, B from Rho and Pi, the lanes from B
(R70). Every scratch register is written before it is read (R13). -/
@[irreducible] def datapathRound (d : Datapath) (rd : Fin 24) : Datapath :=
  let C := thetaParity d.lanes
  let D := thetaEffect C
  let B := piStep (rho (thetaApply d.lanes D))
  { lanes := iota (chi B) rd, scratch := { C := C, D := D, B := B } }

/-- A whole permutation on the datapath. -/
@[irreducible] def datapathPermute (d : Datapath) : Datapath := roundIndices.foldl datapathRound d

/-- The rounds of one clock cycle: UNROLL consecutive rounds from `rnd` on, none above 23 (R72). -/
def roundsOfClock (u : Unroll) (rnd : Fin 24) : List (Fin 24) :=
  (roundIndices.drop rnd.val).take u.rounds

/-- One clock cycle of the folded datapath (R72). -/
@[irreducible] def datapathClock (u : Unroll) (rnd : Fin 24) (d : Datapath) : Datapath :=
  (roundsOfClock u rnd).foldl datapathRound d

/-- This clock cycle computes round 23. -/
def lastClock (u : Unroll) (rnd : Fin 24) : Bool := decide (24 ≤ rnd.val + u.rounds)

/-- `rnd` after one clock cycle: it steps through 0, UNROLL, 2·UNROLL, …, and is 0 again when the
permutation is done (R22, R72). -/
def nextRnd (u : Unroll) (rnd : Fin 24) : Fin 24 :=
  if h : rnd.val + u.rounds < 24 then ⟨rnd.val + u.rounds, h⟩ else 0

/-- PERMUTE_CYCLES = 24 / UNROLL (R7). -/
def permuteCycles (u : Unroll) : Nat := 24 / u.rounds

/-- k clock cycles of the folded datapath, from the given lanes, scratch and `rnd`. -/
def datapathClocks (u : Unroll) : Nat → Datapath × Fin 24 → Datapath × Fin 24
  | 0, p => p
  | k + 1, p => datapathClocks u k (datapathClock u p.2 p.1, nextRnd u p.2)

end Sys2Proof.Machine
end

