-- ==== Sys2Proof/Machine/Operands.lean ====
section
/-! DEFINITION. Bytes: the bytes of a 64-bit operand, little-endian packing, and the byte addressing of a
25-lane register (R30 to R37, R46, R52). -/

namespace Sys2Proof.Machine

/-- Data byte k of a 64-bit field, bits [8k+7:8k] (R46, R36). -/
def byteOf (v : BitVec 64) (k : Nat) : Byte := v.extractLsb' (8 * k) 8

/-- The data bytes 0..n−1 of a 64-bit field, in stream order; the others are ignored (R46). -/
def dataBytes (n : Nat) (v : BitVec 64) : List Byte := (List.range n).map (byteOf v)

/-- The sum over k in 0..n−1 of zext_64(f k) << 8k: n bytes as a little-endian value (R33, R52). -/
def littleEndian (n : Nat) (f : Nat → Byte) : BitVec 64 :=
  ((List.range n).map fun k => (f k).setWidth 64 <<< (8 * k)).sum

/-- StByte(T, b), the state byte b of T, for b < 200 (R31). Every caller passes such a b; the function is
total, and a byte that does not exist reads 0. -/
def stByte (T : Lanes) (b : Nat) : Byte := (T.getD (b / 8) 0#64 >>> (8 * (b % 8))).setWidth 8

/-- StXorByte(T, b, v), for b < 200 (R32). Every caller passes such a b; for any other nothing changes. -/
def stXorByte (T : Lanes) (b : Nat) (v : Byte) : Lanes :=
  T.setIfInBounds (b / 8) (T.getD (b / 8) 0#64 ^^^ v.setWidth 64 <<< (8 * (b % 8)))

/-- The given bytes XORed into T at offsets b, b+1, … in this order. -/
def stXorBytes (T : Lanes) (b : Nat) : List Byte → Lanes
  | [] => T
  | v :: vs => stXorBytes (stXorByte T b v) (b + 1) vs

/-- StXor(T, b, n, v), for n ≤ 8 and b + n ≤ 200 (R33). -/
def stXor (T : Lanes) (b n : Nat) (v : BitVec 64) : Lanes := stXorBytes T b (dataBytes n v)

/-- StRead(T, b, n), for n ≤ 8 and b + n ≤ 200 (R33). -/
def stRead (T : Lanes) (b n : Nat) : BitVec 64 := littleEndian n fun k => stByte T (b + k)

/-- The byte count operand is legal (R46). -/
def legalCount (nb : BitVec 4) : Bool := decide (nb.toNat ≤ 8)

/-- InRange of E.XORB: the offset is below 200 (R88). -/
def inRangeByte (off : BitVec 8) : Bool := decide (off.toNat < Config.stateBytes)

/-- InRange of E.XOR and E.EXTRACT: the last byte touched is below 200 (R88). -/
def inRangeBytes (off : BitVec 8) (nb : BitVec 4) : Bool :=
  decide (off.toNat + nb.toNat ≤ Config.stateBytes)

/-- Output word w of an S.DIGEST whose output bytes are `out` (R52). -/
def outWord (out : List Byte) (w : Nat) : OutWord :=
  let nb := min 8 (out.length - 8 * w)
  { data := littleEndian nb fun k => out.getD (8 * w + k) 0#8
    nb := nb
    last := decide (8 * w + nb = out.length) }

/-- All ceil(n / 8) output words of an S.DIGEST, in order of w (R52). -/
def outWords (out : List Byte) : List OutWord :=
  (List.range ((out.length + 7) / 8)).map (outWord out)

/-- The output bytes a word carries, first byte first (R52, R128). -/
def OutWord.bytes (w : OutWord) : List Byte := dataBytes w.nb w.data

end Sys2Proof.Machine
end

