-- ==== Sys2Proof/Machine/Flags.lean ====
section
/-! DEFINITION. The flags: BUSY, STATUS and err_o, computed from the state, each where the spec gives it
(R21, R24, R138). -/

namespace Sys2Proof.Machine

/-- BUSY (R21): 0 exactly in the micro-state IDLE (R23). -/
def State.busy (s : State) : Bool := decide (s.micro ≠ .idle)

/-- err_o = ERR_UAF | ERR_ILL, a level (R138). -/
def State.errO (s : State) : Bool := s.errUaf || s.errIll

/-- The fields of STATUS as the state holds them, laid out as the table of R24 says; bits 31:24 and 7:4
are 0. -/
def State.statusFields (s : State) : BitVec 32 :=
  0#8 ++ (BitVec.ofNat 8 s.squeezeOff.val ++ (BitVec.ofNat 8 s.absorbed.val ++
    (0#4 ++ (BitVec.ofBool s.errIll ++ (BitVec.ofBool s.errUaf ++
      (BitVec.ofBool s.finalized ++ BitVec.ofBool s.busy))))))

/-- The bits of STATUS that are unspecified while BUSY = 1: 1, 2, 3, 15:8 and 23:16 (R24, R158). -/
def unspecifiedWhileBusy : BitVec 32 := 0x00FFFF0E

/-- STATUS (R24). While BUSY = 1 the bits 1, 2, 3, 15:8 and 23:16 are a free value (R158, U1). -/
def State.status (s : State) : BitVec 32 :=
  if s.busy then
    (s.statusFields &&& ~~~ unspecifiedWhileBusy) |||
      (Config.busyStatus s.freeCtr &&& unspecifiedWhileBusy)
  else s.statusFields

end Sys2Proof.Machine
end

