-- ==== Sys2Proof/Machine/Ops.lean ====
section
/-! DEFINITION. The shared operations: permuting S and W, absorbing, finalizing, squeezing, responding,
raising an error, clearing errors, and rst_n. -/

namespace Sys2Proof.Machine

/-! ### The permutation of S or of W (R69, R71) -/

/-- KeccakF(S), through the datapath: its scratch storage keeps the last round's values. -/
def State.permuteS (s : State) : State :=
  let d := datapathPermute { lanes := s.S, scratch := s.scratch }
  { s with S := d.lanes, scratch := d.scratch }

/-- KeccakF(W). -/
def State.permuteW (s : State) : State :=
  let d := datapathPermute { lanes := s.W, scratch := s.scratch }
  { s with W := d.lanes, scratch := d.scratch }

/-! ### Absorbing (R104) -/

/-- One byte of the loop of S.ABSORB: XOR it at offset `absorbed`, count it, and at a full rate block
permute S and count from 0. -/
def State.absorbByte (s : State) (v : Byte) : State :=
  let s1 := { s with S := stXorByte s.S s.absorbed.val v }
  if h : s.absorbed.val + 1 < 168 then { s1 with absorbed := ⟨s.absorbed.val + 1, h⟩ }
  else { s1.permuteS with absorbed := 0 }

/-- The loop of S.ABSORB over its data bytes, in increasing order of k. -/
def State.absorbBytes (s : State) (vs : List Byte) : State := vs.foldl State.absorbByte s

/-! ### Finalizing (R107) -/

/-- The two XORs of the padding, 0x1F at byte `absorbed` and 0x80 at byte 167. -/
def State.padS (s : State) : State :=
  { s with S := stXorByte (stXorByte s.S s.absorbed.val Config.suffix) (Config.rate - 1) Config.padEnd }

/-- Finalize(). -/
def State.finalize (s : State) : State :=
  { s.padS.permuteS with finalized := true, squeezeOff := 0 }

/-! ### Squeezing (R109) -/

/-- The start of every Squeeze: W <- S and the rewind of `squeeze_off`. -/
def State.loadW (s : State) : State := { s with W := s.S, squeezeOff := 0 }

/-- One pass of the squeeze loop: the byte emitted, and the state after it. When the block is exhausted W
is permuted first, and the byte is byte 0 of the next block. -/
def State.squeezeByte (s : State) : Byte × State :=
  if h : s.squeezeOff.val < 168 then
    (stByte s.W s.squeezeOff.val, { s with squeezeOff := ⟨s.squeezeOff.val + 1, by omega⟩ })
  else
    let t := s.permuteW
    (stByte t.W 0, { t with squeezeOff := 1 })

/-- n passes of the squeeze loop: the bytes emitted, in order, and the state after them. -/
def State.squeezeBytes : Nat → State → List Byte × State
  | 0, s => ([], s)
  | n + 1, s =>
    let p := s.squeezeByte
    let q := State.squeezeBytes n p.2
    (p.1 :: q.1, q.2)

/-- Squeeze(n), with its output words appended to OQ (R109, R111, R118). While OQ is non-empty the block
hands out words, so BUSY = 1 (R25). -/
def State.squeeze (s : State) (n : Nat) : State :=
  let p := State.squeezeBytes n s.loadW
  { p.2 with
    oq := p.2.oq ++ outWords p.1
    micro := if n = 0 then p.2.micro else .sqzOut }

/-! ### Responses and errors (R53, R130 to R135) -/

/-- Respond(code, data): one response word into the response register (R80). -/
def State.respond (s : State) (code : RspCode) (data : BitVec 64) : State :=
  { s with rsp := some { code := code, data := data } }

/-- The error outcomes of R130; IllegalCommand has one record for each port. -/
inductive ErrorCause where
  /-- Code 1: S.ABSORB while finalized = 1 (R131). -/
  | updateAfterFinalize
  /-- Code 2 on the S-port (R132). -/
  | illegalCommandS
  /-- Code 2 on the E-port (R133). -/
  | illegalCommandE
  /-- Code 3: an offset out of range (R134). -/
  | engineRange
  deriving DecidableEq, Repr

/-- Raising an error, the one shared operation: the record of R131 to R134 and nothing else (R135). On the
E-port it also marks the model's own record of faults, which nothing clears (R134). -/
def State.raise (s : State) : ErrorCause → State
  | .updateAfterFinalize => { s with errUaf := true }
  | .illegalCommandS => { s with errIll := true }
  | .illegalCommandE =>
    { s.respond .illegalCommand 0 with portFaults := { s.portFaults with illegal := true } }
  | .engineRange =>
    { s.respond .engineRange 0 with portFaults := { s.portFaults with range := true } }

/-- Clearing the sticky error flags (R114, R141). There is no return from a trap beside it (R140, R141). -/
def State.clearErrors (s : State) : State := { s with errUaf := false, errIll := false }

/-- The response register after S.RESET. An empty one stays empty; of a held response the spec says both that
it stays until it is taken (R80, R103) and that the register takes its rst_n value (R121, R152), so a free
value decides (log entry 25). -/
def State.rspAfterReset (s : State) : Option Response :=
  match s.rsp with
  | none => none
  | some r => if Config.resetKeepsResponse then some r else none

/-- Zeroing S (R83, R103). -/
def State.zeroS (s : State) : State := { s with S := Lanes.zero }

/-! ### rst_n (R150, R151) -/

/-- What the environment has seen of the run in progress (R164). -/
def State.runRecord (s : State) : RunRecord :=
  { accepted := s.accepted, taken := s.taken, responses := s.responses }

/-- An edge with rst_n = 0: every piece of the block's state takes its reset value, whatever was in
progress. It ends the run in progress, whose record joins the past runs: the words taken before it are the
only output of the digest it cuts short (R151), and the next run's record starts empty (R164). The build,
what the environment will drive and the model's own fields stay. -/
def State.rstEdge (s : State) : State :=
  { State.resetOf s.build with
    inputs := s.inputs
    pastRuns := s.pastRuns ++ [s.runRecord]
    portFaults := s.portFaults
    freeCtr := s.freeCtr }

end Sys2Proof.Machine
end

