-- ==== Sys2Proof/Machine/Engine.lean ====
section
/-! DEFINITION. The meanings of the E-port commands (41_engine_port.md). Each acts on S (R82) and gives
exactly one response (R80, R81). -/

namespace Sys2Proof.Machine

/-- E.RESET (R83). -/
def execEReset (s : State) : Outcome := .next (s.zeroS.respond .ok 0)

/-- E.XORB (R84): only VALUE[7:0] is used. -/
def execEXorb (off : BitVec 8) (value : BitVec 64) (s : State) : Outcome :=
  if inRangeByte off then
    .next ({ s with S := stXorByte s.S off.toNat (byteOf value 0) }.respond .ok 0)
  else .next (s.raise .engineRange)

/-- E.XOR (R85): legality first, then the range (R136), all or nothing. -/
def execEXor (off : BitVec 8) (nb : BitVec 4) (data : BitVec 64) (s : State) : Outcome :=
  if legalCount nb then
    if inRangeBytes off nb then
      .next ({ s with S := stXor s.S off.toNat nb.toNat data }.respond .ok 0)
    else .next (s.raise .engineRange)
  else .next (s.raise .illegalCommandE)

/-- E.EXTRACT (R86): response bytes at and above nb are 0. -/
def execEExtract (off : BitVec 8) (nb : BitVec 4) (s : State) : Outcome :=
  if legalCount nb then
    if inRangeBytes off nb then .next (s.respond .ok (stRead s.S off.toNat nb.toNat))
    else .next (s.raise .engineRange)
  else .next (s.raise .illegalCommandE)

/-- E.PERMUTE (R87). -/
def execEPermute (s : State) : Outcome := .next (s.permuteS.respond .ok 0)

end Sys2Proof.Machine
end

