-- ==== Sys2Proof/Machine/Sponge.lean ====
section
/-! DEFINITION. The meanings of the S-port commands (42_sponge_commands.md). -/

namespace Sys2Proof.Machine

/-- S.RESET (R103): the context and the error flags take their rst_n values (R121). W and the scratch storage
stay. Whether a held E-port response stays is a free value, since the spec says both. DESIGN CHOICE (log
entry 25). -/
def execSReset (s : State) : Outcome :=
  .next { s.zeroS.clearErrors with
    absorbed := 0
    finalized := false
    squeezeOff := 0
    rsp := s.rspAfterReset }

/-- S.ABSORB (R104): legality first, then the phase (R136), then the byte loop. A term with nb above 8
stands for an illegal word (R49, R101; log entry 12). -/
def execSAbsorb (nb : BitVec 4) (data : BitVec 64) (s : State) : Outcome :=
  if legalCount nb then
    if s.finalized then .next (s.raise .updateAfterFinalize)
    else .next (s.absorbBytes (dataBytes nb.toNat data))
  else .next (s.raise .illegalCommandS)

/-- S.DIGEST (R106): finalize if needed, then squeeze `len` bytes. -/
def execSDigest (len : BitVec 32) (s : State) : Outcome :=
  .next ((if s.finalized then s else s.finalize).squeeze len.toNat)

/-- S.ERRCLR (R114). -/
def execSErrclr (s : State) : Outcome := .next s.clearErrors

end Sys2Proof.Machine
end

