-- ==== Sys2Proof/Machine/Dispatch.lean ====
section
/-! DEFINITION. The meaning of each command, one arm for each constructor. -/

namespace Sys2Proof.Machine

def exec (i : Instr) (s : State) : Host.Outcome State Fault Refusal :=
  match i with
  | .sReset => Sys2Proof.Machine.execSReset s
  | .sAbsorb nb data => Sys2Proof.Machine.execSAbsorb nb data s
  | .sDigest len => Sys2Proof.Machine.execSDigest len s
  | .sErrclr => Sys2Proof.Machine.execSErrclr s
  | .eReset => Sys2Proof.Machine.execEReset s
  | .eXorb off value => Sys2Proof.Machine.execEXorb off value s
  | .eXor off nb data => Sys2Proof.Machine.execEXor off nb data s
  | .eExtract off nb => Sys2Proof.Machine.execEExtract off nb s
  | .ePermute => Sys2Proof.Machine.execEPermute s

end Sys2Proof.Machine
end

