-- ==== Sys2Proof/Machine/Cycle.lean ====
section
/-! DEFINITION. The cycle-level controller (R23, R72, R155, R163): how an accepted command starts, and what
one clock edge does for a command in progress. `beginCommand` starts a command that takes many cycles
where `exec` has its whole effect at once (R118); `progress` carries either on to IDLE. The split of a
first S.DIGEST into a padding cycle and a copy cycle follows the timing table (DESIGN CHOICE, log entry 6). -/

namespace Sys2Proof.Machine

/-! ### One clock cycle of the folded datapath (R71, R72) -/

/-- UNROLL rounds of a permutation of S. -/
def State.clockS (s : State) : State :=
  let d := datapathClock s.build.unroll s.rnd { lanes := s.S, scratch := s.scratch }
  { s with S := d.lanes, scratch := d.scratch, rnd := nextRnd s.build.unroll s.rnd }

/-- UNROLL rounds of a permutation of W. -/
def State.clockW (s : State) : State :=
  let d := datapathClock s.build.unroll s.rnd { lanes := s.W, scratch := s.scratch }
  { s with W := d.lanes, scratch := d.scratch, rnd := nextRnd s.build.unroll s.rnd }

/-- This clock cycle ends the permutation in progress. -/
def State.lastClock (s : State) : Bool := Sys2Proof.Machine.lastClock s.build.unroll s.rnd

/-! ### Absorbing -/

/-- Bytes XORed at `absorbed` until they are used up (then IDLE) or the rate block is full (then ABS_PERM,
the bytes left over latched). -/
def State.absorbUntilFull (s : State) : List Byte → State
  | [] => { s with micro := .idle, latch := { s.latch with pend := [] } }
  | v :: vs =>
    let s1 := { s with S := stXorByte s.S s.absorbed.val v }
    if h : s.absorbed.val + 1 < 168 then
      State.absorbUntilFull { s1 with absorbed := ⟨s.absorbed.val + 1, h⟩ } vs
    else { s1 with absorbed := 0, micro := .absPerm, rnd := 0, latch := { s.latch with pend := vs } }

/-! ### Squeezing -/

/-- The next output word, up to 8 bytes of W at `squeeze_off`, to the O-port (R52). -/
def State.emitWord (s : State) : State :=
  let k := min 8 s.latch.left
  let p := State.squeezeBytes k s
  { p.2 with
    oq := p.2.oq ++ [{ data := littleEndian k fun j => p.1.getD j 0#8, nb := k,
                       last := decide (k = s.latch.left) }]
    latch := { p.2.latch with left := s.latch.left - k } }

/-- What follows in SQZ_OUT once no word is held: the end of the command, a permutation of W, or the next
word. -/
def State.nextOutput (s : State) : State :=
  if s.latch.left = 0 then { s with micro := .idle }
  else if s.squeezeOff.val = 168 then { s with micro := .sqzPerm, rnd := 0 }
  else { s with micro := .sqzOut }.emitWord

/-! ### A command in progress -/

/-- What one clock edge does for the command in progress, after the transfers of that edge (R21, R23). -/
def State.progress (s : State) : State :=
  match s.micro with
  | .idle => s
  | .absorb => s.absorbUntilFull s.latch.pend
  | .absPerm =>
    if s.lastClock then
      { s.clockS with micro := if s.latch.pend.isEmpty then .idle else .absorb }
    else s.clockS
  | .finPerm =>
    if s.latch.pad then { s.padS with latch := { s.latch with pad := false } }
    else if s.lastClock then
      let t := { s.clockS with finalized := true, squeezeOff := 0 }
      if s.latch.left = 0 then { t.loadW with micro := .idle }
      else { t with micro := .sqzOut, latch := { s.latch with copy := true } }
    else s.clockS
  | .sqzOut =>
    if s.latch.copy then { s.loadW with latch := { s.latch with copy := false } }.nextOutput
    else if s.oq.isEmpty then s.nextOutput
    else s
  | .sqzPerm =>
    if s.lastClock then { s.clockW with squeezeOff := 0 }.nextOutput else s.clockW
  | .eng => if s.lastClock then { s.clockS.respond .ok 0 with micro := .idle } else s.clockS

/-! ### Starting a command -/

/-- Starting S.ABSORB. A word that fills the rate block goes on in ABS_PERM. -/
def beginSAbsorb (nb : BitVec 4) (data : BitVec 64) (s : State) : Outcome :=
  if legalCount nb && !s.finalized then .next (s.absorbUntilFull (dataBytes nb.toNat data))
  else execSAbsorb nb data s

/-- Starting S.DIGEST: the first call goes to FIN_PERM, a repeat call to SQZ_OUT, a repeat call of length 0
is done at once. -/
def beginSDigest (len : BitVec 32) (s : State) : Outcome :=
  if s.finalized then
    if len.toNat = 0 then execSDigest len s
    else .next { s with micro := .sqzOut, latch := { s.latch with copy := true, left := len.toNat } }
  else
    .next { s with micro := .finPerm, rnd := 0, latch := { s.latch with pad := true, left := len.toNat } }

/-- Starting E.PERMUTE. -/
def beginEPermute (s : State) : Outcome := .next { s with micro := .eng, rnd := 0 }

/-- The accepting edge of a command in the cycle-level machine. Single-cycle commands are complete (R155). -/
def beginCommand (i : Instr) (s : State) : Outcome :=
  match i with
  | .sReset => exec .sReset s
  | .sAbsorb nb data => beginSAbsorb nb data s
  | .sDigest len => beginSDigest len s
  | .sErrclr => exec .sErrclr s
  | .eReset => exec .eReset s
  | .eXorb off value => exec (.eXorb off value) s
  | .eXor off nb data => exec (.eXor off nb data) s
  | .eExtract off nb => exec (.eExtract off nb) s
  | .ePermute => beginEPermute s

end Sys2Proof.Machine
end

