-- ==== Sys2Proof/Machine/Ports.lean ====
section
/-! DEFINITION. The ports (R54): output signals, transfers, acceptance with its arbitration, illegal words,
and one rising clock edge. -/

namespace Sys2Proof.Machine

/-! ### Handshake signals (R54, R150, R157) -/

/-- s_ready = ~BUSY, 0 while rst_n = 0. -/
def State.sReady (s : State) (inp : Inputs) : Bool := inp.rstN && !s.busy

/-- e_ready = ~BUSY & (response register empty) & ~s_valid, 0 while rst_n = 0. Without ENGINE_TEST_PORT the
signal does not exist at the boundary, and no command is ever accepted from outside. -/
def State.eReady (s : State) (inp : Inputs) : Bool :=
  inp.rstN && s.build.engineTestPort && !s.busy && s.rsp.isNone && !inp.sValid

/-- o_valid: a word of OQ is presented. 0 while rst_n = 0. -/
def State.oValid (s : State) (inp : Inputs) : Bool := inp.rstN && !s.oq.isEmpty

/-- e_rsp_valid: a response is held. 0 while rst_n = 0. -/
def State.eRspValid (s : State) (inp : Inputs) : Bool := inp.rstN && s.rsp.isSome

/-- e_rsp_code of a response code (R53). -/
def RspCode.bits : RspCode → BitVec 2
  | .ok => 0
  | .illegalCommand => 2
  | .engineRange => 3

/-- The E-port's outputs (R54). -/
structure EngineOutputs where
  /-- e_ready. -/
  eReady : Bool
  /-- e_rsp_valid. -/
  eRspValid : Bool
  /-- e_rsp_code. -/
  eRspCode : BitVec 2
  /-- e_rsp_data. -/
  eRspData : BitVec 64
  deriving DecidableEq, Repr

/-- The block's outputs (R54). -/
structure Outputs where
  /-- s_ready. -/
  sReady : Bool
  /-- o_valid. -/
  oValid : Bool
  /-- o_data. -/
  oData : BitVec 64
  /-- o_nb. -/
  oNb : BitVec 4
  /-- o_last. -/
  oLast : Bool
  /-- status. -/
  status : BitVec 32
  /-- err_o. -/
  errO : Bool
  /-- The E-port's outputs, where the E-port exists at the block boundary. -/
  engine : Option EngineOutputs
  deriving DecidableEq, Repr

/-- The outputs in the cycle that ends with the edge whose inputs are `inp`. The data wires of a port show
a free value while its valid signal is 0: the spec states none. -/
def State.outputs (s : State) (inp : Inputs) : Outputs :=
  let idleO := Config.idleOPort s.freeCtr
  let idleR := Config.idleRspPort s.freeCtr
  let w := if s.oValid inp then s.oq.head? else none
  let r := if s.eRspValid inp then s.rsp else none
  { sReady := s.sReady inp
    oValid := s.oValid inp
    oData := (w.map fun w => w.data).getD (idleO.extractLsb' 0 64)
    oNb := (w.map fun w => BitVec.ofNat 4 w.nb).getD (idleO.extractLsb' 64 4)
    oLast := (w.map fun w => w.last).getD (idleO.getLsbD 68)
    status := s.status
    errO := s.errO
    engine :=
      if s.build.engineTestPort then
        some
          { eReady := s.eReady inp
            eRspValid := s.eRspValid inp
            eRspCode := (r.map fun r => r.code.bits).getD (idleR.extractLsb' 64 2)
            eRspData := (r.map fun r => r.data).getD (idleR.extractLsb' 0 64) }
      else none }

/-! ### Taking an output word or a response (R43, R111, R128) -/

/-- The transfer `o_valid & o_ready`: the first word of OQ goes to the host. -/
def State.takeOutput (s : State) (inp : Inputs) : State :=
  if s.oValid inp && inp.oReady then
    { s with oq := s.oq.tail, taken := s.taken ++ s.oq.head?.toList }
  else s

/-- The transfer `e_rsp_valid & e_rsp_ready`: the held response goes to the requester. -/
def State.takeResponse (s : State) (inp : Inputs) : State :=
  if s.build.engineTestPort && s.eRspValid inp && inp.eRspReady then
    { s with rsp := none, responses := s.responses ++ s.rsp.toList }
  else s

/-- Both transfers of one edge. -/
def State.takeTransfers (s : State) (inp : Inputs) : State := (s.takeOutput inp).takeResponse inp

/-- The host meets its duties (R166): it takes every output word and every response there is, and the
S.DIGEST that waited for it is complete (R111). -/
def State.settle (s : State) : State :=
  { s with
    oq := []
    taken := s.taken ++ s.oq
    rsp := none
    responses := s.responses ++ s.rsp.toList
    micro := if s.micro = .sqzOut ∧ s.latch.left = 0 ∧ s.latch.copy = false then .idle else s.micro }

/-! ### Accepting a command word (R80, R81, R100, R101) -/

/-- The environment's record of an accepted word: each accepting edge adds exactly one (R156). -/
def State.recordAccepted (s : State) (p : Port) (cw : CommandWord) : State :=
  { s with accepted := s.accepted ++ [(p, cw)] }

/-- A word accepted on the S-port: the command if it is legal, IllegalCommand if not (R132). -/
def acceptS (run : Instr → State → Outcome) (cw : CommandWord) (s : State) : Outcome :=
  match decodeS cw with
  | .ok i => run i s
  | .error _ => .next (s.raise .illegalCommandS)

/-- A word accepted on the E-port (R133). -/
def acceptE (run : Instr → State → Outcome) (cw : CommandWord) (s : State) : Outcome :=
  match decodeE cw with
  | .ok i => run i s
  | .error _ => .next (s.raise .illegalCommandE)

/-! ### One rising edge of clk -/

/-- One rising clock edge with the given inputs. rst_n wins over everything (R150, R151). Otherwise the
transfers of the edge happen; a command in progress goes on; and where none is, the word on the S-port is
accepted if there is one, else the word on the E-port if e_ready allows (R91, R157). Which signals are
valid and ready is read from the state before the edge. `run` says what acceptance does. -/
def State.edge (run : Instr → State → Outcome) (s : State) (inp : Inputs) : Outcome :=
  let s0 := { s with freeCtr := s.freeCtr + 1 }
  if inp.rstN then
    let t := s0.takeTransfers inp
    if s.busy then .next t.progress
    else if inp.sValid && s.sReady inp then acceptS run inp.sCw (t.recordAccepted .sponge inp.sCw)
    else if inp.eValid && s.eReady inp then acceptE run inp.eCw (t.recordAccepted .engine inp.eCw)
    else .next t
  else .next s0.rstEdge

/-- The next edge, with the inputs that the environment drives next; when it drives nothing more, the edge
is quiet. -/
def State.nextEdge (run : Instr → State → Outcome) (s : State) : Outcome :=
  match s.inputs with
  | [] => s.edge run Inputs.quiet
  | inp :: rest => { s with inputs := rest }.edge run inp

/-- Edges with the given inputs, one after the other. -/
def State.edges (run : Instr → State → Outcome) (s : State) : List Inputs → Outcome
  | [] => .next s
  | inp :: rest =>
    match s.edge run inp with
    | .next t => State.edges run t rest
    | .fault r => .fault r
    | .refused r => .refused r

/-! ### Presenting one word -/

/-- The state whose next edge presents the word, and whose block can accept it: the word on its port, and
what would keep that port from accepting it removed. A busy block is made idle (an untaken output is
dropped, work in progress is abandoned). For a word with an E-port opcode the response register is emptied
and the E-port exists. It stands for the host's doing, not for a step of the block (log entry 9). -/
def State.presentWord (s : State) (cw : CommandWord) : State :=
  let s1 := if s.busy then { s with micro := .idle, rnd := 0, latch := Latch.empty, oq := [] } else s
  match cw.port with
  | .sponge =>
    { s1 with inputs := { Inputs.quiet with sValid := true, sCw := cw } :: s.inputs.tail }
  | .engine =>
    { s1 with
      build := { s.build with engineTestPort := true }
      rsp := none
      inputs := { Inputs.quiet with eValid := true, eCw := cw } :: s.inputs.tail }

end Sys2Proof.Machine
end

