-- ==== Sys2Proof/Machine/Step.lean ====
section
/-! DEFINITION. The step of the transaction-level machine (R118), and the placing of one command word. -/

namespace Sys2Proof.Machine

/-- One step: the next clock edge, on which an accepted command has its whole effect at once (R118, R73).
BUSY is 1 while output words wait (R25), and no command is accepted then (log entry 1). -/
def step (s : State) : Host.Outcome State Fault Refusal := s.nextEdge exec

/-- One step of the cycle-level machine: the next clock edge, on which an accepted command is only started
(R155). -/
def cycleStep (s : State) : Host.Outcome State Fault Refusal := s.nextEdge beginCommand

/-- The state whose next step accepts and runs the word `w` of the opcode table: the host presents it on
its port at the next edge. -/
def State.withFetchWord (s : State) (nbits w : Nat) : State :=
  s.presentWord (BitVec.ofNat 96 (w % 2 ^ nbits))

end Sys2Proof.Machine
end

