-- ==== Sys2Proof/Machine/Assembler.lean ====
section
/-! DEFINITION. The assembly syntax of one command line (R56): mnemonic first, operands separated by commas,
numbers decimal or hexadecimal with the prefix 0x, and a quoted string for S.ABSORB. A line that does not
fit is refused. An operand that does not fit its field is refused; whether the word is legal is the block's
own check (DESIGN CHOICE, log entry 8). -/

namespace Sys2Proof.Machine

/-- A space or a tab. -/
def isBlank (c : Char) : Bool := c == ' ' || c == '\t'

/-- The text without blanks at either end. -/
def trimBlanks (cs : List Char) : List Char :=
  ((cs.dropWhile isBlank).reverse.dropWhile isBlank).reverse

/-- The text cut at each comma outside a quoted string; `inside` says whether it starts inside one. -/
def cutAtCommas (inside : Bool) : List Char → List (List Char)
  | [] => [[]]
  | c :: cs =>
    if c == ',' && !inside then [] :: cutAtCommas false cs
    else
      match cutAtCommas (if c == '"' then !inside else inside) cs with
      | [] => [[c]]
      | d :: ds => (c :: d) :: ds

/-- The value of a digit in the given base, at most 16. -/
def digitValue (base : Nat) (c : Char) : Option Nat :=
  let v :=
    if 48 ≤ c.toNat ∧ c.toNat ≤ 57 then c.toNat - 48
    else if 65 ≤ c.toNat ∧ c.toNat ≤ 70 then c.toNat - 55
    else if 97 ≤ c.toNat ∧ c.toNat ≤ 102 then c.toNat - 87
    else 16
  if v < base then some v else none

/-- A string of digits, most significant first; at least one. -/
def digitsValue (base : Nat) (cs : List Char) : Option Nat :=
  if cs.isEmpty then none
  else cs.foldlM (fun acc c => (digitValue base c).map fun v => acc * base + v) 0

/-- A number (R56). -/
def numberOf : List Char → Option Nat
  | '0' :: 'x' :: cs => digitsValue 16 cs
  | cs => digitsValue 10 cs

/-- A number that fits a field of w bits. -/
def fieldOf (w : Nat) (cs : List Char) : Option (BitVec w) :=
  match numberOf cs with
  | some n => if n < 2 ^ w then some (BitVec.ofNat w n) else none
  | none => none

/-- The characters between the quotes of a quoted string. -/
def unquoted : List Char → Option (List Char)
  | '"' :: cs =>
    match cs.reverse with
    | '"' :: rs => if rs.contains '"' then none else some rs.reverse
    | _ => none
  | _ => none

/-- The ASCII bytes of a quoted string of 1 to 8 characters (R56). -/
def stringBytes (cs : List Char) : Option (List Byte) :=
  match unquoted cs with
  | some xs =>
    if 1 ≤ xs.length ∧ xs.length ≤ 8 ∧ xs.all (fun c => decide (c.toNat < 128)) then
      some (xs.map fun c => BitVec.ofNat 8 c.toNat)
    else none
  | none => none

/-- A command without operands. -/
def plainCommand (i : Instr) (args : List (List Char)) : Option Instr :=
  if args.isEmpty then some i else none

/-- S.ABSORB nb, data or S.ABSORB "str". -/
def absorbCommand : List (List Char) → Option Instr
  | [str] => (stringBytes str).map fun bytes =>
      .sAbsorb (BitVec.ofNat 4 bytes.length) (littleEndian bytes.length fun k => bytes.getD k 0#8)
  | [nb, data] =>
    match fieldOf 4 nb, fieldOf 64 data with
    | some n, some d => some (.sAbsorb n d)
    | _, _ => none
  | _ => none

/-- S.DIGEST len. -/
def digestCommand : List (List Char) → Option Instr
  | [len] => (fieldOf 32 len).map .sDigest
  | _ => none

/-- E.XORB off, value. -/
def xorbCommand : List (List Char) → Option Instr
  | [off, value] =>
    match fieldOf 8 off, fieldOf 64 value with
    | some o, some v => some (.eXorb o v)
    | _, _ => none
  | _ => none

/-- E.XOR off, nb, data. -/
def xorCommand : List (List Char) → Option Instr
  | [off, nb, data] =>
    match fieldOf 8 off, fieldOf 4 nb, fieldOf 64 data with
    | some o, some n, some d => some (.eXor o n d)
    | _, _, _ => none
  | _ => none

/-- E.EXTRACT off, nb. -/
def extractCommand : List (List Char) → Option Instr
  | [off, nb] =>
    match fieldOf 8 off, fieldOf 4 nb with
    | some o, some n => some (.eExtract o n)
    | _, _ => none
  | _ => none

/-- The mnemonics, each with what reads its operands (R47, R48, R56). -/
def mnemonicTable : List (List Char × (List (List Char) → Option Instr)) :=
  [ (['S', '.', 'R', 'E', 'S', 'E', 'T'], plainCommand .sReset),
    (['S', '.', 'A', 'B', 'S', 'O', 'R', 'B'], absorbCommand),
    (['S', '.', 'D', 'I', 'G', 'E', 'S', 'T'], digestCommand),
    (['S', '.', 'E', 'R', 'R', 'C', 'L', 'R'], plainCommand .sErrclr) ] ++
  [ (['E', '.', 'R', 'E', 'S', 'E', 'T'], plainCommand .eReset),
    (['E', '.', 'X', 'O', 'R', 'B'], xorbCommand),
    (['E', '.', 'X', 'O', 'R'], xorCommand),
    (['E', '.', 'E', 'X', 'T', 'R', 'A', 'C', 'T'], extractCommand),
    (['E', '.', 'P', 'E', 'R', 'M', 'U', 'T', 'E'], plainCommand .ePermute) ]

/-- The command a line stands for. -/
def assemble (line : List Char) : Option Instr :=
  let cs := trimBlanks line
  let name := cs.takeWhile fun c => !isBlank c
  let rest := trimBlanks (cs.dropWhile fun c => !isBlank c)
  let args := if rest.isEmpty then [] else (cutAtCommas false rest).map trimBlanks
  match mnemonicTable.find? fun row => row.1 == name with
  | some row => row.2 args
  | none => none

end Sys2Proof.Machine
end

