-- ==== Sys2Proof/Machine/Pseudo.lean ====
section
/-! DEFINITION. The pseudo-commands (R57), each a sequence of commands, and running such a sequence with a
host that takes every output. -/

namespace Sys2Proof.Machine

/-- The commands in order; after each the host takes every word and response (R166). -/
def runCommands : List Instr → State → Outcome
  | [], s => .next s
  | i :: is, s =>
    match exec i s with
    | .next t => runCommands is t.settle
    | .fault r => .fault r
    | .refused r => .refused r

/-- Chunk c of a byte string: its bytes 8c … min(8c+8, m) − 1. -/
def chunkOf (bytes : List Byte) (c : Nat) : List Byte := (bytes.drop (8 * c)).take 8

/-- The bytes of a chunk as a DATA field. -/
def packData (bytes : List Byte) : BitVec 64 := littleEndian bytes.length fun k => bytes.getD k 0#8

/-- UPDATE bytes (R57). -/
def updateCommands (bytes : List Byte) : List Instr :=
  if bytes.isEmpty then [.sAbsorb 0 0]
  else (List.range ((bytes.length + 7) / 8)).map fun c =>
    .sAbsorb (BitVec.ofNat 4 (chunkOf bytes c).length) (packData (chunkOf bytes c))

/-- HASH bytes, len (R57). -/
def hashCommands (bytes : List Byte) (len : BitVec 32) : List Instr :=
  .sReset :: (updateCommands bytes ++ [.sDigest len])

/-- E.XORBYTES off, bytes (R57): refused unless off + m ≤ 200. -/
def xorBytesCommands (off : Nat) (bytes : List Byte) : Option (List Instr) :=
  if off + bytes.length ≤ Config.stateBytes then
    some (if bytes.isEmpty then [.eXor (BitVec.ofNat 8 off) 0 0]
      else (List.range ((bytes.length + 7) / 8)).map fun c =>
        .eXor (BitVec.ofNat 8 (off + 8 * c)) (BitVec.ofNat 4 (chunkOf bytes c).length)
          (packData (chunkOf bytes c)))
  else none

/-- E.EXTRACTBYTES off, m (R57): refused unless off + m ≤ 200. -/
def extractBytesCommands (off m : Nat) : Option (List Instr) :=
  if off + m ≤ Config.stateBytes then
    some (if m = 0 then [.eExtract (BitVec.ofNat 8 off) 0]
      else (List.range ((m + 7) / 8)).map fun c =>
        .eExtract (BitVec.ofNat 8 (off + 8 * c)) (BitVec.ofNat 4 (min 8 (m - 8 * c))))
  else none

/-- What E.EXTRACTBYTES delivers: the low nb_c bytes of each response, concatenated in order (R57). -/
def extractedBytes (m : Nat) (rs : List Response) : List Byte :=
  (List.range rs.length).flatMap fun c =>
    dataBytes (min 8 (m - 8 * c)) ((rs.map fun r => r.data).getD c 0#64)

end Sys2Proof.Machine
end

