-- ==== Sys2Proof/Machine/Reference.lean ====
section
/-! DEFINITION. SHAKE128 written in the block form of the standard (R2, R124), over the model's KeccakF. The
machine does not use it; statements compare the machine with it. The padding of whole messages is taken
from general knowledge of FIPS 202 (PRESUMED, log entry 7; the spec's G2 says the same). -/

namespace Sys2Proof.Machine

/-- The SHAKE padding of a message of m bytes: 0x1F, zeros, 0x80, up to a multiple of 168 bytes; the two
bytes fall together as 0x9F when only one byte is free (R108). -/
def shakePadding (m : Nat) : List Byte :=
  let free := 168 - m % 168
  if free = 1 then [0x9F] else 0x1F :: (List.replicate (free - 2) 0 ++ [0x80])

/-- Rate block b of a padded message. -/
def rateBlock (padded : List Byte) (b : Nat) : List Byte := (padded.drop (168 * b)).take 168

/-- The sponge absorbing: XOR each rate block into bytes 0..167, permute after each. -/
def absorbBlocks (padded : List Byte) : Lanes :=
  (List.range (padded.length / 168)).foldl
    (fun A b => keccakF (stXorBytes A 0 (rateBlock padded b))) Lanes.zero

/-- Output byte j squeezed from the state A (R112). -/
def squeezedByte (A : Lanes) (j : Nat) : Byte := stByte (keccakFTimes (j / 168) A) (j % 168)

/-- SHAKE128(M, n), the first n output bytes for the message M. -/
def shake128 (M : List Byte) (n : Nat) : List Byte :=
  (List.range n).map (squeezedByte (absorbBlocks (M ++ shakePadding M.length)))

end Sys2Proof.Machine
end

