-- ==== Sys2Proof/Machine/Timing.lean ====
section
/-! DEFINITION. The timing table of R163: BUSY cycles after the accepting edge, o_ready = 1 throughout. The
table is informative (R162, R163): neither `exec` nor `step` reads it. -/

namespace Sys2Proof.Machine

/-- ceil(a / b). -/
def ceilDiv (a b : Nat) : Nat := (a + b - 1) / b

/-- BUSY cycles of S.ABSORB. -/
def busyCyclesAbsorb (u : Unroll) (s : State) (nb : BitVec 4) : Nat :=
  if legalCount nb && !s.finalized then
    if s.absorbed.val + nb.toNat < Config.rate then 0
    else if s.absorbed.val + nb.toNat = Config.rate then permuteCycles u
    else permuteCycles u + 1
  else 0

/-- BUSY cycles of S.DIGEST n. -/
def busyCyclesDigest (u : Unroll) (s : State) (n : Nat) : Nat :=
  let p := permuteCycles u
  let out := 1 + ceilDiv n 8 + p * (ceilDiv n Config.rate - 1)
  if n = 0 then (if s.finalized then 0 else 1 + p)
  else if s.finalized then out
  else 1 + p + out

/-- BUSY cycles of a command accepted in the idle state s. -/
def busyCycles (s : State) (i : Instr) : Nat :=
  match i with
  | .sReset => 0
  | .sAbsorb nb _ => busyCyclesAbsorb s.build.unroll s nb
  | .sDigest len => busyCyclesDigest s.build.unroll s len.toNat
  | .sErrclr => 0
  | .eReset => 0
  | .eXorb _ _ => 0
  | .eXor _ _ _ => 0
  | .eExtract _ _ => 0
  | .ePermute => permuteCycles s.build.unroll

end Sys2Proof.Machine
end

