-- ==== Sys2Proof/Safety.lean ====
section
/-! DEFINITION. What counts as a safe run, the end of a run and its observation (R164), and the invariants
of the machine (R18, R19, R21, R25). -/

namespace Sys2Proof.Machine

/-- Safe: no E-port response that counts as a fault was ever given (R134, O1, U9). -/
def State.safe (s : State) : Bool := !s.portFaults.illegal && !s.portFaults.range

/-- The states of the runs from rst_n in a given build, whatever the environment drives (R165). -/
inductive Reachable (build : Build) : State → Prop where
  /-- Right after rst_n, the environment about to drive any inputs. -/
  | start (ins : List Inputs) : Reachable build { State.resetOf build with inputs := ins }
  /-- After one more step. -/
  | next {s t : State} : Reachable build s → step s = .next t → Reachable build t

/-- The end of a run that presents the given commands after rst_n, in their order of acceptance: they have
been accepted, the last one too, BUSY = 0, OQ is empty and no response is held (R164). A word that was
presented and withdrawn unaccepted is no command of the run (R156). -/
def State.runEnded (s : State) (commands : List (Port × CommandWord)) : Bool :=
  decide (s.accepted = commands) && !s.busy && s.oq.isEmpty && s.rsp.isNone

/-- Output words split by o_last: one list for each S.DIGEST that emitted words (R164). -/
def splitByLast : List OutWord → List (List OutWord)
  | [] => []
  | w :: ws =>
    if w.last then [w] :: splitByLast ws
    else
      match splitByLast ws with
      | [] => [[w]]
      | d :: ds => (w :: d) :: ds

/-- The output bytes that words carry, in order (R128). -/
def outputBytes (ws : List OutWord) : List Byte := ws.flatMap OutWord.bytes

/-- The observation of a run (R164). -/
structure Observation where
  /-- STATUS at the end. -/
  status : BitVec 32
  /-- The output words taken, split by o_last. -/
  outputs : List (List OutWord)
  /-- The E-port responses. -/
  responses : List Response
  deriving DecidableEq, Repr

/-- What a run that ended in this state shows: the record of this run alone, since rst_n starts a new one. -/
def State.observation (s : State) : Observation :=
  { status := s.status, outputs := splitByLast s.taken, responses := s.responses }

/-- The words are what is left of one S.DIGEST: each full but the last, which holds 1..8 bytes and alone
carries o_last; bits at and above 8·o_nb are 0 (R52). -/
def queueWf : List OutWord → Bool
  | [] => true
  | [w] => w.last && decide (1 ≤ w.nb) && decide (w.nb ≤ 8) && decide (w.data.toNat < 2 ^ (8 * w.nb))
  | w :: ws => !w.last && decide (w.nb = 8) && queueWf ws

/-- The block is idle and nothing of an earlier command is left: a command can be accepted. -/
def State.idleBlock (s : State) : Prop :=
  s.micro = .idle ∧ s.latch = Latch.empty ∧ s.rnd = 0 ∧ s.oq = []

/-- No command is half done: the block is idle, or it only waits for the host to take the words of an
S.DIGEST. Every state of the transaction-level machine is of this kind (R118). -/
def State.atBoundary (s : State) : Bool :=
  decide (s.latch = Latch.empty) && decide (s.rnd = 0) &&
    ((decide (s.micro = .idle) && s.oq.isEmpty) || (decide (s.micro = .sqzOut) && !s.oq.isEmpty))

/-- A held response carries data only with code 0 (R53). -/
def State.responseWf (s : State) : Bool :=
  match s.rsp with
  | none => true
  | some r => decide (r.code = .ok) || decide (r.data = 0)

/-- The invariant of the transaction-level machine: no half-done command, and BUSY = 1 exactly while OQ is
non-empty (R25, R118); `squeeze_off` is 0 while Absorbing (R18); output words and a held response have
their form (R52, R53); and without ENGINE_TEST_PORT no response is held (R26, R54). The ranges of the
counters (R19) are in their types. -/
def State.inv (s : State) : Bool :=
  s.atBoundary && (s.finalized || decide (s.squeezeOff = 0)) && queueWf s.oq && s.responseWf &&
    (s.build.engineTestPort || s.rsp.isNone)

end Sys2Proof.Machine
end

