-- ==== Sys2Proof/Certificates/Slice0/Obligations.lean ====
section
/-! DEFINITION. The statements for the provers. -/

open Sys2Proof Sys2Proof.Machine

/-! ### Encoding -/

/-- R59: each assembly line of the table stands for its word, and the word is decoded to the command. -/
def Obligations.SpecEncodingExamples : Prop :=
  ∀ row ∈
    ([ ("S.RESET", Instr.sReset, CommandWord.ofGroups 0x00000000 0x00000000 0x00000001),
       ("S.ABSORB 8, 0x0807060504030201", Instr.sAbsorb 8 0x0807060504030201,
         CommandWord.ofGroups 0x08070605 0x04030201 0x00000082),
       ("S.ABSORB 0, 0", Instr.sAbsorb 0 0, CommandWord.ofGroups 0x00000000 0x00000000 0x00000002),
       ("S.DIGEST 168", Instr.sDigest 168, CommandWord.ofGroups 0x00000000 0x000000A8 0x00000003),
       ("S.ERRCLR", Instr.sErrclr, CommandWord.ofGroups 0x00000000 0x00000000 0x00000004),
       ("E.RESET", Instr.eReset, CommandWord.ofGroups 0x00000000 0x00000000 0x00000008),
       ("E.XORB 199, 0x80", Instr.eXorb 199 0x80,
         CommandWord.ofGroups 0x00000000 0x00000080 0x0000C709),
       ("E.XOR 196, 4, 0x11111111", Instr.eXor 196 4 0x11111111,
         CommandWord.ofGroups 0x00000000 0x11111111 0x0000C44A),
       ("E.EXTRACT 0, 8", Instr.eExtract 0 8, CommandWord.ofGroups 0x00000000 0x00000000 0x0000008B),
       ("E.PERMUTE", Instr.ePermute, CommandWord.ofGroups 0x00000000 0x00000000 0x0000000C) ] :
      List (String × Instr × CommandWord)),
    assemble row.1.toList = some row.2.1 ∧ encode row.2.1 = row.2.2 ∧
      decode row.2.1.port row.2.2 = .ok row.2.1

/-- Every well-formed command, with every operand its encoding admits, is what its port's decoder reads
from its word. -/
def Obligations.DecodeOfEncodeIsIdentity : Prop :=
  ∀ i : Instr, i.wf = true → decode i.port (encode i) = .ok i

/-- A word that a port's decoder accepts is the word of the command read, which is well-formed and of that
port: no bit of a legal word is dropped. -/
def Obligations.EncodeOfDecodeIsIdentity : Prop :=
  ∀ (p : Port) (cw : CommandWord) (i : Instr), decode p cw = .ok i →
    encode i = cw ∧ i.wf = true ∧ i.port = p

/-- R49, R50: a port's decoder accepts a word exactly when LegalS or LegalE holds, exactly when a match and
mask row of the port holds for it; and it then reads the operands R46 takes. -/
def Obligations.DecoderAcceptsExactlyLegalWords : Prop :=
  ∀ (p : Port) (cw : CommandWord),
    ((∃ i, decode p cw = .ok i) ↔ legal p cw = true) ∧
    (legal p cw = true ↔ ∃ r ∈ opcodeRows, r.port = p ∧ OpcodeRow.matches r cw = true) ∧
    (∀ i, decode p cw = .ok i → operandsOf p cw = some i)

/-- R51: which words are illegal. No word is legal on both ports. -/
def Obligations.IllegalWordsOfEachPort : Prop :=
  (∀ (p : Port) (cw : CommandWord), cw.rsv ≠ 0 → legal p cw = false) ∧
  (∀ cw : CommandWord, cw.op = 0 ∨ 5 ≤ cw.op.toNat → legalS cw = false) ∧
  (∀ cw : CommandWord, cw.op.toNat ≤ 7 ∨ 13 ≤ cw.op.toNat → legalE cw = false) ∧
  (∀ (p : Port) (cw : CommandWord), 8 < cw.nb.toNat → legal p cw = false) ∧
  (∀ cw : CommandWord, legalS cw = true → legalE cw = false) ∧
  (∀ p : Port, legal p 0 = false ∧ legal p (BitVec.allOnes 96) = false)

/-- R132, R133: an illegal word on the S-port sets ERR_ILL and does nothing else; on the E-port it gives a
response with code 2 and data 0 and does nothing else to the block. `f` is the model's record of E-port
faults, no state of the block; PortFaultsAreNeverCleared says what it holds. -/
def Obligations.IllegalWordsOnlyRecordTheError : Prop :=
  (∀ (cw : CommandWord) (s : State), legalS cw = false →
    acceptS exec cw s = .next { s with errIll := true }) ∧
  (∀ (cw : CommandWord) (s : State), legalE cw = false →
    ∃ f : PortFaults, acceptE exec cw s =
      .next { s with rsp := some { code := .illegalCommand, data := 0 }, portFaults := f })

/-! ### The permutation -/

/-- R60, R61: left rotation, bit by bit, its formula for n in 1..63, the identity for n = 0, and for n = 32
the swap of the two halves. -/
def Obligations.RotateLeftMovesBits : Prop :=
  (∀ (x : Lane) (n z : Nat), n < 64 → z < 64 →
    (rotl64 x n).getLsbD z = x.getLsbD ((z + (64 - n)) % 64)) ∧
  (∀ (x : Lane) (n : Nat), 1 ≤ n → n ≤ 63 → rotl64 x n = (x <<< n) ||| (x >>> (64 - n))) ∧
  (∀ x : Lane, rotl64 x 0 = x) ∧
  (∀ x : Lane, rotl64 x 32 = x.extractLsb' 0 32 ++ x.extractLsb' 32 32)

/-- R62, R66, R67: Theta, Chi and Iota, lane by lane, each from its own input. -/
def Obligations.ThetaChiIotaByLane : Prop :=
  ∀ A : Lanes,
    (∀ x y : Fin 5,
      let C := fun x : Fin 5 =>
        laneAt A x 0 ^^^ laneAt A x 1 ^^^ laneAt A x 2 ^^^ laneAt A x 3 ^^^ laneAt A x 4
      laneAt (theta A) x y = laneAt A x y ^^^ (C (x - 1) ^^^ rotl64 (C (x + 1)) 1)) ∧
    (∀ x y : Fin 5,
      laneAt (chi A) x y = laneAt A x y ^^^ (~~~ laneAt A (x + 1) y &&& laneAt A (x + 2) y)) ∧
    (∀ (rd : Fin 24) (i : Fin 25),
      (iota A rd)[i] = if i = 0 then A[i] ^^^ rcTable[rd] else A[i])

/-- R64, R65: Pi moves lane i to π[i], π is a bijection on 0..24 with the inverse the spec prints, and Rho
then Pi is the fused form. -/
def Obligations.RhoThenPiMovesRotatedLanes : Prop :=
  (∀ i : Fin 25, piTable[i] < 25) ∧ (∀ i j : Fin 25, piTable[i] = piTable[j] → i = j) ∧
  ∀ (A : Lanes) (i : Fin 25),
    (piStep A).getD piTable[i] 0#64 = A[i] ∧
    (piStep (rho A)).getD piTable[i] 0#64 = rotl64 A[i] rhoTable[i] ∧
    (piStep A)[i] =
      A.getD ([0, 6, 12, 18, 24, 3, 9, 10, 16, 22, 1, 7, 13, 19, 20, 4, 5, 11, 17, 23, 2, 8, 14, 15,
        21].getD i.val 0) 0#64

/-- R75: the three tables meet the generating definitions that the spec's audit names (from general
knowledge, as R75 says): RC from the degree-8 LFSR, r along the walk (x, y) <- (y, 2x + 3y), and π from
A'[x,y] = A[(x + 3y) mod 5, x]. -/
def Obligations.TablesMeetGeneratingDefinitions : Prop :=
  let lfsr := fun R : BitVec 8 => (R <<< 1) ^^^ (if R.getLsbD 7 then 0x71#8 else 0#8)
  let rcBit := fun t : Nat => (Nat.repeat lfsr t 1#8).getLsbD 0
  let walk := fun p : Fin 5 × Fin 5 => (p.2, 2 * p.1 + 3 * p.2)
  (∀ (rd : Fin 24) (z : Fin 64), rcTable[rd].getLsbD z.val =
    (List.range 7).any fun j => z.val + 1 == 2 ^ j && rcBit (j + 7 * rd.val)) ∧
  rhoTable[(0 : Fin 25)] = 0 ∧
  (∀ t : Fin 24,
    let p := Nat.repeat walk t.val ((1, 0) : Fin 5 × Fin 5)
    rhoTable.toList[p.1.val + 5 * p.2.val]? = some ((t.val + 1) * (t.val + 2) / 2 % 64)) ∧
  (∀ x y : Fin 5, piTable.toList[(x + 3 * y).val + 5 * x.val]? = some (x.val + 5 * y.val))

/-- R69, R72: for every UNROLL, PERMUTE_CYCLES clock cycles of the folded datapath from `rnd` = 0 give
KeccakF, whatever the scratch storage held, and `rnd` steps through 0, UNROLL, 2·UNROLL, … and is 0 again. -/
def Obligations.FoldedDatapathComputesKeccakF : Prop :=
  ∀ (u : Unroll) (A : Lanes) (sc : Scratch),
    (datapathClocks u (permuteCycles u) ({ lanes := A, scratch := sc }, 0)).1.lanes = keccakF A ∧
    (datapathClocks u (permuteCycles u) ({ lanes := A, scratch := sc }, 0)).2 = 0 ∧
    ∀ k, k < permuteCycles u →
      (datapathClocks u k ({ lanes := A, scratch := sc }, 0)).2.val = k * u.rounds

/-! ### The state byte space -/

/-- R32: StXorByte changes byte b, and no other lane and no other byte. -/
def Obligations.ByteXorChangesOneByte : Prop :=
  ∀ (T : Lanes) (b : Nat) (v : BitVec 64), b < 200 →
    (∀ i : Fin 25, (stXorByte T b (byteOf v 0))[i] =
      if i.val = b / 8 then T[i] ^^^ ((v.setWidth 8).setWidth 64 <<< (8 * (b % 8))) else T[i]) ∧
    (∀ c, c < 200 →
      stByte (stXorByte T b (byteOf v 0)) c =
        if c = b then stByte T c ^^^ v.setWidth 8 else stByte T c)

/-- R33: a multi-byte access touches the bytes b … b+n−1, whatever the alignment of b. -/
def Obligations.MultiByteAccess : Prop :=
  ∀ (T : Lanes) (b n : Nat) (v : BitVec 64), n ≤ 8 → b + n ≤ 200 →
    (∀ c, c < 200 →
      stByte (stXor T b n v) c =
        if b ≤ c ∧ c < b + n then stByte T c ^^^ byteOf v (c - b) else stByte T c) ∧
    (∀ k, byteOf (stRead T b n) k = if k < n then stByte T (b + k) else 0)

/-- R35, R36: a lane-aligned 8-byte access is one whole lane. -/
def Obligations.AlignedAccessIsWholeLane : Prop :=
  ∀ (T : Lanes) (i : Fin 25) (v : BitVec 64),
    stRead T (8 * i.val) 8 = T[i] ∧ stXor T (8 * i.val) 8 v = T.set i.val (T[i] ^^^ v)

/-! ### Sponge commands -/

/-- R103: S.RESET zeroes S, the counters, the phase and both error flags, and changes nothing else. A held
E-port response, which R103's pseudocode does not name, stays or is discarded: the spec says both (log entry
25). A word with OP = 1 and any other bit set is illegal: the reset does not happen. -/
def Obligations.SResetRestoresFreshContext : Prop :=
  (∀ s : State, ∃ r : Option Response, (r = s.rsp ∨ r = none) ∧
    exec .sReset s =
      .next { s with S := Lanes.zero, absorbed := 0, finalized := false, squeezeOff := 0,
                     errUaf := false, errIll := false, rsp := r }) ∧
  (∀ b, stByte Lanes.zero b = 0) ∧
  (∀ (s t : State), s.busy = false → exec .sReset s = .next t → t.status = 0) ∧
  (∀ (cw : CommandWord) (s : State), cw.op = 1 →
    acceptS exec cw s =
      if cw = CommandWord.ofGroups 0 0 1 then exec .sReset s else .next { s with errIll := true })

/-- R104, R105: S.ABSORB in the Absorbing phase. Below the end of the rate block the bytes are XORed in at
`absorbed`; where they reach it, the first part is XORed in, S is permuted, and the rest goes in from
offset 0. In the Squeezable phase, whatever nb, ERR_UAF is set and nothing else happens. -/
def Obligations.SAbsorbXorsAndPermutes : Prop :=
  (∀ (nb : BitVec 4) (data : BitVec 64) (s : State), nb.toNat ≤ 8 → s.finalized = false →
    (s.absorbed.val + nb.toNat < 168 →
      ∃ a : Fin 168, a.val = s.absorbed.val + nb.toNat ∧
        exec (.sAbsorb nb data) s =
          .next { s with S := stXorBytes s.S s.absorbed.val (dataBytes nb.toNat data),
                         absorbed := a }) ∧
    (168 ≤ s.absorbed.val + nb.toNat →
      ∃ (a : Fin 168) (sc : Scratch), a.val = s.absorbed.val + nb.toNat - 168 ∧
        exec (.sAbsorb nb data) s =
          .next { s with
            S := stXorBytes
              (keccakF (stXorBytes s.S s.absorbed.val
                ((dataBytes nb.toNat data).take (168 - s.absorbed.val))))
              0 ((dataBytes nb.toNat data).drop (168 - s.absorbed.val))
            absorbed := a
            scratch := sc })) ∧
  (∀ (nb : BitVec 4) (data : BitVec 64) (s : State), nb.toNat ≤ 8 → s.finalized = true →
    exec (.sAbsorb nb data) s = .next { s with errUaf := true }) ∧
  (∀ (cw : CommandWord) (s : State), cw.op = 2 →
    acceptS exec cw s =
      if cw.off = 0 ∧ cw.rsv = 0 ∧ cw.nb.toNat ≤ 8 then exec (.sAbsorb cw.nb cw.data) s
      else .next { s with errIll := true })

/-- R104, R123, R46: an S.ABSORB that does not fill the rate block changes exactly the bytes `absorbed` …
`absorbed` + nb − 1 of S, all of them rate bytes; data bytes at and above nb have no influence. -/
def Obligations.SAbsorbTouchesOnlyItsBytes : Prop :=
  ∀ (nb : BitVec 4) (data data' : BitVec 64) (s t : State), nb.toNat ≤ 8 → s.finalized = false →
    (exec (.sAbsorb nb data) s = .next t → s.absorbed.val + nb.toNat < 168 →
      ∀ c, c < 200 → stByte t.S c =
        if s.absorbed.val ≤ c ∧ c < s.absorbed.val + nb.toNat
        then stByte s.S c ^^^ byteOf data (c - s.absorbed.val) else stByte s.S c) ∧
    ((∀ k, k < nb.toNat → byteOf data k = byteOf data' k) →
      exec (.sAbsorb nb data) s = exec (.sAbsorb nb data') s)

/-- R106, R107, R109, R110, R112, R126: what S.DIGEST does, whole. In the Absorbing phase S is padded and
permuted once; then W is loaded from S, and output byte j is byte j mod 168 of j div 168 applications of
KeccakF to S; the words of all n bytes are appended to OQ; `squeeze_off` is as R110 says; `absorbed`, the
error flags and everything else stay. Of the micro-state only what BUSY shows is said: it is not IDLE while
there are words to take, and as before where n = 0. -/
def Obligations.SDigestFinalizesAndSqueezes : Prop :=
  ∀ (len : BitVec 32) (s : State),
    ∃ (A : Lanes) (sc : Scratch) (o : Fin 169) (m : Micro),
      A = (if s.finalized then s.S
        else keccakF (stXorByte (stXorByte s.S s.absorbed.val 0x1F#8) 167 0x80#8)) ∧
      o.val = (if len.toNat = 0 then 0 else (len.toNat - 1) % 168 + 1) ∧
      (len.toNat = 0 → m = s.micro) ∧ (len.toNat ≠ 0 → m ≠ .idle) ∧
      exec (.sDigest len) s =
        .next { s with
          S := A
          W := keccakFTimes ((len.toNat - 1) / 168) A
          scratch := sc
          finalized := true
          squeezeOff := o
          oq := s.oq ++ outWords ((List.range len.toNat).map fun j =>
            stByte (keccakFTimes (j / 168) A) (j % 168))
          micro := m }

/-- R106, R125: a word with OP = 3 is S.DIGEST exactly when NB, OFF, RSV and CW[95:64] are 0; then it
completes in either phase with no error flag changed; otherwise it is illegal. -/
def Obligations.SDigestLegalInBothPhases : Prop :=
  ∀ (cw : CommandWord) (s : State), cw.op = 3 →
    (cw.nb = 0 ∧ cw.off = 0 ∧ cw.rsv = 0 ∧ cw.argHi = 0 →
      ∃ t, acceptS exec cw s = .next t ∧ exec (.sDigest cw.len) s = .next t ∧
        t.finalized = true ∧ t.errUaf = s.errUaf ∧ t.errIll = s.errIll) ∧
    (¬ (cw.nb = 0 ∧ cw.off = 0 ∧ cw.rsv = 0 ∧ cw.argHi = 0) →
      acceptS exec cw s = .next { s with errIll := true })

/-- R52: the output words of n bytes. Word w holds min(8, n − 8w) of them, little-endian, with zeros above;
the last alone carries o_last; together they carry exactly the bytes, in order (R128). A full word of a
squeeze is the lane w mod 21 of block w / 21. -/
def Obligations.OutputWordsCarryTheBytes : Prop :=
  (∀ out : List Byte,
    (outWords out).length = (out.length + 7) / 8 ∧
    outputBytes (outWords out) = out ∧
    ∀ (w : Nat) (o : OutWord), (outWords out)[w]? = some o →
      o.nb = min 8 (out.length - 8 * w) ∧ 1 ≤ o.nb ∧ o.data.toNat < 2 ^ (8 * o.nb) ∧
      o.bytes = (out.drop (8 * w)).take o.nb ∧ (o.last = true ↔ 8 * w + o.nb = out.length)) ∧
  (∀ (A : Lanes) (n w : Nat) (o : OutWord),
    (outWords ((List.range n).map fun j => stByte (keccakFTimes (j / 168) A) (j % 168)))[w]? = some o →
    8 * w + 8 ≤ n → some o.data = (keccakFTimes (w / 21) A)[w % 21]?)

/-- R108: with absorbed = 167 the two padding bytes fall together as 0x9F; otherwise they are the two bytes
`absorbed` and 167. -/
def Obligations.PaddingBytes : Prop :=
  ∀ (s : State) (c : Nat), c < 200 →
    (s.absorbed.val = 167 →
      stByte s.padS.S c = if c = 167 then stByte s.S c ^^^ 0x9F#8 else stByte s.S c) ∧
    (s.absorbed.val < 167 →
      stByte s.padS.S c =
        if c = s.absorbed.val then stByte s.S c ^^^ 0x1F#8
        else if c = 167 then stByte s.S c ^^^ 0x80#8 else stByte s.S c)

/-- R114: S.ERRCLR clears both error flags and changes nothing else, so err_o falls; a word with OP = 4 and
any other bit set is illegal and sets ERR_ILL. -/
def Obligations.SErrclrClearsErrorFlags : Prop :=
  (∀ s : State, exec .sErrclr s = .next { s with errUaf := false, errIll := false }) ∧
  (∀ (s t : State), exec .sErrclr s = .next t → t.errO = false) ∧
  (∀ (cw : CommandWord) (s : State), cw.op = 4 →
    acceptS exec cw s =
      if cw = CommandWord.ofGroups 0 0 4 then exec .sErrclr s else .next { s with errIll := true })

/-- R115, R116, R131: a rejected S.ABSORB, of any length, only sets ERR_UAF, and a later S.DIGEST does what
it would have done without it. -/
def Obligations.RejectedAbsorbIsNotFatal : Prop :=
  ∀ (nb : BitVec 4) (data : BitVec 64) (len : BitVec 32) (s : State),
    nb.toNat ≤ 8 → s.finalized = true →
    ∃ t u v, exec (.sAbsorb nb data) s = .next t ∧ t = { s with errUaf := true } ∧
      exec (.sDigest len) t = .next u ∧ exec (.sDigest len) s = .next v ∧
      u = { v with errUaf := true }

/-- R117: splitting a message into S.ABSORB commands in any way gives the same S and `absorbed`; and from a
fresh context, S.ABSORB commands that carry M and then S.DIGEST n give the bytes of HASH M, n. -/
def Obligations.StreamingEquivalence : Prop :=
  (∀ (cs ds : List (BitVec 4 × BitVec 64)) (s : State),
    (∀ c ∈ cs, c.1.toNat ≤ 8) → (∀ d ∈ ds, d.1.toNat ≤ 8) → s.finalized = false →
    (cs.flatMap fun c => dataBytes c.1.toNat c.2) = (ds.flatMap fun d => dataBytes d.1.toNat d.2) →
    ∃ t u, runCommands (cs.map fun c => .sAbsorb c.1 c.2) s = .next t ∧
      runCommands (ds.map fun d => .sAbsorb d.1 d.2) s = .next u ∧
      t.S = u.S ∧ t.absorbed = u.absorbed) ∧
  (∀ (cs : List (BitVec 4 × BitVec 64)) (n : BitVec 32) (s : State),
    (∀ c ∈ cs, c.1.toNat ≤ 8) → s.S = Lanes.zero → s.absorbed = 0 → s.finalized = false → s.oq = [] →
    ∃ t u, runCommands ((cs.map fun c => Instr.sAbsorb c.1 c.2) ++ [.sDigest n]) s = .next t ∧
      runCommands (hashCommands (cs.flatMap fun c => dataBytes c.1.toNat c.2) n) s = .next u ∧
      outputBytes (t.taken.drop s.taken.length) = outputBytes (u.taken.drop s.taken.length))

/-- R119: after any S.DIGEST, and any S-port commands but S.RESET, a second S.DIGEST that is not shorter
gives output whose first bytes are the output of the first. -/
def Obligations.RepeatedDigestIsIdempotent : Prop :=
  ∀ (n₁ n₂ : BitVec 32) (s : State) (is : List Instr), s.oq = [] → n₁.toNat ≤ n₂.toNat →
    (∀ i ∈ is, i.port = .sponge ∧ i ≠ .sReset) →
    ∃ t u v, exec (.sDigest n₁) s = .next t ∧ runCommands is t.settle = .next u ∧
      exec (.sDigest n₂) u = .next v ∧ v.S = t.S ∧
      outputBytes t.oq = (outputBytes v.oq).take n₁.toNat

/-- R120: the first n₁ bytes of hash(M, n₂) are hash(M, n₁). -/
def Obligations.ShorterHashIsPrefix : Prop :=
  ∀ (M : List Byte) (n₁ n₂ : BitVec 32) (s : State), s.oq = [] → n₁.toNat ≤ n₂.toNat →
    ∃ t u, runCommands (hashCommands M n₁) s = .next t ∧ runCommands (hashCommands M n₂) s = .next u ∧
      outputBytes (t.taken.drop s.taken.length) =
        (outputBytes (u.taken.drop s.taken.length)).take n₁.toNat

/-- R124: from a fresh context, S.ABSORB commands that carry M and then S.DIGEST n give SHAKE128(M, n).
SHAKE128 is Machine/Reference.lean's, whose message padding is PRESUMED (log entry 7). -/
def Obligations.DigestIsShake128OfMessage : Prop :=
  ∀ (cs : List (BitVec 4 × BitVec 64)) (n : BitVec 32) (s : State),
    (∀ c ∈ cs, c.1.toNat ≤ 8) → s.S = Lanes.zero → s.absorbed = 0 → s.finalized = false → s.oq = [] →
    ∃ t, runCommands ((cs.map fun c => Instr.sAbsorb c.1 c.2) ++ [.sDigest n]) s = .next t ∧
      outputBytes (t.taken.drop s.taken.length) =
        shake128 (cs.flatMap fun c => dataBytes c.1.toNat c.2) n.toNat

/-- R57: UPDATE bytes absorbs the bytes in order; HASH is S.RESET, UPDATE, S.DIGEST. -/
def Obligations.UpdateAbsorbsItsBytes : Prop :=
  ∀ (bytes : List Byte) (s : State),
    (s.finalized = false →
      ∃ t, runCommands (updateCommands bytes) s = .next t ∧
        t.S = (s.absorbBytes bytes).S ∧ t.absorbed = (s.absorbBytes bytes).absorbed) ∧
    (s.finalized = true →
      ∃ t, runCommands (updateCommands bytes) s = .next t ∧ t.S = s.S ∧ t.errUaf = true)

/-! ### Engine commands -/

/-- R83: E.RESET zeroes S and responds OK, and changes nothing else. A word with OP = 8 and any other bit
set is illegal. `f` is the model's record of E-port faults, no state of the block (PortFaultsAreNeverCleared
says what it holds). -/
def Obligations.EResetZeroesState : Prop :=
  (∀ s : State, exec .eReset s =
    .next { s with S := Lanes.zero, rsp := some { code := .ok, data := 0 } }) ∧
  (∀ b, stByte Lanes.zero b = 0) ∧
  (∀ (cw : CommandWord) (s : State), cw.op = 8 →
    if cw = CommandWord.ofGroups 0 0 8 then acceptE exec cw s = exec .eReset s
    else ∃ f : PortFaults, acceptE exec cw s =
      .next { s with rsp := some { code := .illegalCommand, data := 0 }, portFaults := f })

/-- R84, R88: E.XORB XORs the low 8 bits of the value into the byte at `off` and no other, for off < 200;
for off ≥ 200 it responds EngineRange and S keeps every byte. `f` is the model's record of E-port faults, no
state of the block (PortFaultsAreNeverCleared says what it holds). -/
def Obligations.EXorbChangesOneByte : Prop :=
  (∀ (off : BitVec 8) (value : BitVec 64) (s : State), off.toNat < 200 →
    ∃ A : Lanes,
      (∀ c, c < 200 → stByte A c =
        if c = off.toNat then stByte s.S c ^^^ value.setWidth 8 else stByte s.S c) ∧
      exec (.eXorb off value) s =
        .next { s with S := A, rsp := some { code := .ok, data := 0 } }) ∧
  (∀ (off : BitVec 8) (value : BitVec 64) (s : State), 200 ≤ off.toNat →
    ∃ f : PortFaults, exec (.eXorb off value) s =
      .next { s with rsp := some { code := .engineRange, data := 0 }, portFaults := f }) ∧
  (∀ (cw : CommandWord) (s : State), cw.op = 9 →
    if cw.nb = 0 ∧ cw.rsv = 0 then acceptE exec cw s = exec (.eXorb cw.off cw.data) s
    else ∃ f : PortFaults, acceptE exec cw s =
      .next { s with rsp := some { code := .illegalCommand, data := 0 }, portFaults := f })

/-- R85, R88: E.XOR XORs data bytes 0..nb−1 into the bytes off … off+nb−1 and no others, if they all exist;
otherwise it changes no byte at all. `f` is the model's record of E-port faults, no state of the block
(PortFaultsAreNeverCleared says what it holds). -/
def Obligations.EXorIsAllOrNothing : Prop :=
  (∀ (off : BitVec 8) (nb : BitVec 4) (data : BitVec 64) (s : State),
    nb.toNat ≤ 8 → off.toNat + nb.toNat ≤ 200 →
    ∃ A : Lanes,
      (∀ c, c < 200 → stByte A c =
        if off.toNat ≤ c ∧ c < off.toNat + nb.toNat
        then stByte s.S c ^^^ byteOf data (c - off.toNat) else stByte s.S c) ∧
      exec (.eXor off nb data) s =
        .next { s with S := A, rsp := some { code := .ok, data := 0 } }) ∧
  (∀ (off : BitVec 8) (nb : BitVec 4) (data : BitVec 64) (s : State),
    nb.toNat ≤ 8 → 200 < off.toNat + nb.toNat →
    ∃ f : PortFaults, exec (.eXor off nb data) s =
      .next { s with rsp := some { code := .engineRange, data := 0 }, portFaults := f }) ∧
  (∀ (cw : CommandWord) (s : State), cw.op = 0xA →
    if cw.nb.toNat ≤ 8 ∧ cw.rsv = 0 then acceptE exec cw s = exec (.eXor cw.off cw.nb cw.data) s
    else ∃ f : PortFaults, acceptE exec cw s =
      .next { s with rsp := some { code := .illegalCommand, data := 0 }, portFaults := f })

/-- R86, R88: E.EXTRACT responds with the bytes off … off+nb−1, zeros above them, and changes no state but
the response register. `f` is the model's record of E-port faults, no state of the block
(PortFaultsAreNeverCleared says what it holds). -/
def Obligations.EExtractReadsBytes : Prop :=
  (∀ (off : BitVec 8) (nb : BitVec 4) (s : State),
    nb.toNat ≤ 8 → off.toNat + nb.toNat ≤ 200 →
    ∃ d : BitVec 64,
      (∀ k, k < 8 → byteOf d k = if k < nb.toNat then stByte s.S (off.toNat + k) else 0) ∧
      exec (.eExtract off nb) s = .next { s with rsp := some { code := .ok, data := d } }) ∧
  (∀ (off : BitVec 8) (nb : BitVec 4) (s : State),
    nb.toNat ≤ 8 → 200 < off.toNat + nb.toNat →
    ∃ f : PortFaults, exec (.eExtract off nb) s =
      .next { s with rsp := some { code := .engineRange, data := 0 }, portFaults := f }) ∧
  (∀ (cw : CommandWord) (s : State), cw.op = 0xB →
    if cw.nb.toNat ≤ 8 ∧ cw.rsv = 0 ∧ cw.data = 0 then acceptE exec cw s = exec (.eExtract cw.off cw.nb) s
    else ∃ f : PortFaults, acceptE exec cw s =
      .next { s with rsp := some { code := .illegalCommand, data := 0 }, portFaults := f })

/-- R87: E.PERMUTE replaces S by Keccak-f of S and responds OK; the scratch storage is the only other thing
that may change. `f` is the model's record of E-port faults, no state of the block
(PortFaultsAreNeverCleared says what it holds). -/
def Obligations.EPermuteAppliesKeccakF : Prop :=
  (∀ s : State, ∃ sc : Scratch,
    exec .ePermute s =
      .next { s with S := keccakF s.S, scratch := sc, rsp := some { code := .ok, data := 0 } }) ∧
  (∀ (cw : CommandWord) (s : State), cw.op = 0xC →
    if cw = CommandWord.ofGroups 0 0 0xC then acceptE exec cw s = exec .ePermute s
    else ∃ f : PortFaults, acceptE exec cw s =
      .next { s with rsp := some { code := .illegalCommand, data := 0 }, portFaults := f })

/-- R80, R90, R92: an E-port word, legal or not, leaves exactly one response and changes neither the sponge
context, nor the error flags, W or OQ, so neither STATUS nor err_o. -/
def Obligations.EnginePortLeavesSpongeContext : Prop :=
  ∀ (cw : CommandWord) (s : State),
    ∃ (A : Lanes) (sc : Scratch) (r : Response) (f : PortFaults) (t : State),
      acceptE exec cw s = .next t ∧
      t = { s with S := A, scratch := sc, rsp := some r, portFaults := f } ∧
      t.status = s.status ∧ t.errO = s.errO ∧ (r.code ≠ .ok → A = s.S ∧ r.data = 0)

/-- R136: of an accepted word legality is checked first, then the phase or the range. An illegal word, such
as one with NB above 8, gives IllegalCommand in either phase and at any offset; UpdateAfterFinalize and
EngineRange are given to legal words. `f` is the model's record of E-port faults, no state of the block
(PortFaultsAreNeverCleared says what it holds). -/
def Obligations.LegalityIsCheckedFirst : Prop :=
  (∀ (p : Port) (cw : CommandWord), 8 < cw.nb.toNat → legal p cw = false) ∧
  (∀ (cw : CommandWord) (s : State), legalS cw = false →
    acceptS exec cw s = .next { s with errIll := true }) ∧
  (∀ (cw : CommandWord) (s : State), legalS cw = true → cw.op = 2 → s.finalized = true →
    acceptS exec cw s = .next { s with errUaf := true }) ∧
  (∀ (cw : CommandWord) (s : State), legalE cw = false →
    ∃ f : PortFaults, acceptE exec cw s =
      .next { s with rsp := some { code := .illegalCommand, data := 0 }, portFaults := f }) ∧
  (∀ (cw : CommandWord) (s : State), legalE cw = true →
    (cw.op = 9 ∧ 200 ≤ cw.off.toNat) ∨
      ((cw.op = 0xA ∨ cw.op = 0xB) ∧ 200 < cw.off.toNat + cw.nb.toNat) →
    ∃ f : PortFaults, acceptE exec cw s =
      .next { s with rsp := some { code := .engineRange, data := 0 }, portFaults := f })

/-- R57: E.XORBYTES and E.EXTRACTBYTES are refused exactly when off + m > 200, and otherwise XOR, or read,
exactly the bytes off … off+m−1. -/
def Obligations.EnginePseudoCommands : Prop :=
  (∀ (off : Nat) (bytes : List Byte),
    (xorBytesCommands off bytes = none ↔ 200 < off + bytes.length) ∧
    (extractBytesCommands off bytes.length = none ↔ 200 < off + bytes.length)) ∧
  (∀ (off : Nat) (bytes : List Byte) (cs : List Instr) (s : State),
    xorBytesCommands off bytes = some cs →
    ∃ t, runCommands cs s = .next t ∧
      ∀ c, c < 200 → stByte t.S c =
        if off ≤ c ∧ c < off + bytes.length then stByte s.S c ^^^ bytes.getD (c - off) 0
        else stByte s.S c) ∧
  (∀ (off m : Nat) (cs : List Instr) (s : State), s.rsp = none →
    extractBytesCommands off m = some cs →
    ∃ t, runCommands cs s = .next t ∧ t.S = s.S ∧
      extractedBytes m (t.responses.drop s.responses.length) =
        (List.range m).map fun k => stByte s.S (off + k))

/-- R93: the first S.DIGEST of any length leaves in S what the engine commands E.XORB absorbed, 0x1F;
E.XORB 167, 0x80; E.PERMUTE leave there. -/
def Obligations.FinalizeIsEngineTraffic : Prop :=
  ∀ (len : BitVec 32) (s : State), s.finalized = false →
    ∃ t a b c, exec (.sDigest len) s = .next t ∧
      exec (.eXorb (BitVec.ofNat 8 s.absorbed.val) 0x1F) s = .next a ∧
      exec (.eXorb 167 0x80) a = .next b ∧ exec .ePermute b = .next c ∧ t.S = c.S

/-! ### The ports and the clock edge -/

/-- R52, R53, R54, R157: the ready and valid signals, all 0 while rst_n = 0, and what a presented word and a
held response show on the wires. That STATUS and err_o show the state before the edge also while rst_n = 0
is the model's reading (DEDUCED, log entry 24). -/
def Obligations.PortsShowQueueAndResponse : Prop :=
  ∀ (s : State) (inp : Inputs),
    (s.outputs inp).sReady = (inp.rstN && !s.busy) ∧
    (s.outputs inp).status = s.status ∧ (s.outputs inp).errO = s.errO ∧
    ((s.outputs inp).oValid = true ↔ inp.rstN = true ∧ s.oq ≠ []) ∧
    (∀ w ws, inp.rstN = true → s.oq = w :: ws →
      (s.outputs inp).oData = w.data ∧ (s.outputs inp).oNb = BitVec.ofNat 4 w.nb ∧
      (s.outputs inp).oLast = w.last) ∧
    (s.build.engineTestPort = false → (s.outputs inp).engine = none) ∧
    (s.build.engineTestPort = true → ∃ e, (s.outputs inp).engine = some e ∧
      e.eReady = (inp.rstN && !s.busy && s.rsp.isNone && !inp.sValid) ∧
      e.eRspValid = (inp.rstN && s.rsp.isSome) ∧
      ∀ r, inp.rstN = true → s.rsp = some r → e.eRspCode = r.code.bits ∧ e.eRspData = r.data)

/-- R100, R101, R156: a step with a word presented on the S-port of an idle block. If the word decodes to a
command, the step is `exec` of it, at the state after the edge's own part: the inputs of the edge used up,
the clock counted, the word recorded as accepted (log entry 21), and a held response handed over if the
requester takes it (R43, R80). If it does not decode, ERR_ILL is set there and nothing else. A step with
nothing presented on either port has the edge's own part alone, and an edge that the environment does not
drive at all only counts the clock (log entry 9). -/
def Obligations.StepRunsSPortCommand : Prop :=
  ∀ s : State, s.idleBlock →
    (s.inputs = [] → step s = .next { s with freeCtr := s.freeCtr + 1 }) ∧
    (∀ (inp : Inputs) (rest : List Inputs), s.inputs = inp :: rest → inp.rstN = true →
      let takes := s.build.engineTestPort && inp.eRspReady
      let t : State := { s with
        inputs := rest
        freeCtr := s.freeCtr + 1
        rsp := if takes then none else s.rsp
        responses := s.responses ++ (if takes then s.rsp.toList else []) }
      let u : State := { t with accepted := s.accepted ++ [(.sponge, inp.sCw)] }
      (inp.sValid = true →
        (∀ i, decodeS inp.sCw = .ok i → step s = exec i u) ∧
        (∀ e, decodeS inp.sCw = .error e → step s = .next { u with errIll := true })) ∧
      (inp.sValid = false → inp.eValid = false → step s = .next t))

/-- R80, R81, R156, R157: the same on the E-port, while the S-port presents nothing. Where the block has an
E-port and no response is held, the word is accepted; where it has none, or a response is held, also one
that is taken on this very edge (log entry 20), the word is not accepted, and the step has the edge's own
part alone. The word and the record of an illegal one are recorded as log entries 21 and 5 say. -/
def Obligations.StepRunsEPortCommand : Prop :=
  ∀ (s : State) (inp : Inputs) (rest : List Inputs), s.inputs = inp :: rest → s.idleBlock →
    inp.rstN = true → inp.sValid = false → inp.eValid = true →
    (s.rsp = none → s.build.engineTestPort = true →
      let u : State := { s with
        inputs := rest
        freeCtr := s.freeCtr + 1
        accepted := s.accepted ++ [(.engine, inp.eCw)] }
      (∀ i, decodeE inp.eCw = .ok i → step s = exec i u) ∧
      (∀ e, decodeE inp.eCw = .error e →
        step s = .next { u with
          rsp := some { code := .illegalCommand, data := 0 }
          portFaults := { s.portFaults with illegal := true } })) ∧
    (s.rsp ≠ none ∨ s.build.engineTestPort = false →
      let takes := s.build.engineTestPort && inp.eRspReady
      step s = .next { s with
        inputs := rest
        freeCtr := s.freeCtr + 1
        rsp := if takes then none else s.rsp
        responses := s.responses ++ (if takes then s.rsp.toList else []) })

/-- The host's placing of a word: the next step after `withFetchWord` runs the command that the word
decodes to, from every state. -/
def Obligations.PlacedWordRunsNext : Prop :=
  ∀ (s : State) (w : Nat) (i : Instr), w < 2 ^ 96 → decodeTableWord 96 w = some i →
    ∃ t u, step (s.withFetchWord 96 w) = .next t ∧ exec i u = .next t ∧
      u.S = s.S ∧ u.absorbed = s.absorbed ∧ u.finalized = s.finalized ∧ u.errUaf = s.errUaf ∧
      u.errIll = s.errIll

/-- R100, R111, R128, R43, R80: while an S.DIGEST hands out its words, no command is accepted whatever the
ports present; each transfer takes the first word of OQ, and the block is idle when the last is taken; a
held response is handed over, and its register emptied, on an edge on which the requester takes it. That
the micro-state is SQZ_OUT until the last word is taken is the model's (log entry 18). -/
def Obligations.OutputWordsLeaveInOrder : Prop :=
  ∀ (s : State) (inp : Inputs) (w : OutWord) (ws : List OutWord),
    s.micro = .sqzOut → s.latch = Latch.empty → s.oq = w :: ws → inp.rstN = true →
    let takes := s.build.engineTestPort && inp.eRspReady
    let t : State := { s with
      freeCtr := s.freeCtr + 1
      rsp := if takes then none else s.rsp
      responses := s.responses ++ (if takes then s.rsp.toList else []) }
    (inp.oReady = true →
      s.edge exec inp = .next { t with
        oq := ws
        taken := s.taken ++ [w]
        micro := if ws = [] then .idle else .sqzOut }) ∧
    (inp.oReady = false → s.edge exec inp = .next t)

/-- R159: a host that never takes the words hangs the block: through any number of edges without rst_n and
without o_ready, BUSY stays 1 and nothing of the block but the response register changes. -/
def Obligations.UntakenOutputHangsBlock : Prop :=
  ∀ (ins : List Inputs) (s : State), s.micro = .sqzOut → s.latch = Latch.empty → s.oq ≠ [] →
    (∀ inp ∈ ins, inp.rstN = true ∧ inp.oReady = false) →
    ∃ t r l, s.edges exec ins = .next t ∧ t.busy = true ∧
      t = { s with rsp := r, responses := l, freeCtr := s.freeCtr + ins.length }

/-- R166: a host that takes every word ends the hand-over: after as many edges with o_ready as there are
words, all are taken in order and the block is idle. The edges are those of the transaction-level machine
(R118), in which the words do not stall; the block may take more of them (R111; DEDUCED, log entry 1). -/
def Obligations.TakingAllWordsCompletesDigest : Prop :=
  ∀ (s : State), s.micro = .sqzOut → s.latch = Latch.empty → s.oq ≠ [] →
    s.edges exec (List.replicate s.oq.length { Inputs.quiet with oReady := true }) =
      .next { s with
        oq := []
        taken := s.taken ++ s.oq
        micro := .idle
        freeCtr := s.freeCtr + s.oq.length }

/-- R91, R157: with a word on both ports of an idle block the S-port's is accepted, and recorded (log entry
21); and while s_valid stays 1, or a response stays held (not taken, and with no rst_n and no S.RESET, which
might discard it, log entry 25), or the block has no test port, what the E-port presents has no effect. -/
def Obligations.EPortWaits : Prop :=
  (∀ (s : State) (inp : Inputs), s.idleBlock → inp.rstN = true → inp.sValid = true →
    let takes := s.build.engineTestPort && inp.eRspReady
    s.edge exec inp = acceptS exec inp.sCw { s with
      freeCtr := s.freeCtr + 1
      accepted := s.accepted ++ [(.sponge, inp.sCw)]
      rsp := if takes then none else s.rsp
      responses := s.responses ++ (if takes then s.rsp.toList else []) }) ∧
  (∀ (ins : List Inputs) (s : State),
    (∀ inp ∈ ins, inp.sValid = true) ∨ s.build.engineTestPort = false ∨
      (s.rsp ≠ none ∧ ∀ inp ∈ ins, inp.eRspReady = false ∧ inp.rstN = true ∧
        (inp.sValid = true → decodeS inp.sCw ≠ .ok .sReset)) →
    s.edges exec ins = s.edges exec (ins.map fun inp => { inp with eValid := false }))

/-- R150, R151: an edge with rst_n = 0 gives the reset values whatever was in progress, in both machines;
untaken words and a held response are gone; the ready and valid outputs are 0. That nothing is left latched
rests on log entry 15 (DEDUCED), that the record of E-port faults stays on log entry 5 (DESIGN CHOICE), and
that the records of the run, what was taken before the reset among them, become a past run, with a new run
starting, on log entry 21 (DESIGN CHOICE). -/
def Obligations.RstEdgeResetsBlock : Prop :=
  ∀ (s : State) (inp : Inputs), inp.rstN = false →
    (∃ t, s.edge exec inp = .next t ∧ s.edge beginCommand inp = .next t ∧
      t.S = Lanes.zero ∧ t.absorbed = 0 ∧ t.finalized = false ∧ t.squeezeOff = 0 ∧
      t.errUaf = false ∧ t.errIll = false ∧ t.busy = false ∧ t.rnd = 0 ∧ t.micro = .idle ∧
      t.latch = Latch.empty ∧ t.oq = [] ∧ t.rsp = none ∧
      t.build = s.build ∧ t.inputs = s.inputs ∧ t.portFaults = s.portFaults ∧
      t.accepted = [] ∧ t.taken = [] ∧ t.responses = [] ∧
      t.pastRuns = s.pastRuns ++
        [{ accepted := s.accepted, taken := s.taken, responses := s.responses }]) ∧
    (s.outputs inp).sReady = false ∧ (s.outputs inp).oValid = false ∧
    (∀ e, (s.outputs inp).engine = some e → e.eReady = false ∧ e.eRspValid = false)

/-- R29: the values after rst_n that the spec gives, in every build. -/
def Obligations.ResetValues : Prop :=
  (∀ build : Build,
    let s := State.resetOf build
    (∀ i : Fin 25, s.S[i] = 0) ∧ s.absorbed = 0 ∧ s.finalized = false ∧ s.squeezeOff = 0 ∧
      s.errUaf = false ∧ s.errIll = false ∧ s.busy = false ∧ s.rnd = 0 ∧ s.micro = .idle ∧
      s.oq = [] ∧ s.rsp = none ∧ s.status = 0 ∧ s.errO = false) ∧
  State.reset = State.resetOf { unroll := .one, engineTestPort := false }

/-- R121, R152: from an idle block S.RESET reaches what rst_n reaches, but for W and the scratch storage, and
for a held E-port response, which R80 holds until it is taken: it is discarded as by rst_n or it stays, by a
free value (DESIGN CHOICE, log entry 25). It does not end the run, so the environment's records stay (log
entry 21). -/
def Obligations.SResetEqualsRst : Prop :=
  ∀ s : State, s.idleBlock →
    ∃ r : Option Response, (r = s.rsp ∨ r = none) ∧
      exec .sReset s = .next { s.rstEdge with
        W := s.W
        scratch := s.scratch
        rsp := r
        accepted := s.accepted
        taken := s.taken
        responses := s.responses
        pastRuns := s.pastRuns }

/-- R20, R141: the error flags are sticky. Only an accepted S.ABSORB in the Squeezable phase sets ERR_UAF,
only an accepted illegal word sets ERR_ILL, and only S.ERRCLR, S.RESET and rst_n clear them. -/
def Obligations.ErrorFlagsAreSticky : Prop :=
  ∀ (s t : State) (inp : Inputs), s.edge exec inp = .next t →
    let accepted := inp.rstN = true ∧ s.busy = false ∧ inp.sValid = true
    let clearing := inp.rstN = false ∨
      (accepted ∧ (decodeS inp.sCw = .ok .sErrclr ∨ decodeS inp.sCw = .ok .sReset))
    (s.errUaf = true → t.errUaf = false → clearing) ∧
    (s.errIll = true → t.errIll = false → clearing) ∧
    (s.errUaf = false → t.errUaf = true →
      accepted ∧ s.finalized = true ∧ ∃ nb data, decodeS inp.sCw = .ok (.sAbsorb nb data)) ∧
    (s.errIll = false → t.errIll = true → accepted ∧ legalS inp.sCw = false)

/-- R16, R102: between commands the phase becomes Squeezable only by an accepted S.DIGEST, and Absorbing
only by S.RESET or rst_n. -/
def Obligations.PhaseTransitions : Prop :=
  ∀ (s t : State) (inp : Inputs), s.atBoundary = true → s.edge exec inp = .next t →
    let accepted := inp.rstN = true ∧ s.busy = false ∧ inp.sValid = true
    (s.finalized = false → t.finalized = true →
      accepted ∧ ∃ len, decodeS inp.sCw = .ok (.sDigest len)) ∧
    (s.finalized = true → t.finalized = false →
      inp.rstN = false ∨ (accepted ∧ decodeS inp.sCw = .ok .sReset))

/-- R24, R138: STATUS. Bit 0 is BUSY and the reserved bits are 0 always; with BUSY = 0 the fields are the
state's, ABSORBED at most 167 and SQOFF at most 168; err_o is the OR of the flags. -/
def Obligations.StatusShowsState : Prop :=
  ∀ s : State,
    s.status.getLsbD 0 = s.busy ∧ s.status.extractLsb' 4 4 = 0 ∧ s.status.extractLsb' 24 8 = 0 ∧
    s.errO = (s.errUaf || s.errIll) ∧
    (s.busy = false →
      s.status.getLsbD 1 = s.finalized ∧ s.status.getLsbD 2 = s.errUaf ∧
      s.status.getLsbD 3 = s.errIll ∧
      (s.status.extractLsb' 8 8).toNat = s.absorbed.val ∧
      (s.status.extractLsb' 16 8).toNat = s.squeezeOff.val ∧
      (s.status.extractLsb' 8 8).toNat ≤ 167 ∧ (s.status.extractLsb' 16 8).toNat ≤ 168)

/-- R28: no step of either machine changes the build parameters. -/
def Obligations.BuildParametersAreFixed : Prop :=
  ∀ s t : State, step s = .next t ∨ cycleStep s = .next t → t.build = s.build

/-- R134: the model's record of E-port faults (log entry 5) is never cleared, and a step adds to it exactly
when it gives an E-port response with code 2 or 3. An accepted E-port word marks exactly what its response
says. -/
def Obligations.PortFaultsAreNeverCleared : Prop :=
  (∀ (s t : State) (inp : Inputs), s.edge exec inp = .next t →
    (s.portFaults.illegal = true → t.portFaults.illegal = true) ∧
    (s.portFaults.range = true → t.portFaults.range = true) ∧
    (s.portFaults.illegal = false → t.portFaults.illegal = true →
      t.rsp = some { code := .illegalCommand, data := 0 }) ∧
    (s.portFaults.range = false → t.portFaults.range = true →
      t.rsp = some { code := .engineRange, data := 0 }) ∧
    (∀ r, s.rsp = none → t.rsp = some r → s.busy = false →
      (r.code = .illegalCommand → t.portFaults.illegal = true) ∧
      (r.code = .engineRange → t.portFaults.range = true))) ∧
  (∀ (cw : CommandWord) (s t : State), acceptE exec cw s = .next t →
    ∃ r, t.rsp = some r ∧
      t.portFaults = { illegal := s.portFaults.illegal || decide (r.code = .illegalCommand),
                       range := s.portFaults.range || decide (r.code = .engineRange) })

/-- R140, R165: whatever the environment drives, the block goes on: no step of either machine faults or is
refused. -/
def Obligations.StepNeverStops : Prop :=
  ∀ s : State, (∃ t, step s = .next t) ∧ (∃ t, cycleStep s = .next t)

/-! ### Whole-machine results -/

/-- R18, R21, R25, R52, R53, R118: the invariant holds after rst_n, in every build, whatever the environment
is about to drive. -/
def Obligations.InvariantAtReset : Prop :=
  ∀ (build : Build) (ins : List Inputs),
    State.inv { State.resetOf build with inputs := ins } = true ∧ State.reset.inv = true

/-- … and every step keeps it: no half-done command, BUSY = 1 exactly while OQ is non-empty, `squeeze_off` 0
while Absorbing, the output words the rest of one S.DIGEST, no response without a test port. -/
def Obligations.StepKeepsInvariant : Prop :=
  ∀ s t : State, s.inv = true → step s = .next t → t.inv = true

/-- R13, R17, R121: between commands, what W and the scratch storage hold can never be observed: two states
that differ only there step to two states that differ only there. -/
def Obligations.WorkingStorageIsUnobservable : Prop :=
  ∀ (s : State) (W : Lanes) (sc : Scratch), s.atBoundary = true →
    ∃ (t : State) (W' : Lanes) (sc' : Scratch), step s = .next t ∧
      step { s with W := W, scratch := sc } = .next { t with W := W', scratch := sc' }

/-- R118, R155: the cycle-level machine agrees with the transaction-level one. From an idle block, once the
cycle-level machine has carried the command to IDLE, however the host stalled the O-port and for every
UNROLL, its state is the one that `exec` gives with the output words taken, in order. -/
def Obligations.CycleMachineRefinesTransaction : Prop :=
  ∀ (i : Instr) (s t u₀ u : State) (ins : List Inputs), s.idleBlock →
    exec i s = .next t → beginCommand i s = .next u₀ →
    (∀ inp ∈ ins, inp.rstN = true ∧ inp.sValid = false ∧ inp.eValid = false ∧
      inp.eRspReady = false) →
    u₀.edges beginCommand ins = .next u → u.busy = false →
    u = { t with oq := [], taken := s.taken ++ t.oq, micro := .idle,
                 freeCtr := s.freeCtr + ins.length }

/-- R163: with o_ready = 1 throughout, the cycle-level machine is busy for exactly the number of cycles of the
timing table. The table is informative and the split of S.DIGEST into cycles is the model's (log entry 6). -/
def Obligations.CycleMachineMeetsTimingTable : Prop :=
  ∀ (i : Instr) (s u₀ : State) (k : Nat), s.idleBlock → beginCommand i s = .next u₀ →
    k ≤ busyCycles s i →
    ∃ u, u₀.edges beginCommand (List.replicate k { Inputs.quiet with oReady := true }) = .next u ∧
      (u.busy = true ↔ k < busyCycles s i)

/-- R40, R43, R156, R164: each transfer of an edge is recorded once, in both machines (the records are the
model's, log entry 21). The record of the run grows by the word accepted, if one is, by the output word
taken, if one is, and by the response taken, if one is, and by nothing else. -/
def Obligations.EveryTransferIsRecordedOnce : Prop :=
  ∀ (s t : State) (inp : Inputs), inp.rstN = true →
    s.edge exec inp = .next t ∨ s.edge beginCommand inp = .next t →
    t.accepted = s.accepted ++
      (if s.busy then []
       else if inp.sValid then [(.sponge, inp.sCw)]
       else if inp.eValid ∧ s.build.engineTestPort ∧ s.rsp = none then [(.engine, inp.eCw)]
       else []) ∧
    t.taken = s.taken ++ (if inp.oReady then s.oq.head?.toList else []) ∧
    t.responses = s.responses ++
      (if s.build.engineTestPort ∧ inp.eRspReady then s.rsp.toList else []) ∧
    t.pastRuns = s.pastRuns
end

