-- ==== Sys2Proof/Laws/Bytes.lean ====
section
/-! SUPPORT. Laws of bytes: the byte addressing of a 25-lane register, little-endian packing, output words. -/

namespace Sys2Proof.Machine

/-! ### Bytes of a register (R31, R32) -/

theorem stByte_getLsbD (T : Lanes) (b z : Nat) (hz : z < 8) :
    (stByte T b).getLsbD z = (T.getD (b / 8) 0#64).getLsbD (8 * (b % 8) + z) := by
  simp [stByte, hz]

theorem getD_eq_getElem (T : Lanes) (i : Nat) (h : i < 25) : T.getD i 0#64 = T[i] := by
  simp [Vector.getD, h]

/-- An offset that does not exist is never written. -/
theorem stXorByte_of_ge (T : Lanes) (b : Nat) (v : Byte) (h : 200 ≤ b) : stXorByte T b v = T := by
  unfold stXorByte
  apply Vector.ext
  intro i hi
  rw [Vector.getElem_setIfInBounds]
  have : ¬ b / 8 = i := by omega
  simp [this]

/-- The lanes after one byte is XORed: lane b / 8 alone can change (R32). -/
theorem getD_stXorByte (T : Lanes) (b : Nat) (v : Byte) (hb : b < 200) (i : Nat) (hi : i < 25) :
    (stXorByte T b v).getD i 0#64 =
      if i = b / 8 then T.getD i 0#64 ^^^ v.setWidth 64 <<< (8 * (b % 8)) else T.getD i 0#64 := by
  rw [getD_eq_getElem _ _ hi, getD_eq_getElem _ _ hi]
  unfold stXorByte
  rw [Vector.getElem_setIfInBounds]
  have hb8 : b / 8 < 25 := by omega
  by_cases h : b / 8 = i
  · subst h; simp [getD_eq_getElem _ _ hb8]
  · have h' : ¬ i = b / 8 := fun e => h e.symm
    simp [h, h']

/-- Reading byte c after byte b is XORed with v. -/
theorem stByte_stXorByte (T : Lanes) (b c : Nat) (v : Byte) (hb : b < 200) (hc : c < 200) :
    stByte (stXorByte T b v) c = if c = b then stByte T c ^^^ v else stByte T c := by
  apply BitVec.eq_of_getLsbD_eq
  intro z hz
  rw [stByte_getLsbD _ _ _ hz, getD_stXorByte T b v hb _ (by omega)]
  by_cases hl : c / 8 = b / 8
  · rw [if_pos hl]
    by_cases hcb : c = b
    · subst hcb
      have h1 : 8 * (c % 8) + z < 64 := by omega
      rw [if_pos rfl, BitVec.getLsbD_xor, BitVec.getLsbD_xor, stByte_getLsbD _ _ _ hz]
      congr 1
      simp only [BitVec.getLsbD_shiftLeft, BitVec.getLsbD_setWidth, h1]
      simp
      omega
    · rw [if_neg hcb, stByte_getLsbD _ _ _ hz]
      simp only [BitVec.getLsbD_xor, BitVec.getLsbD_shiftLeft, BitVec.getLsbD_setWidth]
      by_cases hlt : 8 * (c % 8) + z < 8 * (b % 8)
      · simp [hlt]
      · have h2 : v.getLsbD (8 * (c % 8) + z - 8 * (b % 8)) = false :=
          BitVec.getLsbD_of_ge _ _ (by omega)
        simp [h2]
  · have hcb : ¬ c = b := by rintro rfl; exact hl rfl
    rw [if_neg hl, if_neg hcb, stByte_getLsbD _ _ _ hz]

/-- Reading byte c after the bytes vs are XORed in from b on (R33). -/
theorem stByte_stXorBytes (T : Lanes) (b : Nat) (vs : List Byte) (h : b + vs.length ≤ 200)
    (c : Nat) (hc : c < 200) :
    stByte (stXorBytes T b vs) c =
      if b ≤ c ∧ c < b + vs.length then stByte T c ^^^ vs.getD (c - b) 0#8 else stByte T c := by
  induction vs generalizing T b with
  | nil => simp only [stXorBytes, List.length_nil]; rw [if_neg (by omega)]
  | cons v vs ih =>
    simp only [List.length_cons] at h
    simp only [stXorBytes, List.length_cons]
    rw [ih _ _ (by omega), stByte_stXorByte _ _ _ _ (by omega) hc]
    by_cases hcb : c = b
    · subst hcb
      rw [if_neg (by omega), if_pos rfl, if_pos (by omega)]; simp
    · rw [if_neg hcb]
      by_cases hin : b + 1 ≤ c ∧ c < b + 1 + vs.length
      · rw [if_pos hin, if_pos (by omega)]
        have : c - b = (c - (b + 1)) + 1 := by omega
        rw [this, List.getD_cons_succ]
      · rw [if_neg hin, if_neg (by omega)]

theorem stXorBytes_append (T : Lanes) (b : Nat) (vs ws : List Byte) :
    stXorBytes T b (vs ++ ws) = stXorBytes (stXorBytes T b vs) (b + vs.length) ws := by
  induction vs generalizing T b with
  | nil => rfl
  | cons v vs ih =>
    simp only [List.cons_append, stXorBytes, List.length_cons, ih]
    rw [show b + 1 + vs.length = b + (vs.length + 1) from by omega]

/-- Two registers with the same 200 bytes are equal (R13, R30). -/
theorem lanes_ext_bytes {A B : Lanes} (h : ∀ b, b < 200 → stByte A b = stByte B b) : A = B := by
  apply Vector.ext
  intro i hi
  apply BitVec.eq_of_getLsbD_eq
  intro z hz
  have hb := h (8 * i + z / 8) (by omega)
  have := congrArg (fun v : Byte => v.getLsbD (z % 8)) hb
  simp only [stByte_getLsbD _ _ _ (show z % 8 < 8 by omega)] at this
  rw [show (8 * i + z / 8) / 8 = i from by omega,
    show 8 * ((8 * i + z / 8) % 8) + z % 8 = z from by omega,
    getD_eq_getElem _ _ hi, getD_eq_getElem _ _ hi] at this
  exact this

@[simp] theorem stByte_zero (b : Nat) : stByte Lanes.zero b = 0#8 := by
  by_cases h : b / 8 < 25
  · simp [stByte, getD_eq_getElem _ _ h, Lanes.zero]
  · have : (Lanes.zero).getD (b / 8) 0#64 = 0#64 := by simp [Vector.getD, h]
    simp [stByte, this]

/-! ### Data bytes and little-endian values (R33, R46, R52) -/

@[simp] theorem dataBytes_length (n : Nat) (v : BitVec 64) : (dataBytes n v).length = n := by
  simp [dataBytes]

theorem dataBytes_getD (n : Nat) (v : BitVec 64) (k : Nat) (h : k < n) :
    (dataBytes n v).getD k 0#8 = byteOf v k := by
  simp [dataBytes, h]

@[simp] theorem littleEndian_zero (f : Nat → Byte) : littleEndian 0 f = 0 := rfl

theorem littleEndian_succ (n : Nat) (f : Nat → Byte) :
    littleEndian (n + 1) f = littleEndian n f + (f n).setWidth 64 <<< (8 * n) := by
  simp [littleEndian, List.range_succ]

/-- Bit z of n bytes packed little-endian. -/
theorem littleEndian_getLsbD (n : Nat) (hn : n ≤ 8) (f : Nat → Byte) (z : Nat) :
    (littleEndian n f).getLsbD z = (decide (z < 8 * n) && (f (z / 8)).getLsbD (z % 8)) := by
  induction n generalizing z with
  | zero => simp
  | succ n ih =>
    have ih := fun z => ih (by omega) z
    have hdisj : littleEndian n f &&& (f n).setWidth 64 <<< (8 * n) = 0 := by
      apply BitVec.eq_of_getLsbD_eq
      intro i hi
      simp only [BitVec.getLsbD_and, ih, BitVec.getLsbD_shiftLeft]
      by_cases h : i < 8 * n <;> simp [h]
    rw [littleEndian_succ, BitVec.add_eq_or_of_and_eq_zero _ _ hdisj]
    simp only [BitVec.getLsbD_or, ih, BitVec.getLsbD_shiftLeft, BitVec.getLsbD_setWidth]
    by_cases h1 : z < 8 * n
    · have h2 : z < 8 * (n + 1) := by omega
      simp [h1, h2]
    · by_cases h2 : z < 8 * (n + 1)
      · have h3 : z / 8 = n := by omega
        have h4 : z - 8 * n = z % 8 := by omega
        have h5 : z < 64 := by omega
        have h6 : z % 8 < 64 := by omega
        simp [h1, h2, h3, h4, h5, h6]
      · have h3 : (f n).getLsbD (z - 8 * n) = false := BitVec.getLsbD_of_ge _ _ (by omega)
        simp [h1, h2, h3]

/-- Byte k of n bytes packed little-endian; 0 at and above n. -/
theorem byteOf_littleEndian (n : Nat) (hn : n ≤ 8) (f : Nat → Byte) (k : Nat) :
    byteOf (littleEndian n f) k = if k < n then f k else 0#8 := by
  apply BitVec.eq_of_getLsbD_eq
  intro z hz
  have h1 : (8 * k + z) / 8 = k := by omega
  have h2 : (8 * k + z) % 8 = z := by omega
  simp only [byteOf, BitVec.getLsbD_extractLsb', hz, decide_true, Bool.true_and,
    littleEndian_getLsbD n hn, h1, h2]
  by_cases h : k < n
  · have : 8 * k + z < 8 * n := by omega
    simp [h, this]
  · have : ¬ 8 * k + z < 8 * n := by omega
    simp [h, this]

/-- The bytes of n bytes packed little-endian are those bytes. -/
theorem dataBytes_littleEndian (n : Nat) (hn : n ≤ 8) (f : Nat → Byte) :
    dataBytes n (littleEndian n f) = (List.range n).map f := by
  unfold dataBytes
  apply List.map_congr_left
  intro k hk
  rw [byteOf_littleEndian n hn, if_pos (List.mem_range.mp hk)]

/-- Bits at and above 8n of n bytes packed little-endian are 0. -/
theorem littleEndian_lt (n : Nat) (hn : n ≤ 8) (f : Nat → Byte) :
    (littleEndian n f).toNat < 2 ^ (8 * n) := by
  by_cases h8 : n = 8
  · subst h8; simpa using (littleEndian 8 f).isLt
  · apply Nat.lt_pow_two_of_testBit
    intro i hi
    have := littleEndian_getLsbD n hn f i
    rw [BitVec.getLsbD] at this
    rw [this]
    have : ¬ i < 8 * n := by omega
    simp [this]

/-- Byte k of a read (R33, R35). -/
theorem byteOf_stRead (T : Lanes) (b n : Nat) (hn : n ≤ 8) (k : Nat) :
    byteOf (stRead T b n) k = if k < n then stByte T (b + k) else 0#8 := by
  rw [stRead, byteOf_littleEndian n hn]

/-! ### Output words (R52) -/

@[simp] theorem outWords_length (out : List Byte) :
    (outWords out).length = (out.length + 7) / 8 := by
  simp [outWords]

@[simp] theorem outWords_nil : outWords [] = [] := rfl

theorem outWord_nb_le (out : List Byte) (w : Nat) : (outWord out w).nb ≤ 8 := by
  simp only [outWord]; omega

/-- The bytes of output word w are out[8w], …: its slice of the output. -/
theorem outWord_bytes (out : List Byte) (w : Nat) :
    (outWord out w).bytes = (out.drop (8 * w)).take 8 := by
  have hnb := outWord_nb_le out w
  simp only [OutWord.bytes, outWord] at hnb ⊢
  rw [dataBytes_littleEndian _ hnb]
  apply List.ext_getElem
  · simp
  · intro i h1 h2
    simp at h1
    simp [List.getD, List.getElem?_eq_getElem (show 8 * w + i < out.length by omega)]

end Sys2Proof.Machine
end

