-- ==== Sys2Proof/Laws/Keccak.lean ====
section
/-! SUPPORT. Laws of the permutation: lanes by column and row, what each step mapping gives at a lane, the
datapath against KeccakF, and one clock cycle of the folded datapath. -/

namespace Sys2Proof.Machine

/-! ### Lanes -/

theorem columnOf_val (i : Fin 25) : (columnOf i).val = i.val % 5 := rfl

theorem rowOf_val (i : Fin 25) : (rowOf i).val = i.val / 5 := rfl

@[simp] theorem laneAt_lanesOf (f : Fin 5 → Fin 5 → Lane) (x y : Fin 5) :
    laneAt (lanesOf f) x y = f x y := by
  have hx : columnOf ⟨x.val + 5 * y.val, by omega⟩ = x := by
    apply Fin.ext; simp only [columnOf_val]; omega
  have hy : rowOf ⟨x.val + 5 * y.val, by omega⟩ = y := by
    apply Fin.ext; simp only [rowOf_val]; omega
  simp [laneAt, lanesOf, hx, hy]

/-- Two 25-lane values with the same lanes A[x,y] are equal. -/
theorem lanes_ext {A B : Lanes} (h : ∀ x y, laneAt A x y = laneAt B x y) : A = B := by
  apply Vector.ext
  intro i hi
  have := h ⟨i % 5, by omega⟩ ⟨i / 5, by omega⟩
  simpa [laneAt, Nat.mod_add_div] using this

/-! ### The step mappings at a lane -/

@[simp] theorem thetaParity_get (A : Lanes) (x : Fin 5) :
    (thetaParity A)[x] =
      laneAt A x 0 ^^^ laneAt A x 1 ^^^ laneAt A x 2 ^^^ laneAt A x 3 ^^^ laneAt A x 4 := by
  simp [thetaParity]

@[simp] theorem thetaEffect_get (C : Columns) (x : Fin 5) :
    (thetaEffect C)[x] = C[x + 4] ^^^ rotl64 C[x + 1] 1 := by
  simp [thetaEffect]

@[simp] theorem laneAt_theta (A : Lanes) (x y : Fin 5) :
    laneAt (theta A) x y = laneAt A x y ^^^ (thetaEffect (thetaParity A))[x] := by
  simp only [theta, thetaApply, laneAt_lanesOf]

@[simp] theorem rho_get (A : Lanes) (i : Fin 25) : (rho A)[i] = rotl64 A[i] rhoTable[i] := by
  simp [rho]

@[simp] theorem laneAt_chi (B : Lanes) (x y : Fin 5) :
    laneAt (chi B) x y = laneAt B x y ^^^ (~~~ laneAt B (x + 1) y &&& laneAt B (x + 2) y) := by
  simp only [chi, laneAt_lanesOf]

/-- π is injective on 0..24, so no destination is written twice (R64). -/
theorem piTable_inj : ∀ i j : Fin 25, piTable[i] = piTable[j] → i = j := by decide

theorem piTable_lt : ∀ i : Fin 25, piTable[i] < 25 := by decide

/-! ### Rotation (R60, R61) -/

@[simp] theorem rotl64_zero (x : Lane) : rotl64 x 0 = x := rfl

/-! ### The datapath computes KeccakF (R69, R70) -/

@[simp] theorem datapathRound_lanes (d : Datapath) (rd : Fin 24) :
    (datapathRound d rd).lanes = keccakRound d.lanes rd := by
  unfold datapathRound keccakRound; rfl

/-- A round overwrites C, D and B from the lanes alone (R13). -/
theorem datapathRound_scratch (d e : Datapath) (rd : Fin 24) (h : d.lanes = e.lanes) :
    datapathRound d rd = datapathRound e rd := by
  unfold datapathRound; rw [h]

theorem foldl_datapathRound_lanes (rds : List (Fin 24)) (d : Datapath) :
    (rds.foldl datapathRound d).lanes = rds.foldl keccakRound d.lanes := by
  induction rds generalizing d with
  | nil => rfl
  | cons rd rds ih => simp only [List.foldl_cons, ih, datapathRound_lanes]

/-- The datapath's lanes after a whole permutation are KeccakF of the lanes before, whatever the scratch
storage held. -/
@[simp] theorem datapathPermute_lanes (d : Datapath) :
    (datapathPermute d).lanes = keccakF d.lanes := by
  unfold datapathPermute keccakF; exact foldl_datapathRound_lanes _ _

/-- A permutation leaves nothing of the scratch storage's old contents (R13). -/
theorem datapathPermute_scratch (d e : Datapath) (h : d.lanes = e.lanes) :
    datapathPermute d = datapathPermute e := by
  unfold datapathPermute
  simp only [roundIndices, List.foldl_cons, datapathRound_scratch d e 0 h]

/-! ### The folded datapath (R72) -/

/-- One clock cycle leaves nothing of the scratch storage's old contents (R13). -/
theorem datapathClock_scratch (u : Unroll) (rnd : Fin 24) (d e : Datapath)
    (h : d.lanes = e.lanes) : datapathClock u rnd d = datapathClock u rnd e := by
  unfold datapathClock
  have hne : roundsOfClock u rnd ≠ [] := by
    cases u <;> (revert rnd; decide)
  match roundsOfClock u rnd, hne with
  | rd :: rds, _ => simp only [List.foldl_cons, datapathRound_scratch d e rd h]

/-- k applications of KeccakF, the last one outermost. -/
theorem keccakFTimes_succ' (k : Nat) (A : Lanes) :
    keccakFTimes (k + 1) A = keccakF (keccakFTimes k A) := by
  induction k generalizing A with
  | zero => rfl
  | succ k ih => simp only [keccakFTimes] at ih ⊢; exact ih _

theorem datapathClocks_succ' (u : Unroll) (k : Nat) (p : Datapath × Fin 24) :
    datapathClocks u (k + 1) p =
      (datapathClock u (datapathClocks u k p).2 (datapathClocks u k p).1,
        nextRnd u (datapathClocks u k p).2) := by
  induction k generalizing p with
  | zero => rfl
  | succ k ih => rw [datapathClocks, ih]; rfl

theorem permuteCycles_mul (u : Unroll) : permuteCycles u * u.rounds = 24 := by cases u <;> rfl

theorem rounds_pos (u : Unroll) : 0 < u.rounds := by cases u <;> decide

/-- What a permutation in progress still has to do, from the round `rnd` on. -/
def datapathRest (rnd : Fin 24) (d : Datapath) : Datapath :=
  (roundIndices.drop rnd.val).foldl datapathRound d

theorem datapathRest_zero (d : Datapath) : datapathRest 0 d = datapathPermute d := by
  unfold datapathPermute; rfl

/-- A clock cycle before the last leaves the rest of the permutation to do. -/
theorem datapathRest_clock (u : Unroll) (rnd : Fin 24) (d : Datapath)
    (h : lastClock u rnd = false) :
    datapathRest (nextRnd u rnd) (datapathClock u rnd d) = datapathRest rnd d := by
  simp only [lastClock, decide_eq_false_iff_not] at h
  unfold datapathRest datapathClock
  simp only [nextRnd, roundsOfClock]
  rw [dif_pos (by omega), ← List.foldl_append]
  have : List.take u.rounds (List.drop rnd.val roundIndices) ++
      List.drop (rnd.val + u.rounds) roundIndices = List.drop rnd.val roundIndices := by
    rw [← List.drop_drop, List.take_append_drop]
  rw [this]

/-- The last clock cycle does all that is left, and `rnd` is 0 again. -/
theorem datapathRest_last (u : Unroll) (rnd : Fin 24) (d : Datapath) (h : lastClock u rnd = true) :
    datapathClock u rnd d = datapathRest rnd d ∧ nextRnd u rnd = 0 := by
  simp only [lastClock, decide_eq_true_eq] at h
  unfold datapathRest datapathClock
  simp only [nextRnd, roundsOfClock]
  rw [dif_neg (by omega)]
  have : (List.drop rnd.val roundIndices).length ≤ u.rounds := by
    simp only [List.length_drop, roundIndices, List.length_cons, List.length_nil]
    omega
  rw [List.take_of_length_le this]
  exact ⟨rfl, rfl⟩

/-- The first k clock cycles of a permutation do its first k · UNROLL rounds. -/
theorem datapathClocks_prefix (u : Unroll) (d : Datapath) (k : Nat) (hk : k < permuteCycles u) :
    ∃ h, datapathClocks u k (d, 0) =
      ((roundIndices.take (k * u.rounds)).foldl datapathRound d, ⟨k * u.rounds, h⟩) := by
  have h24 := permuteCycles_mul u
  have hlt : k * u.rounds < 24 := by
    have := Nat.mul_lt_mul_of_lt_of_le hk (Nat.le_refl u.rounds) (rounds_pos u)
    omega
  refine ⟨hlt, ?_⟩
  induction k with
  | zero => simp [datapathClocks]
  | succ k ih =>
    have hs : (k + 1) * u.rounds = k * u.rounds + u.rounds := by rw [Nat.succ_mul]
    rw [datapathClocks_succ', ih (by omega) (by omega)]
    unfold datapathClock
    simp only [roundsOfClock, nextRnd, hs]
    rw [← List.foldl_append, dif_pos (by omega), ← List.take_add]

end Sys2Proof.Machine
end

