-- ==== Sys2Proof/Laws/State.lean ====
section
/-! SUPPORT. One lemma for each field of State under each shared update, and the errors as updates. -/

namespace Sys2Proof.Machine

/-! ### State.permuteS -/

@[simp] theorem State.permuteS_build (s : State) : s.permuteS.build = s.build := rfl
@[simp] theorem State.permuteS_S (s : State) : s.permuteS.S = keccakF s.S := datapathPermute_lanes _
@[simp] theorem State.permuteS_W (s : State) : s.permuteS.W = s.W := rfl
@[simp] theorem State.permuteS_absorbed (s : State) : s.permuteS.absorbed = s.absorbed := rfl
@[simp] theorem State.permuteS_finalized (s : State) : s.permuteS.finalized = s.finalized := rfl
@[simp] theorem State.permuteS_squeezeOff (s : State) : s.permuteS.squeezeOff = s.squeezeOff := rfl
@[simp] theorem State.permuteS_errUaf (s : State) : s.permuteS.errUaf = s.errUaf := rfl
@[simp] theorem State.permuteS_errIll (s : State) : s.permuteS.errIll = s.errIll := rfl
@[simp] theorem State.permuteS_micro (s : State) : s.permuteS.micro = s.micro := rfl
@[simp] theorem State.permuteS_rnd (s : State) : s.permuteS.rnd = s.rnd := rfl
@[simp] theorem State.permuteS_latch (s : State) : s.permuteS.latch = s.latch := rfl
@[simp] theorem State.permuteS_oq (s : State) : s.permuteS.oq = s.oq := rfl
@[simp] theorem State.permuteS_rsp (s : State) : s.permuteS.rsp = s.rsp := rfl
@[simp] theorem State.permuteS_inputs (s : State) : s.permuteS.inputs = s.inputs := rfl
@[simp] theorem State.permuteS_taken (s : State) : s.permuteS.taken = s.taken := rfl
@[simp] theorem State.permuteS_accepted (s : State) : s.permuteS.accepted = s.accepted := rfl
@[simp] theorem State.permuteS_responses (s : State) : s.permuteS.responses = s.responses := rfl
@[simp] theorem State.permuteS_pastRuns (s : State) : s.permuteS.pastRuns = s.pastRuns := rfl
@[simp] theorem State.permuteS_portFaults (s : State) : s.permuteS.portFaults = s.portFaults := rfl
@[simp] theorem State.permuteS_freeCtr (s : State) : s.permuteS.freeCtr = s.freeCtr := rfl

/-! ### State.permuteW -/

@[simp] theorem State.permuteW_build (s : State) : s.permuteW.build = s.build := rfl
@[simp] theorem State.permuteW_S (s : State) : s.permuteW.S = s.S := rfl
@[simp] theorem State.permuteW_W (s : State) : s.permuteW.W = keccakF s.W := datapathPermute_lanes _
@[simp] theorem State.permuteW_absorbed (s : State) : s.permuteW.absorbed = s.absorbed := rfl
@[simp] theorem State.permuteW_finalized (s : State) : s.permuteW.finalized = s.finalized := rfl
@[simp] theorem State.permuteW_squeezeOff (s : State) : s.permuteW.squeezeOff = s.squeezeOff := rfl
@[simp] theorem State.permuteW_errUaf (s : State) : s.permuteW.errUaf = s.errUaf := rfl
@[simp] theorem State.permuteW_errIll (s : State) : s.permuteW.errIll = s.errIll := rfl
@[simp] theorem State.permuteW_micro (s : State) : s.permuteW.micro = s.micro := rfl
@[simp] theorem State.permuteW_rnd (s : State) : s.permuteW.rnd = s.rnd := rfl
@[simp] theorem State.permuteW_latch (s : State) : s.permuteW.latch = s.latch := rfl
@[simp] theorem State.permuteW_oq (s : State) : s.permuteW.oq = s.oq := rfl
@[simp] theorem State.permuteW_rsp (s : State) : s.permuteW.rsp = s.rsp := rfl
@[simp] theorem State.permuteW_inputs (s : State) : s.permuteW.inputs = s.inputs := rfl
@[simp] theorem State.permuteW_taken (s : State) : s.permuteW.taken = s.taken := rfl
@[simp] theorem State.permuteW_accepted (s : State) : s.permuteW.accepted = s.accepted := rfl
@[simp] theorem State.permuteW_responses (s : State) : s.permuteW.responses = s.responses := rfl
@[simp] theorem State.permuteW_pastRuns (s : State) : s.permuteW.pastRuns = s.pastRuns := rfl
@[simp] theorem State.permuteW_portFaults (s : State) : s.permuteW.portFaults = s.portFaults := rfl
@[simp] theorem State.permuteW_freeCtr (s : State) : s.permuteW.freeCtr = s.freeCtr := rfl

/-! ### State.padS -/

@[simp] theorem State.padS_build (s : State) : s.padS.build = s.build := rfl
@[simp] theorem State.padS_S (s : State) : s.padS.S = stXorByte (stXorByte s.S s.absorbed.val 0x1F#8) 167 0x80#8 := rfl
@[simp] theorem State.padS_W (s : State) : s.padS.W = s.W := rfl
@[simp] theorem State.padS_scratch (s : State) : s.padS.scratch = s.scratch := rfl
@[simp] theorem State.padS_absorbed (s : State) : s.padS.absorbed = s.absorbed := rfl
@[simp] theorem State.padS_finalized (s : State) : s.padS.finalized = s.finalized := rfl
@[simp] theorem State.padS_squeezeOff (s : State) : s.padS.squeezeOff = s.squeezeOff := rfl
@[simp] theorem State.padS_errUaf (s : State) : s.padS.errUaf = s.errUaf := rfl
@[simp] theorem State.padS_errIll (s : State) : s.padS.errIll = s.errIll := rfl
@[simp] theorem State.padS_micro (s : State) : s.padS.micro = s.micro := rfl
@[simp] theorem State.padS_rnd (s : State) : s.padS.rnd = s.rnd := rfl
@[simp] theorem State.padS_latch (s : State) : s.padS.latch = s.latch := rfl
@[simp] theorem State.padS_oq (s : State) : s.padS.oq = s.oq := rfl
@[simp] theorem State.padS_rsp (s : State) : s.padS.rsp = s.rsp := rfl
@[simp] theorem State.padS_inputs (s : State) : s.padS.inputs = s.inputs := rfl
@[simp] theorem State.padS_taken (s : State) : s.padS.taken = s.taken := rfl
@[simp] theorem State.padS_accepted (s : State) : s.padS.accepted = s.accepted := rfl
@[simp] theorem State.padS_responses (s : State) : s.padS.responses = s.responses := rfl
@[simp] theorem State.padS_pastRuns (s : State) : s.padS.pastRuns = s.pastRuns := rfl
@[simp] theorem State.padS_portFaults (s : State) : s.padS.portFaults = s.portFaults := rfl
@[simp] theorem State.padS_freeCtr (s : State) : s.padS.freeCtr = s.freeCtr := rfl

/-! ### State.loadW -/

@[simp] theorem State.loadW_build (s : State) : s.loadW.build = s.build := rfl
@[simp] theorem State.loadW_S (s : State) : s.loadW.S = s.S := rfl
@[simp] theorem State.loadW_W (s : State) : s.loadW.W = s.S := rfl
@[simp] theorem State.loadW_scratch (s : State) : s.loadW.scratch = s.scratch := rfl
@[simp] theorem State.loadW_absorbed (s : State) : s.loadW.absorbed = s.absorbed := rfl
@[simp] theorem State.loadW_finalized (s : State) : s.loadW.finalized = s.finalized := rfl
@[simp] theorem State.loadW_squeezeOff (s : State) : s.loadW.squeezeOff = 0 := rfl
@[simp] theorem State.loadW_errUaf (s : State) : s.loadW.errUaf = s.errUaf := rfl
@[simp] theorem State.loadW_errIll (s : State) : s.loadW.errIll = s.errIll := rfl
@[simp] theorem State.loadW_micro (s : State) : s.loadW.micro = s.micro := rfl
@[simp] theorem State.loadW_rnd (s : State) : s.loadW.rnd = s.rnd := rfl
@[simp] theorem State.loadW_latch (s : State) : s.loadW.latch = s.latch := rfl
@[simp] theorem State.loadW_oq (s : State) : s.loadW.oq = s.oq := rfl
@[simp] theorem State.loadW_rsp (s : State) : s.loadW.rsp = s.rsp := rfl
@[simp] theorem State.loadW_inputs (s : State) : s.loadW.inputs = s.inputs := rfl
@[simp] theorem State.loadW_taken (s : State) : s.loadW.taken = s.taken := rfl
@[simp] theorem State.loadW_accepted (s : State) : s.loadW.accepted = s.accepted := rfl
@[simp] theorem State.loadW_responses (s : State) : s.loadW.responses = s.responses := rfl
@[simp] theorem State.loadW_pastRuns (s : State) : s.loadW.pastRuns = s.pastRuns := rfl
@[simp] theorem State.loadW_portFaults (s : State) : s.loadW.portFaults = s.portFaults := rfl
@[simp] theorem State.loadW_freeCtr (s : State) : s.loadW.freeCtr = s.freeCtr := rfl

/-! ### State.zeroS -/

@[simp] theorem State.zeroS_build (s : State) : s.zeroS.build = s.build := rfl
@[simp] theorem State.zeroS_S (s : State) : s.zeroS.S = Lanes.zero := rfl
@[simp] theorem State.zeroS_W (s : State) : s.zeroS.W = s.W := rfl
@[simp] theorem State.zeroS_scratch (s : State) : s.zeroS.scratch = s.scratch := rfl
@[simp] theorem State.zeroS_absorbed (s : State) : s.zeroS.absorbed = s.absorbed := rfl
@[simp] theorem State.zeroS_finalized (s : State) : s.zeroS.finalized = s.finalized := rfl
@[simp] theorem State.zeroS_squeezeOff (s : State) : s.zeroS.squeezeOff = s.squeezeOff := rfl
@[simp] theorem State.zeroS_errUaf (s : State) : s.zeroS.errUaf = s.errUaf := rfl
@[simp] theorem State.zeroS_errIll (s : State) : s.zeroS.errIll = s.errIll := rfl
@[simp] theorem State.zeroS_micro (s : State) : s.zeroS.micro = s.micro := rfl
@[simp] theorem State.zeroS_rnd (s : State) : s.zeroS.rnd = s.rnd := rfl
@[simp] theorem State.zeroS_latch (s : State) : s.zeroS.latch = s.latch := rfl
@[simp] theorem State.zeroS_oq (s : State) : s.zeroS.oq = s.oq := rfl
@[simp] theorem State.zeroS_rsp (s : State) : s.zeroS.rsp = s.rsp := rfl
@[simp] theorem State.zeroS_inputs (s : State) : s.zeroS.inputs = s.inputs := rfl
@[simp] theorem State.zeroS_taken (s : State) : s.zeroS.taken = s.taken := rfl
@[simp] theorem State.zeroS_accepted (s : State) : s.zeroS.accepted = s.accepted := rfl
@[simp] theorem State.zeroS_responses (s : State) : s.zeroS.responses = s.responses := rfl
@[simp] theorem State.zeroS_pastRuns (s : State) : s.zeroS.pastRuns = s.pastRuns := rfl
@[simp] theorem State.zeroS_portFaults (s : State) : s.zeroS.portFaults = s.portFaults := rfl
@[simp] theorem State.zeroS_freeCtr (s : State) : s.zeroS.freeCtr = s.freeCtr := rfl

/-! ### State.clearErrors -/

@[simp] theorem State.clearErrors_build (s : State) : s.clearErrors.build = s.build := rfl
@[simp] theorem State.clearErrors_S (s : State) : s.clearErrors.S = s.S := rfl
@[simp] theorem State.clearErrors_W (s : State) : s.clearErrors.W = s.W := rfl
@[simp] theorem State.clearErrors_scratch (s : State) : s.clearErrors.scratch = s.scratch := rfl
@[simp] theorem State.clearErrors_absorbed (s : State) : s.clearErrors.absorbed = s.absorbed := rfl
@[simp] theorem State.clearErrors_finalized (s : State) : s.clearErrors.finalized = s.finalized := rfl
@[simp] theorem State.clearErrors_squeezeOff (s : State) : s.clearErrors.squeezeOff = s.squeezeOff := rfl
@[simp] theorem State.clearErrors_errUaf (s : State) : s.clearErrors.errUaf = false := rfl
@[simp] theorem State.clearErrors_errIll (s : State) : s.clearErrors.errIll = false := rfl
@[simp] theorem State.clearErrors_micro (s : State) : s.clearErrors.micro = s.micro := rfl
@[simp] theorem State.clearErrors_rnd (s : State) : s.clearErrors.rnd = s.rnd := rfl
@[simp] theorem State.clearErrors_latch (s : State) : s.clearErrors.latch = s.latch := rfl
@[simp] theorem State.clearErrors_oq (s : State) : s.clearErrors.oq = s.oq := rfl
@[simp] theorem State.clearErrors_rsp (s : State) : s.clearErrors.rsp = s.rsp := rfl
@[simp] theorem State.clearErrors_inputs (s : State) : s.clearErrors.inputs = s.inputs := rfl
@[simp] theorem State.clearErrors_taken (s : State) : s.clearErrors.taken = s.taken := rfl
@[simp] theorem State.clearErrors_accepted (s : State) : s.clearErrors.accepted = s.accepted := rfl
@[simp] theorem State.clearErrors_responses (s : State) : s.clearErrors.responses = s.responses := rfl
@[simp] theorem State.clearErrors_pastRuns (s : State) : s.clearErrors.pastRuns = s.pastRuns := rfl
@[simp] theorem State.clearErrors_portFaults (s : State) : s.clearErrors.portFaults = s.portFaults := rfl
@[simp] theorem State.clearErrors_freeCtr (s : State) : s.clearErrors.freeCtr = s.freeCtr := rfl

/-! ### State.respond -/

@[simp] theorem State.respond_build (s : State) (c : RspCode) (d : BitVec 64) : (s.respond c d).build = s.build := rfl
@[simp] theorem State.respond_S (s : State) (c : RspCode) (d : BitVec 64) : (s.respond c d).S = s.S := rfl
@[simp] theorem State.respond_W (s : State) (c : RspCode) (d : BitVec 64) : (s.respond c d).W = s.W := rfl
@[simp] theorem State.respond_scratch (s : State) (c : RspCode) (d : BitVec 64) : (s.respond c d).scratch = s.scratch := rfl
@[simp] theorem State.respond_absorbed (s : State) (c : RspCode) (d : BitVec 64) : (s.respond c d).absorbed = s.absorbed := rfl
@[simp] theorem State.respond_finalized (s : State) (c : RspCode) (d : BitVec 64) : (s.respond c d).finalized = s.finalized := rfl
@[simp] theorem State.respond_squeezeOff (s : State) (c : RspCode) (d : BitVec 64) : (s.respond c d).squeezeOff = s.squeezeOff := rfl
@[simp] theorem State.respond_errUaf (s : State) (c : RspCode) (d : BitVec 64) : (s.respond c d).errUaf = s.errUaf := rfl
@[simp] theorem State.respond_errIll (s : State) (c : RspCode) (d : BitVec 64) : (s.respond c d).errIll = s.errIll := rfl
@[simp] theorem State.respond_micro (s : State) (c : RspCode) (d : BitVec 64) : (s.respond c d).micro = s.micro := rfl
@[simp] theorem State.respond_rnd (s : State) (c : RspCode) (d : BitVec 64) : (s.respond c d).rnd = s.rnd := rfl
@[simp] theorem State.respond_latch (s : State) (c : RspCode) (d : BitVec 64) : (s.respond c d).latch = s.latch := rfl
@[simp] theorem State.respond_oq (s : State) (c : RspCode) (d : BitVec 64) : (s.respond c d).oq = s.oq := rfl
@[simp] theorem State.respond_rsp (s : State) (c : RspCode) (d : BitVec 64) : (s.respond c d).rsp = some { code := c, data := d } := rfl
@[simp] theorem State.respond_inputs (s : State) (c : RspCode) (d : BitVec 64) : (s.respond c d).inputs = s.inputs := rfl
@[simp] theorem State.respond_taken (s : State) (c : RspCode) (d : BitVec 64) : (s.respond c d).taken = s.taken := rfl
@[simp] theorem State.respond_accepted (s : State) (c : RspCode) (d : BitVec 64) : (s.respond c d).accepted = s.accepted := rfl
@[simp] theorem State.respond_responses (s : State) (c : RspCode) (d : BitVec 64) : (s.respond c d).responses = s.responses := rfl
@[simp] theorem State.respond_pastRuns (s : State) (c : RspCode) (d : BitVec 64) : (s.respond c d).pastRuns = s.pastRuns := rfl
@[simp] theorem State.respond_portFaults (s : State) (c : RspCode) (d : BitVec 64) : (s.respond c d).portFaults = s.portFaults := rfl
@[simp] theorem State.respond_freeCtr (s : State) (c : RspCode) (d : BitVec 64) : (s.respond c d).freeCtr = s.freeCtr := rfl

/-! ### State.clockS -/

@[simp] theorem State.clockS_build (s : State) : s.clockS.build = s.build := rfl
@[simp] theorem State.clockS_W (s : State) : s.clockS.W = s.W := rfl
@[simp] theorem State.clockS_absorbed (s : State) : s.clockS.absorbed = s.absorbed := rfl
@[simp] theorem State.clockS_finalized (s : State) : s.clockS.finalized = s.finalized := rfl
@[simp] theorem State.clockS_squeezeOff (s : State) : s.clockS.squeezeOff = s.squeezeOff := rfl
@[simp] theorem State.clockS_errUaf (s : State) : s.clockS.errUaf = s.errUaf := rfl
@[simp] theorem State.clockS_errIll (s : State) : s.clockS.errIll = s.errIll := rfl
@[simp] theorem State.clockS_micro (s : State) : s.clockS.micro = s.micro := rfl
@[simp] theorem State.clockS_rnd (s : State) : s.clockS.rnd = nextRnd s.build.unroll s.rnd := rfl
@[simp] theorem State.clockS_latch (s : State) : s.clockS.latch = s.latch := rfl
@[simp] theorem State.clockS_oq (s : State) : s.clockS.oq = s.oq := rfl
@[simp] theorem State.clockS_rsp (s : State) : s.clockS.rsp = s.rsp := rfl
@[simp] theorem State.clockS_inputs (s : State) : s.clockS.inputs = s.inputs := rfl
@[simp] theorem State.clockS_taken (s : State) : s.clockS.taken = s.taken := rfl
@[simp] theorem State.clockS_accepted (s : State) : s.clockS.accepted = s.accepted := rfl
@[simp] theorem State.clockS_responses (s : State) : s.clockS.responses = s.responses := rfl
@[simp] theorem State.clockS_pastRuns (s : State) : s.clockS.pastRuns = s.pastRuns := rfl
@[simp] theorem State.clockS_portFaults (s : State) : s.clockS.portFaults = s.portFaults := rfl
@[simp] theorem State.clockS_freeCtr (s : State) : s.clockS.freeCtr = s.freeCtr := rfl

/-! ### State.clockW -/

@[simp] theorem State.clockW_build (s : State) : s.clockW.build = s.build := rfl
@[simp] theorem State.clockW_S (s : State) : s.clockW.S = s.S := rfl
@[simp] theorem State.clockW_absorbed (s : State) : s.clockW.absorbed = s.absorbed := rfl
@[simp] theorem State.clockW_finalized (s : State) : s.clockW.finalized = s.finalized := rfl
@[simp] theorem State.clockW_squeezeOff (s : State) : s.clockW.squeezeOff = s.squeezeOff := rfl
@[simp] theorem State.clockW_errUaf (s : State) : s.clockW.errUaf = s.errUaf := rfl
@[simp] theorem State.clockW_errIll (s : State) : s.clockW.errIll = s.errIll := rfl
@[simp] theorem State.clockW_micro (s : State) : s.clockW.micro = s.micro := rfl
@[simp] theorem State.clockW_rnd (s : State) : s.clockW.rnd = nextRnd s.build.unroll s.rnd := rfl
@[simp] theorem State.clockW_latch (s : State) : s.clockW.latch = s.latch := rfl
@[simp] theorem State.clockW_oq (s : State) : s.clockW.oq = s.oq := rfl
@[simp] theorem State.clockW_rsp (s : State) : s.clockW.rsp = s.rsp := rfl
@[simp] theorem State.clockW_inputs (s : State) : s.clockW.inputs = s.inputs := rfl
@[simp] theorem State.clockW_taken (s : State) : s.clockW.taken = s.taken := rfl
@[simp] theorem State.clockW_accepted (s : State) : s.clockW.accepted = s.accepted := rfl
@[simp] theorem State.clockW_responses (s : State) : s.clockW.responses = s.responses := rfl
@[simp] theorem State.clockW_pastRuns (s : State) : s.clockW.pastRuns = s.pastRuns := rfl
@[simp] theorem State.clockW_portFaults (s : State) : s.clockW.portFaults = s.portFaults := rfl
@[simp] theorem State.clockW_freeCtr (s : State) : s.clockW.freeCtr = s.freeCtr := rfl

/-! ### State.recordAccepted: what a command word's acceptance adds to the environment's record -/

@[simp] theorem State.recordAccepted_accepted (s : State) (p : Port) (cw : CommandWord) :
    (s.recordAccepted p cw).accepted = s.accepted ++ [(p, cw)] := rfl
@[simp] theorem State.recordAccepted_build (s : State) (p : Port) (cw : CommandWord) : (s.recordAccepted p cw).build = s.build := rfl
@[simp] theorem State.recordAccepted_S (s : State) (p : Port) (cw : CommandWord) : (s.recordAccepted p cw).S = s.S := rfl
@[simp] theorem State.recordAccepted_W (s : State) (p : Port) (cw : CommandWord) : (s.recordAccepted p cw).W = s.W := rfl
@[simp] theorem State.recordAccepted_scratch (s : State) (p : Port) (cw : CommandWord) : (s.recordAccepted p cw).scratch = s.scratch := rfl
@[simp] theorem State.recordAccepted_absorbed (s : State) (p : Port) (cw : CommandWord) : (s.recordAccepted p cw).absorbed = s.absorbed := rfl
@[simp] theorem State.recordAccepted_finalized (s : State) (p : Port) (cw : CommandWord) : (s.recordAccepted p cw).finalized = s.finalized := rfl
@[simp] theorem State.recordAccepted_squeezeOff (s : State) (p : Port) (cw : CommandWord) : (s.recordAccepted p cw).squeezeOff = s.squeezeOff := rfl
@[simp] theorem State.recordAccepted_errUaf (s : State) (p : Port) (cw : CommandWord) : (s.recordAccepted p cw).errUaf = s.errUaf := rfl
@[simp] theorem State.recordAccepted_errIll (s : State) (p : Port) (cw : CommandWord) : (s.recordAccepted p cw).errIll = s.errIll := rfl
@[simp] theorem State.recordAccepted_micro (s : State) (p : Port) (cw : CommandWord) : (s.recordAccepted p cw).micro = s.micro := rfl
@[simp] theorem State.recordAccepted_rnd (s : State) (p : Port) (cw : CommandWord) : (s.recordAccepted p cw).rnd = s.rnd := rfl
@[simp] theorem State.recordAccepted_latch (s : State) (p : Port) (cw : CommandWord) : (s.recordAccepted p cw).latch = s.latch := rfl
@[simp] theorem State.recordAccepted_oq (s : State) (p : Port) (cw : CommandWord) : (s.recordAccepted p cw).oq = s.oq := rfl
@[simp] theorem State.recordAccepted_rsp (s : State) (p : Port) (cw : CommandWord) : (s.recordAccepted p cw).rsp = s.rsp := rfl
@[simp] theorem State.recordAccepted_inputs (s : State) (p : Port) (cw : CommandWord) : (s.recordAccepted p cw).inputs = s.inputs := rfl
@[simp] theorem State.recordAccepted_taken (s : State) (p : Port) (cw : CommandWord) : (s.recordAccepted p cw).taken = s.taken := rfl
@[simp] theorem State.recordAccepted_responses (s : State) (p : Port) (cw : CommandWord) : (s.recordAccepted p cw).responses = s.responses := rfl
@[simp] theorem State.recordAccepted_pastRuns (s : State) (p : Port) (cw : CommandWord) : (s.recordAccepted p cw).pastRuns = s.pastRuns := rfl
@[simp] theorem State.recordAccepted_portFaults (s : State) (p : Port) (cw : CommandWord) : (s.recordAccepted p cw).portFaults = s.portFaults := rfl
@[simp] theorem State.recordAccepted_freeCtr (s : State) (p : Port) (cw : CommandWord) : (s.recordAccepted p cw).freeCtr = s.freeCtr := rfl

/-! ### Errors -/

@[simp] theorem State.raise_updateAfterFinalize (s : State) :
    s.raise .updateAfterFinalize = { s with errUaf := true } := rfl

@[simp] theorem State.raise_illegalCommandS (s : State) :
    s.raise .illegalCommandS = { s with errIll := true } := rfl

@[simp] theorem State.raise_illegalCommandE (s : State) :
    s.raise .illegalCommandE =
      { s with rsp := some { code := .illegalCommand, data := 0 },
               portFaults := { s.portFaults with illegal := true } } := rfl

@[simp] theorem State.raise_engineRange (s : State) :
    s.raise .engineRange =
      { s with rsp := some { code := .engineRange, data := 0 },
               portFaults := { s.portFaults with range := true } } := rfl

/-! ### State.rspAfterReset -/

/-- Everything S.RESET can do to the response register: empty it or leave it. -/
theorem State.rspAfterReset_cases (s : State) : s.rspAfterReset = none ∨ s.rspAfterReset = s.rsp := by
  unfold State.rspAfterReset
  split
  · exact .inl rfl
  · next r h => rw [h]; split <;> simp

/-- An empty response register stays empty. -/
@[simp] theorem State.rspAfterReset_of_none (s : State) (h : s.rsp = none) : s.rspAfterReset = none := by
  simp [State.rspAfterReset, h]

/-! ### Whole updates, as record updates -/

/-- A permutation of S changes S and the scratch storage, and nothing else. -/
theorem State.permuteS_eq (s : State) :
    s.permuteS = { s with S := keccakF s.S, scratch := s.permuteS.scratch } := by
  simp only [State.permuteS, datapathPermute_lanes]

/-- A permutation of W changes W and the scratch storage, and nothing else. -/
theorem State.permuteW_eq (s : State) :
    s.permuteW = { s with W := keccakF s.W, scratch := s.permuteW.scratch } := by
  simp only [State.permuteW, datapathPermute_lanes]

theorem State.padS_eq (s : State) :
    s.padS = { s with S := stXorByte (stXorByte s.S s.absorbed.val 0x1F#8) 167 0x80#8 } := rfl

/-- Finalize() (R107), as one update. -/
theorem State.finalize_eq (s : State) :
    s.finalize =
      { s with S := keccakF (stXorByte (stXorByte s.S s.absorbed.val 0x1F#8) 167 0x80#8),
               scratch := s.padS.permuteS.scratch, finalized := true, squeezeOff := 0 } := by
  simp only [State.finalize]
  rw [State.permuteS_eq]
  rfl

end Sys2Proof.Machine
end

