-- ==== Sys2Proof/Laws/Ops.lean ====
section
/-! SUPPORT. Laws of the shared operations: what absorbing, finalizing and squeezing change, and what they
give. -/

namespace Sys2Proof.Machine

/-! ### Absorbing -/

/-- One byte below the end of the rate block. -/
theorem State.absorbByte_of_lt (s : State) (v : Byte) (h : s.absorbed.val + 1 < 168) :
    s.absorbByte v =
      { s with S := stXorByte s.S s.absorbed.val v, absorbed := ⟨s.absorbed.val + 1, h⟩ } := by
  simp only [State.absorbByte, dif_pos h]

/-- The byte that fills the rate block: S is permuted and the count starts again. -/
theorem State.absorbByte_of_full (s : State) (v : Byte) (h : ¬ s.absorbed.val + 1 < 168) :
    s.absorbByte v =
      { s with S := keccakF (stXorByte s.S s.absorbed.val v)
               scratch := (s.absorbByte v).scratch
               absorbed := 0 } := by
  simp only [State.absorbByte, dif_neg h]
  rw [State.permuteS_eq]

/-- Absorbing a byte changes S, `absorbed` and the scratch storage, and nothing else. -/
theorem State.absorbByte_frame (s : State) (v : Byte) :
    s.absorbByte v =
      { s with S := (s.absorbByte v).S
               absorbed := (s.absorbByte v).absorbed
               scratch := (s.absorbByte v).scratch } := by
  by_cases h : s.absorbed.val + 1 < 168
  · rw [State.absorbByte_of_lt s v h]
  · rw [State.absorbByte_of_full s v h]

@[simp] theorem State.absorbBytes_nil (s : State) : s.absorbBytes [] = s := rfl

@[simp] theorem State.absorbBytes_cons (s : State) (v : Byte) (vs : List Byte) :
    s.absorbBytes (v :: vs) = (s.absorbByte v).absorbBytes vs := rfl

theorem State.absorbBytes_append (s : State) (vs ws : List Byte) :
    s.absorbBytes (vs ++ ws) = (s.absorbBytes vs).absorbBytes ws := List.foldl_append ..

theorem State.absorbBytes_update (s : State) (vs : List Byte) :
    ∃ A a sc, s.absorbBytes vs = { s with S := A, absorbed := a, scratch := sc } := by
  induction vs generalizing s with
  | nil => exact ⟨s.S, s.absorbed, s.scratch, rfl⟩
  | cons v vs ih =>
    obtain ⟨A, a, sc, h⟩ := ih (s.absorbByte v)
    refine ⟨A, a, sc, ?_⟩
    rw [State.absorbBytes_cons, h, State.absorbByte_frame s v]

/-- Absorbing bytes changes S, `absorbed` and the scratch storage, and nothing else. -/
theorem State.absorbBytes_frame (s : State) (vs : List Byte) :
    s.absorbBytes vs =
      { s with S := (s.absorbBytes vs).S
               absorbed := (s.absorbBytes vs).absorbed
               scratch := (s.absorbBytes vs).scratch } := by
  obtain ⟨A, a, sc, h⟩ := s.absorbBytes_update vs
  rw [h]

/-- Bytes that stay below the end of the rate block are XORed in at `absorbed`. -/
theorem State.absorbBytes_of_lt (s : State) (vs : List Byte)
    (h : s.absorbed.val + vs.length < 168) :
    s.absorbBytes vs =
      { s with S := stXorBytes s.S s.absorbed.val vs, absorbed := ⟨s.absorbed.val + vs.length, h⟩ } := by
  induction vs generalizing s with
  | nil => rfl
  | cons v vs ih =>
    simp only [List.length_cons] at h
    rw [State.absorbBytes_cons, State.absorbByte_of_lt s v (by omega), ih _ (by simp; omega)]
    simp only [stXorBytes, List.length_cons, State.mk.injEq, Fin.mk.injEq, true_and, and_true]
    omega

/-- Bytes that fill the rate block exactly are XORed in, S is permuted, and the count starts again. -/
theorem State.absorbBytes_of_full (s : State) (vs : List Byte)
    (h : s.absorbed.val + vs.length = 168) :
    s.absorbBytes vs =
      { s with S := keccakF (stXorBytes s.S s.absorbed.val vs)
               scratch := (s.absorbBytes vs).scratch
               absorbed := 0 } := by
  induction vs generalizing s with
  | nil => have := s.absorbed.isLt; simp at h; omega
  | cons v vs ih =>
    simp only [List.length_cons] at h
    rw [State.absorbBytes_cons]
    by_cases hlt : s.absorbed.val + 1 < 168
    · rw [State.absorbByte_of_lt s v hlt, ih _ (by simp; omega)]
      simp only [stXorBytes]
    · have hnil : vs = [] := List.length_eq_zero_iff.mp (by omega)
      subst hnil
      rw [State.absorbBytes_nil, State.absorbByte_of_full s v hlt]
      simp only [stXorBytes]

/-- What is absorbed depends on S, `absorbed` and the bytes only. -/
theorem State.absorbBytes_congr (s t : State) (vs : List Byte) (hS : s.S = t.S)
    (ha : s.absorbed = t.absorbed) :
    (s.absorbBytes vs).S = (t.absorbBytes vs).S ∧
      (s.absorbBytes vs).absorbed = (t.absorbBytes vs).absorbed := by
  induction vs generalizing s t with
  | nil => exact ⟨hS, ha⟩
  | cons v vs ih =>
    simp only [State.absorbBytes_cons]
    by_cases h : s.absorbed.val + 1 < 168
    · have h' : t.absorbed.val + 1 < 168 := ha ▸ h
      apply ih
      · rw [State.absorbByte_of_lt s v h, State.absorbByte_of_lt t v h']; simp only [hS, ha]
      · rw [State.absorbByte_of_lt s v h, State.absorbByte_of_lt t v h']; simp [ha]
    · have h' : ¬ t.absorbed.val + 1 < 168 := ha ▸ h
      apply ih
      · rw [State.absorbByte_of_full s v h, State.absorbByte_of_full t v h']; simp only [hS, ha]
      · rw [State.absorbByte_of_full s v h, State.absorbByte_of_full t v h']

/-! ### Squeezing -/

/-- A byte within the block. -/
theorem State.squeezeByte_of_lt (s : State) (h : s.squeezeOff.val < 168) :
    s.squeezeByte =
      (stByte s.W s.squeezeOff.val, { s with squeezeOff := ⟨s.squeezeOff.val + 1, by omega⟩ }) := by
  simp only [State.squeezeByte, dif_pos h]

/-- A byte beyond the block: W is permuted first. -/
theorem State.squeezeByte_of_full (s : State) (h : ¬ s.squeezeOff.val < 168) :
    s.squeezeByte =
      (stByte (keccakF s.W) 0,
        { s with W := keccakF s.W, scratch := s.permuteW.scratch, squeezeOff := 1 }) := by
  simp only [State.squeezeByte, dif_neg h]
  rw [State.permuteW_eq]

/-- A pass of the squeeze loop changes W, `squeeze_off` and the scratch storage, and nothing else. -/
theorem State.squeezeByte_frame (s : State) :
    s.squeezeByte.2 =
      { s with W := s.squeezeByte.2.W
               scratch := s.squeezeByte.2.scratch
               squeezeOff := s.squeezeByte.2.squeezeOff } := by
  by_cases h : s.squeezeOff.val < 168
  · rw [State.squeezeByte_of_lt s h]
  · rw [State.squeezeByte_of_full s h]

@[simp] theorem State.squeezeBytes_zero (s : State) : State.squeezeBytes 0 s = ([], s) := rfl

theorem State.squeezeBytes_succ (n : Nat) (s : State) :
    State.squeezeBytes (n + 1) s =
      (s.squeezeByte.1 :: (State.squeezeBytes n s.squeezeByte.2).1,
        (State.squeezeBytes n s.squeezeByte.2).2) := rfl

theorem State.squeezeBytes_update (n : Nat) (s : State) :
    ∃ A sc o, (State.squeezeBytes n s).2 = { s with W := A, scratch := sc, squeezeOff := o } := by
  induction n generalizing s with
  | zero => exact ⟨s.W, s.scratch, s.squeezeOff, rfl⟩
  | succ n ih =>
    obtain ⟨A, sc, o, h⟩ := ih s.squeezeByte.2
    refine ⟨A, sc, o, ?_⟩
    rw [State.squeezeBytes_succ]
    simp only [h]
    rw [State.squeezeByte_frame s]

/-- The squeeze loop changes W, `squeeze_off` and the scratch storage, and nothing else. -/
theorem State.squeezeBytes_frame (n : Nat) (s : State) :
    (State.squeezeBytes n s).2 =
      { s with W := (State.squeezeBytes n s).2.W
               scratch := (State.squeezeBytes n s).2.scratch
               squeezeOff := (State.squeezeBytes n s).2.squeezeOff } := by
  obtain ⟨A, sc, o, h⟩ := State.squeezeBytes_update n s
  rw [h]

@[simp] theorem State.squeezeBytes_length (n : Nat) (s : State) :
    (State.squeezeBytes n s).1.length = n := by
  induction n generalizing s with
  | zero => rfl
  | succ n ih => simp [State.squeezeBytes_succ, ih]

theorem State.squeezeBytes_add (m n : Nat) (s : State) :
    State.squeezeBytes (m + n) s =
      ((State.squeezeBytes m s).1 ++ (State.squeezeBytes n (State.squeezeBytes m s).2).1,
        (State.squeezeBytes n (State.squeezeBytes m s).2).2) := by
  induction m generalizing s with
  | zero => simp
  | succ m ih =>
    rw [show m + 1 + n = (m + n) + 1 from by omega, State.squeezeBytes_succ, State.squeezeBytes_succ,
      ih]
    rfl

/-- The whole squeeze loop from a fresh copy of S: byte j comes from j div 168 permutations, W has had
(n − 1) div 168 of them, and `squeeze_off` is as R110 says (R109, R112). -/
theorem State.squeezeBytes_loadW (s : State) (n : Nat) :
    (State.squeezeBytes n s.loadW).1 =
      (List.range n).map (fun j => stByte (keccakFTimes (j / 168) s.S) (j % 168)) ∧
    (State.squeezeBytes n s.loadW).2.W = keccakFTimes ((n - 1) / 168) s.S ∧
    (State.squeezeBytes n s.loadW).2.squeezeOff.val = if n = 0 then 0 else (n - 1) % 168 + 1 := by
  induction n with
  | zero => exact ⟨rfl, rfl, rfl⟩
  | succ n ih =>
    obtain ⟨h1, h2, h3⟩ := ih
    rw [State.squeezeBytes_add n 1]
    generalize State.squeezeBytes n s.loadW = p at h1 h2 h3
    simp only [State.squeezeBytes_succ, State.squeezeBytes_zero, Nat.add_sub_cancel,
      Nat.add_one_ne_zero, if_false]
    rw [List.range_succ, List.map_append, h1]
    by_cases hlt : p.2.squeezeOff.val < 168
    · rw [State.squeezeByte_of_lt _ hlt]
      have hd : (n - 1) / 168 = n / 168 := by split at h3 <;> omega
      have hm : p.2.squeezeOff.val = n % 168 := by split at h3 <;> omega
      simp [h2, hd, hm]
    · rw [State.squeezeByte_of_full _ hlt]
      have h0 : n ≠ 0 := by rintro rfl; simp at h3; omega
      rw [if_neg h0] at h3
      have hd : n / 168 = (n - 1) / 168 + 1 := by omega
      have hm : n % 168 = 0 := by omega
      simp [h2, hd, hm, keccakFTimes_succ']

end Sys2Proof.Machine
end

