-- ==== Sys2Proof/Laws/Exec.lean ====
section
/-! SUPPORT. Laws of the commands: every command completes; what the commands of each port can change. -/

namespace Sys2Proof.Machine

/-- Squeezing appends output words and changes W, the scratch storage, `squeeze_off` and the micro-state. -/
theorem State.squeeze_update (s : State) (n : Nat) :
    ∃ A sc o m, s.squeeze n =
      { s with W := A, scratch := sc, squeezeOff := o, micro := m
               oq := s.oq ++ outWords (State.squeezeBytes n s.loadW).1 } := by
  obtain ⟨A, sc, o, h⟩ := State.squeezeBytes_update n s.loadW
  refine ⟨A, sc, o, if n = 0 then s.micro else .sqzOut, ?_⟩
  simp only [State.squeeze, h]
  rfl

/-- Every command has an effect: none faults and none is refused (R135, R140). -/
theorem exec_completes (i : Instr) (s : State) : ∃ t, exec i s = .next t := by
  cases i with
  | sReset => exact ⟨_, rfl⟩
  | sAbsorb nb data => simp only [exec, execSAbsorb]; split <;> (try split) <;> exact ⟨_, rfl⟩
  | sDigest len => exact ⟨_, rfl⟩
  | sErrclr => exact ⟨_, rfl⟩
  | eReset => exact ⟨_, rfl⟩
  | eXorb off value => simp only [exec, execEXorb]; split <;> exact ⟨_, rfl⟩
  | eXor off nb data => simp only [exec, execEXor]; split <;> (try split) <;> exact ⟨_, rfl⟩
  | eExtract off nb => simp only [exec, execEExtract]; split <;> (try split) <;> exact ⟨_, rfl⟩
  | ePermute => exact ⟨_, rfl⟩

/-- An S-port command changes the sponge context, W, the scratch storage, the error flags, OQ and the
micro-state at most, and S.RESET alone the response register. -/
theorem exec_sponge_update (i : Instr) (s : State) (hp : i.port = .sponge) :
    ∃ A B sc a f o u l m q r, (i ≠ .sReset → r = s.rsp) ∧ exec i s =
      .next { s with S := A, W := B, scratch := sc, absorbed := a, finalized := f, squeezeOff := o
                     errUaf := u, errIll := l, micro := m, oq := q, rsp := r } := by
  cases i with
  | sReset => exact ⟨_, _, _, _, _, _, _, _, _, _, _, fun h => absurd rfl h, rfl⟩
  | sAbsorb nb data =>
    simp only [exec, execSAbsorb]
    split
    · split
      · exact ⟨_, _, _, _, _, _, _, _, _, _, _, fun _ => rfl, rfl⟩
      · obtain ⟨A, a, sc, h⟩ := s.absorbBytes_update (dataBytes nb.toNat data)
        rw [h]
        exact ⟨_, _, _, _, _, _, _, _, _, _, _, fun _ => rfl, rfl⟩
    · exact ⟨_, _, _, _, _, _, _, _, _, _, _, fun _ => rfl, rfl⟩
  | sDigest len =>
    simp only [exec, execSDigest]
    obtain ⟨A, sc, o, m, h⟩ := State.squeeze_update (if s.finalized then s else s.finalize) len.toNat
    rw [h]
    by_cases hf : s.finalized = true
    · simp only [hf, if_true]
      exact ⟨_, _, _, _, _, _, _, _, _, _, _, fun _ => rfl, rfl⟩
    · simp only [hf, State.finalize_eq]
      exact ⟨_, _, _, _, _, _, _, _, _, _, _, fun _ => rfl, rfl⟩
  | sErrclr => exact ⟨_, _, _, _, _, _, _, _, _, _, _, fun _ => rfl, rfl⟩
  | eReset => simp [Instr.port] at hp
  | eXorb off value => simp [Instr.port] at hp
  | eXor off nb data => simp [Instr.port] at hp
  | eExtract off nb => simp [Instr.port] at hp
  | ePermute => simp [Instr.port] at hp

/-- An E-port command changes S, the scratch storage and the response register at most, and leaves exactly
one response; the model's record of faults goes with the response (R80, R92). -/
theorem exec_engine_update (i : Instr) (s : State) (hp : i.port = .engine) :
    ∃ A sc r f, exec i s =
      .next { s with S := A, scratch := sc, rsp := some r, portFaults := f } := by
  cases i with
  | sReset => simp [Instr.port] at hp
  | sAbsorb nb data => simp [Instr.port] at hp
  | sDigest len => simp [Instr.port] at hp
  | sErrclr => simp [Instr.port] at hp
  | eReset => exact ⟨_, _, _, _, rfl⟩
  | eXorb off value => simp only [exec, execEXorb]; split <;> exact ⟨_, _, _, _, rfl⟩
  | eXor off nb data =>
    simp only [exec, execEXor]; split <;> (try split) <;> exact ⟨_, _, _, _, rfl⟩
  | eExtract off nb =>
    simp only [exec, execEExtract]; split <;> (try split) <;> exact ⟨_, _, _, _, rfl⟩
  | ePermute =>
    simp only [exec, execEPermute]
    rw [State.permuteS_eq]
    exact ⟨_, _, _, _, rfl⟩

end Sys2Proof.Machine
end

