-- ==== Sys2Proof/Laws/Step.lean ====
section
/-! SUPPORT. Laws of a clock edge: what the transfers change, and everything one edge can do. -/

namespace Sys2Proof.Machine

/-! ### Decoding gives commands of the port -/

theorem decodeS_port {cw : CommandWord} {i : Instr} (h : decodeS cw = .ok i) : i.port = .sponge := by
  unfold decodeS at h
  split at h
  · split at h <;> (try simp only [ifByteCount, ifUnusedZero] at h) <;> repeat' split at h
    all_goals first | (cases h; rfl) | cases h
  · cases h

theorem decodeE_port {cw : CommandWord} {i : Instr} (h : decodeE cw = .ok i) : i.port = .engine := by
  unfold decodeE at h
  split at h
  · split at h <;> (try simp only [ifByteCount, ifUnusedZero] at h) <;> repeat' split at h
    all_goals first | (cases h; rfl) | cases h
  · cases h

/-! ### Transfers -/

theorem State.takeOutput_update (s : State) (inp : Inputs) :
    ∃ q k, s.takeOutput inp = { s with oq := q, taken := k } := by
  unfold State.takeOutput; split
  · exact ⟨_, _, rfl⟩
  · exact ⟨s.oq, s.taken, rfl⟩

theorem State.takeResponse_update (s : State) (inp : Inputs) :
    ∃ r k, s.takeResponse inp = { s with rsp := r, responses := k } := by
  unfold State.takeResponse; split
  · exact ⟨_, _, rfl⟩
  · exact ⟨s.rsp, s.responses, rfl⟩

/-- The transfers of an edge change OQ, the response register and what the environment has taken. -/
theorem State.takeTransfers_update (s : State) (inp : Inputs) :
    ∃ q k r l, s.takeTransfers inp = { s with oq := q, taken := k, rsp := r, responses := l } := by
  obtain ⟨q, k, h1⟩ := s.takeOutput_update inp
  obtain ⟨r, l, h2⟩ := (s.takeOutput inp).takeResponse_update inp
  exact ⟨q, k, r, l, by rw [State.takeTransfers, h2, h1]⟩

/-- On an edge on which the environment takes nothing, no transfer happens. -/
theorem State.takeTransfers_of_not_ready (s : State) (inp : Inputs) (ho : inp.oReady = false)
    (he : inp.eRspReady = false) : s.takeTransfers inp = s := by
  simp [State.takeTransfers, State.takeOutput, State.takeResponse, ho, he]

/-- With nothing to take, no transfer happens. -/
theorem State.takeTransfers_of_empty (s : State) (inp : Inputs) (ho : s.oq = [])
    (hr : s.rsp = none) : s.takeTransfers inp = s := by
  simp [State.takeTransfers, State.takeOutput, State.takeResponse, State.oValid, State.eRspValid, ho,
    hr]

/-- The O-port transfer of an edge without rst_n, as one update. -/
theorem State.takeOutput_eq (s : State) (inp : Inputs) (hr : inp.rstN = true) :
    s.takeOutput inp = { s with
      oq := if inp.oReady then s.oq.tail else s.oq
      taken := s.taken ++ (if inp.oReady then s.oq.head?.toList else []) } := by
  cases ho : inp.oReady <;> cases hq : s.oq <;>
    simp [State.takeOutput, State.oValid, hr, ho, hq] <;> (rw [← hq])

/-- The E-port response transfer of an edge without rst_n, as one update. -/
theorem State.takeResponse_eq (s : State) (inp : Inputs) (hr : inp.rstN = true) :
    s.takeResponse inp = { s with
      rsp := if s.build.engineTestPort && inp.eRspReady then none else s.rsp
      responses := s.responses ++
        (if s.build.engineTestPort && inp.eRspReady then s.rsp.toList else []) } := by
  cases hp : s.build.engineTestPort <;> cases he : inp.eRspReady <;> cases hq : s.rsp <;>
    simp [State.takeResponse, State.eRspValid, hr, hp, he, hq] <;> (rw [← hq])

/-! ### What an edge does to the environment's records -/

/-- The records stand in two states as they do in one another: what was accepted and taken, in this run and in
the past ones. -/
def State.SameRecords (s t : State) : Prop := t.runRecord = s.runRecord ∧ t.pastRuns = s.pastRuns

theorem State.SameRecords.trans {s t u : State} (h : s.SameRecords t) (h' : t.SameRecords u) :
    s.SameRecords u := ⟨h'.1.trans h.1, h'.2.trans h.2⟩

theorem State.absorbUntilFull_records (vs : List Byte) (s : State) :
    s.SameRecords (s.absorbUntilFull vs) := by
  induction vs generalizing s with
  | nil => exact ⟨rfl, rfl⟩
  | cons v vs ih =>
    simp only [State.absorbUntilFull]
    split
    · exact ih _
    · exact ⟨rfl, rfl⟩

theorem State.emitWord_records (s : State) : s.SameRecords s.emitWord := by
  obtain ⟨A, sc, o, h⟩ := State.squeezeBytes_update (min 8 s.latch.left) s
  simp only [State.SameRecords, State.emitWord, h, and_true]
  rfl

theorem State.nextOutput_records (s : State) : s.SameRecords s.nextOutput := by
  unfold State.nextOutput
  repeat' split
  · exact ⟨rfl, rfl⟩
  · exact ⟨rfl, rfl⟩
  · exact State.emitWord_records _

/-- Progress of a command changes no record. -/
theorem State.progress_records (s : State) : s.SameRecords s.progress := by
  unfold State.progress
  repeat' split
  all_goals first
    | exact ⟨rfl, rfl⟩
    | exact State.absorbUntilFull_records _ _
    | exact State.SameRecords.trans ⟨rfl, rfl⟩ (State.nextOutput_records _)

/-- No command's effect changes a record. -/
theorem exec_records {i : Instr} {s t : State} (h : exec i s = .next t) : s.SameRecords t := by
  cases hp : i.port with
  | sponge =>
    obtain ⟨A, B, sc, a, f, o, u, l, m, q, r, -, e⟩ := exec_sponge_update i s hp
    rw [e] at h; cases h; exact ⟨rfl, rfl⟩
  | engine =>
    obtain ⟨A, sc, r, f, e⟩ := exec_engine_update i s hp
    rw [e] at h; cases h; exact ⟨rfl, rfl⟩

/-- Starting a command changes no record. -/
theorem beginCommand_records {i : Instr} {s t : State} (h : beginCommand i s = .next t) :
    s.SameRecords t := by
  cases i with
  | sAbsorb nb data =>
    simp only [beginCommand, beginSAbsorb] at h
    split at h
    · cases h; exact State.absorbUntilFull_records _ _
    · exact exec_records (i := .sAbsorb nb data) h
  | sDigest len =>
    simp only [beginCommand, beginSDigest] at h
    split at h
    · split at h
      · exact exec_records (i := .sDigest len) h
      · cases h; exact ⟨rfl, rfl⟩
    · cases h; exact ⟨rfl, rfl⟩
  | ePermute => cases h; exact ⟨rfl, rfl⟩
  | sReset => exact exec_records (i := .sReset) h
  | sErrclr => exact exec_records (i := .sErrclr) h
  | eReset => exact exec_records (i := .eReset) h
  | eXorb off value => exact exec_records (i := .eXorb off value) h
  | eXor off nb data => exact exec_records (i := .eXor off nb data) h
  | eExtract off nb => exact exec_records (i := .eExtract off nb) h

/-! ### Everything one edge can do -/

/-- The state of an edge after its transfers: where acceptance and progress start. -/
def State.transferred (s : State) (inp : Inputs) : State :=
  { s with freeCtr := s.freeCtr + 1 }.takeTransfers inp

/-- Where no output word waits, the transfers of an edge are that of a held response. -/
theorem State.transferred_of_oq_nil (s : State) (inp : Inputs) (hq : s.oq = []) (hr : inp.rstN = true) :
    s.transferred inp = { s with
      freeCtr := s.freeCtr + 1
      rsp := if s.build.engineTestPort && inp.eRspReady then none else s.rsp
      responses := s.responses ++
        (if s.build.engineTestPort && inp.eRspReady then s.rsp.toList else []) } := by
  unfold State.transferred State.takeTransfers
  rw [State.takeResponse_eq _ _ hr, State.takeOutput_eq _ _ hr]
  simp [hq]

/-- What an edge does, case by case: rst_n; progress of a command; a word accepted on the S-port; a word
accepted on the E-port; transfers only. -/
theorem State.edge_cases (run : Instr → State → Outcome) (s : State) (inp : Inputs) :
    (inp.rstN = false ∧
      s.edge run inp = .next { s with freeCtr := s.freeCtr + 1 }.rstEdge) ∨
    (inp.rstN = true ∧ s.busy = true ∧ s.edge run inp = .next (s.transferred inp).progress) ∨
    (inp.rstN = true ∧ s.busy = false ∧ inp.sValid = true ∧
      s.edge run inp = acceptS run inp.sCw ((s.transferred inp).recordAccepted .sponge inp.sCw)) ∨
    (inp.rstN = true ∧ s.busy = false ∧ inp.sValid = false ∧ inp.eValid = true ∧
      s.build.engineTestPort = true ∧ s.rsp = none ∧
      s.edge run inp = acceptE run inp.eCw ((s.transferred inp).recordAccepted .engine inp.eCw)) ∨
    (inp.rstN = true ∧ s.busy = false ∧ inp.sValid = false ∧
      (inp.eValid = true → s.build.engineTestPort = false ∨ s.rsp ≠ none) ∧
      s.edge run inp = .next (s.transferred inp)) := by
  cases hr : inp.rstN <;> cases hb : s.busy <;> cases hs : inp.sValid <;>
    cases he : inp.eValid <;> cases hp : s.build.engineTestPort <;> cases hq : s.rsp <;>
    simp [State.edge, State.transferred, State.sReady, State.eReady, hr, hb, hs, he, hp, hq]

/-- The edge of a step, with the inputs that stand first. -/
theorem step_cons (s : State) (inp : Inputs) (rest : List Inputs) (h : s.inputs = inp :: rest) :
    step s = { s with inputs := rest }.edge exec inp := by
  simp [step, State.nextEdge, h]

/-- The edge of a step when the environment drives nothing more. -/
theorem step_nil (s : State) (h : s.inputs = []) : step s = s.edge exec Inputs.quiet := by
  simp [step, State.nextEdge, h]

/-- A word accepted on the S-port: a command, or IllegalCommand. -/
theorem acceptS_completes (cw : CommandWord) (s : State) : ∃ t, acceptS exec cw s = .next t := by
  unfold acceptS
  split
  · exact exec_completes _ _
  · exact ⟨_, rfl⟩

/-- A word accepted on the E-port: a command, or IllegalCommand. -/
theorem acceptE_completes (cw : CommandWord) (s : State) : ∃ t, acceptE exec cw s = .next t := by
  unfold acceptE
  split
  · exact exec_completes _ _
  · exact ⟨_, rfl⟩

/-- Every edge of the transaction-level machine gives a next state. -/
theorem State.edge_completes (s : State) (inp : Inputs) : ∃ t, s.edge exec inp = .next t := by
  rcases s.edge_cases exec inp with ⟨-, h⟩ | ⟨-, -, h⟩ | ⟨-, -, -, h⟩ | ⟨-, -, -, -, -, -, h⟩ |
    ⟨-, -, -, -, h⟩
  · exact ⟨_, h⟩
  · exact ⟨_, h⟩
  · rw [h]; exact acceptS_completes _ _
  · rw [h]; exact acceptE_completes _ _
  · exact ⟨_, h⟩

end Sys2Proof.Machine
end

