-- ==== Sys2Proof/Laws/Cycle.lean ====
section
/-! SUPPORT. Laws of the cycle-level controller: what a command in progress comes to (`State.completed`), that
no clock edge changes it, and that it is what the transaction-level machine does at once (R118). -/

namespace Sys2Proof.Machine

/-- The permutation of S in progress, done to its end. -/
def State.finishS (s : State) : State :=
  let d := datapathRest s.rnd { lanes := s.S, scratch := s.scratch }
  { s with S := d.lanes, scratch := d.scratch, rnd := 0 }

/-- The permutation of W in progress, done to its end. -/
def State.finishW (s : State) : State :=
  let d := datapathRest s.rnd { lanes := s.W, scratch := s.scratch }
  { s with W := d.lanes, scratch := d.scratch, rnd := 0 }

/-- The latched bytes of an S.ABSORB, absorbed. -/
def State.absorbRest (s : State) : State :=
  { s.absorbBytes s.latch.pend with micro := .idle, latch := Latch.empty }

/-- The words held and the bytes left of an S.DIGEST, all taken by the host. -/
def State.squeezeRest (s : State) : State :=
  let p := State.squeezeBytes s.latch.left s
  { p.2 with
    micro := .idle
    latch := Latch.empty
    oq := []
    taken := s.taken ++ (s.oq ++ outWords p.1) }

/-- What the command in progress comes to, once the host has taken its words. -/
def State.completed (s : State) : State :=
  match s.micro with
  | .idle => s
  | .absorb => s.absorbRest
  | .absPerm => s.finishS.absorbRest
  | .finPerm =>
    { (if s.latch.pad then s.padS.permuteS else s.finishS) with finalized := true }.loadW.squeezeRest
  | .sqzOut => (if s.latch.copy then s.loadW else s).squeezeRest
  | .sqzPerm => { s.finishW with squeezeOff := 0 }.squeezeRest
  | .eng => { s.finishS.respond .ok 0 with micro := .idle }

/-- What the latched work of a command in progress looks like in each micro-state. -/
def State.cycleInv (s : State) : Prop :=
  match s.micro with
  | .idle => s.rnd = 0 ∧ s.oq = [] ∧ s.latch = Latch.empty
  | .absorb => s.rnd = 0 ∧ s.oq = [] ∧ s.latch = { Latch.empty with pend := s.latch.pend }
  | .absPerm => s.oq = [] ∧ s.latch = { Latch.empty with pend := s.latch.pend }
  | .finPerm =>
    (s.latch.pad = true → s.rnd = 0) ∧ s.oq = [] ∧
      s.latch = { Latch.empty with pad := s.latch.pad, left := s.latch.left }
  | .sqzOut =>
    s.rnd = 0 ∧ (s.latch.copy = true → s.oq = []) ∧
      s.latch = { Latch.empty with copy := s.latch.copy, left := s.latch.left }
  | .sqzPerm =>
    s.oq = [] ∧ s.latch.left ≠ 0 ∧ s.latch = { Latch.empty with left := s.latch.left }
  | .eng => s.oq = [] ∧ s.latch = Latch.empty

/-! ### The loops do not read what they do not use -/

theorem State.absorbBytes_with (s : State) (vs : List Byte) (m : Micro) (l : Latch) (r : Fin 24)
    (c : Nat) :
    ({ s with micro := m, latch := l, rnd := r, freeCtr := c } : State).absorbBytes vs =
      { s.absorbBytes vs with micro := m, latch := l, rnd := r, freeCtr := c } := by
  induction vs generalizing s with
  | nil => rfl
  | cons v vs ih =>
    have h : ({ s with micro := m, latch := l, rnd := r, freeCtr := c } : State).absorbByte v =
        { s.absorbByte v with micro := m, latch := l, rnd := r, freeCtr := c } := by
      unfold State.absorbByte
      dsimp only
      split <;> rfl
    rw [State.absorbBytes_cons, State.absorbBytes_cons, h, ih]

theorem State.squeezeBytes_with (n : Nat) (s : State) (m : Micro) (l : Latch) (r : Fin 24)
    (q k : List OutWord) (c : Nat) :
    State.squeezeBytes n
        { s with micro := m, latch := l, rnd := r, oq := q, taken := k, freeCtr := c } =
      ((State.squeezeBytes n s).1,
        { (State.squeezeBytes n s).2 with
          micro := m, latch := l, rnd := r, oq := q, taken := k, freeCtr := c }) := by
  induction n generalizing s with
  | zero => rfl
  | succ n ih =>
    have h : ({ s with micro := m, latch := l, rnd := r, oq := q, taken := k, freeCtr := c } :
        State).squeezeByte =
        (s.squeezeByte.1,
          { s.squeezeByte.2 with
            micro := m, latch := l, rnd := r, oq := q, taken := k, freeCtr := c }) := by
      unfold State.squeezeByte
      dsimp only
      split <;> rfl
    rw [State.squeezeBytes_succ, h]
    simp only [ih]
    rfl

/-! ### Output words one by one -/

theorem outWords_cons (out : List Byte) (h : out ≠ []) :
    outWords out =
      { data := littleEndian (min 8 out.length) fun k => out.getD k 0#8
        nb := min 8 out.length
        last := decide (min 8 out.length = out.length) } :: outWords (out.drop 8) := by
  have hl : 0 < out.length := List.length_pos_of_ne_nil h
  apply List.ext_getElem
  · simp; omega
  · intro i h1 h2
    cases i with
    | zero => simp [outWords, outWord]
    | succ i =>
      simp only [List.getElem_cons_succ]
      simp only [outWords, List.getElem_map, List.getElem_range, outWord, List.length_drop]
      have e1 : out.length - 8 * (i + 1) = out.length - 8 - 8 * i := by omega
      rw [e1]
      have e2 : (fun k => out.getD (8 * (i + 1) + k) 0#8) =
          fun k => (List.drop 8 out).getD (8 * i + k) 0#8 := by
        funext k
        simp [List.getD, show 8 * (i + 1) + k = 8 + (8 * i + k) by omega]
      rw [e2]
      congr 1
      have : i + 1 < (out.length + 7) / 8 := by simpa using h1
      apply decide_eq_decide.mpr
      omega

theorem State.squeezeRest_emitWord (s : State) (h : s.latch.left ≠ 0) :
    s.emitWord.squeezeRest = s.squeezeRest := by
  obtain ⟨k, hk⟩ : ∃ k, k = min 8 s.latch.left := ⟨_, rfl⟩
  obtain ⟨n, hn⟩ : ∃ n, s.latch.left = k + n := ⟨s.latch.left - k, by omega⟩
  have hadd := State.squeezeBytes_add k n s
  have hlk := State.squeezeBytes_length k s
  obtain ⟨A, sc, o, hu⟩ := State.squeezeBytes_update k s
  unfold State.squeezeRest State.emitWord
  dsimp only
  rw [← hk, hn, Nat.add_sub_cancel_left, hadd]
  generalize State.squeezeBytes k s = p at hu hlk
  dsimp only
  have hw : ∀ (q : List OutWord) (l : Latch),
      State.squeezeBytes n { p.2 with oq := q, latch := l } =
        ((State.squeezeBytes n p.2).1,
          { (State.squeezeBytes n p.2).2 with oq := q, latch := l }) := by
    intro q l
    rw [State.squeezeBytes_with n p.2 p.2.micro l p.2.rnd q p.2.taken p.2.freeCtr]
    obtain ⟨A, sc, o, h2⟩ := State.squeezeBytes_update n p.2
    rw [h2]
  rw [hw]
  have hln := State.squeezeBytes_length n p.2
  obtain ⟨A', sc', o', hu'⟩ := State.squeezeBytes_update n p.2
  generalize State.squeezeBytes n p.2 = r at hu' hln
  have hlen : (p.1 ++ r.1).length = k + n := by simp [hlk, hln]
  have hne : p.1 ++ r.1 ≠ [] := by
    intro e
    rw [e] at hlen
    simp at hlen
    omega
  have hmin : min 8 (k + n) = k := by omega
  have hd : (p.1 ++ r.1).drop 8 = r.1 := by
    rw [List.drop_append]
    by_cases h0 : n = 0
    · have : r.1 = [] := List.length_eq_zero_iff.mp (by omega)
      simp [this]; omega
    · simp [hlk, show k = 8 by omega]
  have hdata : (littleEndian k fun j => (p.1 ++ r.1).getD j 0#8) =
      littleEndian k fun j => p.1.getD j 0#8 := by
    unfold littleEndian
    congr 1
    apply List.map_congr_left
    intro j hj
    rw [List.mem_range] at hj
    simp [List.getD, List.getElem?_append_left, hlk, hj]
  rw [outWords_cons _ hne, hlen, hmin, hd, hdata, hu', hu]
  simp

/-! ### Permutations in progress -/

theorem State.finishS_zero (s : State) (h : s.rnd = 0) : s.finishS = s.permuteS := by
  unfold State.finishS State.permuteS
  rw [h, datapathRest_zero, ← h]

theorem State.finishS_clockS (s : State) (h : s.lastClock = false) :
    s.clockS.finishS = s.finishS := by
  unfold State.finishS State.clockS
  dsimp only
  rw [show ({ lanes := (datapathClock s.build.unroll s.rnd { lanes := s.S, scratch := s.scratch }).lanes,
              scratch := (datapathClock s.build.unroll s.rnd { lanes := s.S, scratch := s.scratch }).scratch } :
              Datapath) = datapathClock s.build.unroll s.rnd { lanes := s.S, scratch := s.scratch } from rfl,
    datapathRest_clock _ _ _ h]

theorem State.clockS_last (s : State) (h : s.lastClock = true) : s.clockS = s.finishS := by
  obtain ⟨h1, h2⟩ := datapathRest_last s.build.unroll s.rnd { lanes := s.S, scratch := s.scratch } h
  unfold State.finishS State.clockS
  dsimp only
  rw [h1, h2]

theorem State.finishW_zero (s : State) (h : s.rnd = 0) : s.finishW = s.permuteW := by
  unfold State.finishW State.permuteW
  rw [h, datapathRest_zero, ← h]

theorem State.finishW_clockW (s : State) (h : s.lastClock = false) :
    s.clockW.finishW = s.finishW := by
  unfold State.finishW State.clockW
  dsimp only
  rw [show ({ lanes := (datapathClock s.build.unroll s.rnd { lanes := s.W, scratch := s.scratch }).lanes,
              scratch := (datapathClock s.build.unroll s.rnd { lanes := s.W, scratch := s.scratch }).scratch } :
              Datapath) = datapathClock s.build.unroll s.rnd { lanes := s.W, scratch := s.scratch } from rfl,
    datapathRest_clock _ _ _ h]

theorem State.clockW_last (s : State) (h : s.lastClock = true) : s.clockW = s.finishW := by
  obtain ⟨h1, h2⟩ := datapathRest_last s.build.unroll s.rnd { lanes := s.W, scratch := s.scratch } h
  unfold State.finishW State.clockW
  dsimp only
  rw [h1, h2]

/-! ### Absorbing until the block is full -/

theorem State.absorbUntilFull_completed (vs : List Byte) (s : State) (hr : s.rnd = 0) (hq : s.oq = [])
    (hl : s.latch = { Latch.empty with pend := s.latch.pend }) :
    (s.absorbUntilFull vs).cycleInv ∧
    (s.absorbUntilFull vs).completed =
      { s.absorbBytes vs with micro := .idle, latch := Latch.empty } := by
  induction vs generalizing s with
  | nil =>
    constructor
    · simp only [State.absorbUntilFull, State.cycleInv]
      refine ⟨hr, hq, ?_⟩
      rw [hl]; rfl
    · simp only [State.absorbUntilFull, State.completed, State.absorbBytes_nil]
      rw [hl]; rfl
  | cons v vs ih =>
    rw [State.absorbBytes_cons]
    by_cases h : s.absorbed.val + 1 < 168
    · rw [State.absorbByte_of_lt s v h]
      simp only [State.absorbUntilFull, dif_pos h]
      exact ih _ hr hq hl
    · simp only [State.absorbUntilFull, dif_neg h]
      constructor
      · simp only [State.cycleInv]
        refine ⟨hq, ?_⟩
        rw [hl]
      · simp only [State.completed, State.absorbRest]
        rw [State.finishS_zero _ rfl]
        have h1 : s.absorbByte v =
            { ({ s with S := stXorByte s.S s.absorbed.val v } : State).permuteS with absorbed := 0 } := by
          simp only [State.absorbByte, dif_neg h]
        rw [h1]
        have h2 := State.absorbBytes_with
          { ({ s with S := stXorByte s.S s.absorbed.val v } : State).permuteS with absorbed := 0 }
          vs .absPerm { s.latch with pend := vs } 0 s.freeCtr
        have h3 : ({ s with
              S := stXorByte s.S s.absorbed.val v
              absorbed := 0
              micro := .absPerm
              rnd := 0
              latch := { s.latch with pend := vs } } : State).permuteS =
            { ({ ({ s with S := stXorByte s.S s.absorbed.val v } : State).permuteS with
                absorbed := 0 } : State) with
              micro := .absPerm
              latch := { s.latch with pend := vs }
              rnd := 0
              freeCtr := s.freeCtr } := rfl
        rw [h3, h2]
        obtain ⟨A, a, sc, h4⟩ := State.absorbBytes_update
          { ({ s with S := stXorByte s.S s.absorbed.val v } : State).permuteS with absorbed := 0 } vs
        rw [h4]
        simp [hr]

/-! ### One step of progress -/

theorem State.squeezeRest_with (s : State) (m : Micro) (l : Latch) (r : Fin 24)
    (hl : l.left = s.latch.left) :
    ({ s with micro := m, latch := l, rnd := r } : State).squeezeRest =
      { s.squeezeRest with rnd := r } := by
  have := State.squeezeBytes_with s.latch.left s m l r s.oq s.taken s.freeCtr
  obtain ⟨A, sc, o, h⟩ := State.squeezeBytes_update s.latch.left s
  unfold State.squeezeRest
  dsimp only
  rw [hl, this, h]

theorem State.squeezeRest_micro (s : State) (m : Micro) (r : Fin 24) :
    ({ s with micro := m, rnd := r } : State).squeezeRest = { s.squeezeRest with rnd := r } :=
  State.squeezeRest_with s m s.latch r rfl

theorem State.squeezeRest_same (s : State) (m : Micro) (l : Latch) (hl : l.left = s.latch.left) :
    ({ s with micro := m, latch := l } : State).squeezeRest = s.squeezeRest := by
  have e := State.squeezeRest_with s m l s.rnd hl
  obtain ⟨A, sc, o, h⟩ := State.squeezeBytes_update s.latch.left s
  refine e.trans ?_
  simp only [State.squeezeRest, h]

theorem State.squeezeRest_congr (s t : State)
    (h : State.squeezeBytes s.latch.left t = State.squeezeBytes s.latch.left s)
    (hl : t.latch.left = s.latch.left) (hq : t.oq = s.oq) (hk : t.taken = s.taken) :
    t.squeezeRest = s.squeezeRest := by
  unfold State.squeezeRest
  rw [hl, h, hq, hk]

/-- With the block exhausted, the loop permutes W itself. -/
theorem State.squeezeRest_permuted (s : State) (hf : s.squeezeOff.val = 168) (h0 : s.latch.left ≠ 0) :
    ({ s.permuteW with squeezeOff := 0 } : State).squeezeRest = s.squeezeRest := by
  obtain ⟨n, hn⟩ : ∃ n, s.latch.left = n + 1 := ⟨s.latch.left - 1, by omega⟩
  have e1 : s.squeezeByte = (stByte s.permuteW.W 0, { s.permuteW with squeezeOff := 1 }) := by
    simp only [State.squeezeByte]; rw [dif_neg (by omega)]
  have e2 : ({ s.permuteW with squeezeOff := 0 } : State).squeezeByte =
      (stByte s.permuteW.W 0, { s.permuteW with squeezeOff := 1 }) := rfl
  have e3 : State.squeezeBytes (n + 1) { s.permuteW with squeezeOff := 0 } =
      State.squeezeBytes (n + 1) s := by
    rw [State.squeezeBytes_succ, State.squeezeBytes_succ, e1, e2]
  exact State.squeezeRest_congr _ _ (hn ▸ e3) rfl rfl rfl

theorem State.emitWord_cycleInv (s : State) (hm : s.micro = .sqzOut) (hr : s.rnd = 0)
    (hl : s.latch = { Latch.empty with left := s.latch.left }) : s.emitWord.cycleInv := by
  unfold State.emitWord
  obtain ⟨A, sc, o, h⟩ := State.squeezeBytes_update (min 8 s.latch.left) s
  simp only [h, State.cycleInv, hm]
  refine ⟨hr, ?_, ?_⟩
  · rw [hl]; simp [Latch.empty]
  · rw [hl]; 

/-- Beginning the next word, or a permutation of W, or ending, completes to the same state. -/
theorem State.nextOutput_completed (s : State) (hr : s.rnd = 0) (hq : s.oq = [])
    (hl : s.latch = { Latch.empty with left := s.latch.left }) :
    s.nextOutput.cycleInv ∧ s.nextOutput.completed = s.squeezeRest := by
  unfold State.nextOutput
  by_cases h0 : s.latch.left = 0
  · rw [if_pos h0]
    have hl' : s.latch = Latch.empty := by rw [hl, h0]; rfl
    refine ⟨⟨hr, hq, hl'⟩, ?_⟩
    simp only [State.completed, State.squeezeRest, hl', Latch.empty, State.squeezeBytes_zero, hq,
      outWords_nil, List.append_nil]
  · rw [if_neg h0]
    by_cases hf : s.squeezeOff.val = 168
    · rw [if_pos hf]
      refine ⟨⟨hq, h0, hl⟩, ?_⟩
      simp only [State.completed]
      rw [State.finishW_zero _ rfl]
      have e1 : ({ ({ s with micro := .sqzPerm, rnd := 0 } : State).permuteW with squeezeOff := 0 } : State) =
          { ({ s.permuteW with squeezeOff := 0 } : State) with micro := .sqzPerm, rnd := 0 } := rfl
      rw [e1, State.squeezeRest_micro, State.squeezeRest_permuted s hf h0]
      obtain ⟨A, sc, o, h⟩ := State.squeezeBytes_update s.latch.left s
      simp only [State.squeezeRest, h, hr]
    · rw [if_neg hf]
      have hc := State.emitWord_cycleInv { s with micro := .sqzOut } rfl hr hl
      refine ⟨hc, ?_⟩
      have hm : ({ s with micro := .sqzOut } : State).emitWord.micro = .sqzOut := by
        unfold State.emitWord
        obtain ⟨A, sc, o, h⟩ := State.squeezeBytes_update (min 8 s.latch.left) { s with micro := .sqzOut }
        simp only [h]
      have hcp : ({ s with micro := .sqzOut } : State).emitWord.latch.copy = false := by
        unfold State.emitWord
        obtain ⟨A, sc, o, h⟩ := State.squeezeBytes_update (min 8 s.latch.left) { s with micro := .sqzOut }
        simp only [h]
        rw [hl]; rfl
      simp only [State.completed, hm, hcp]
      have e := State.squeezeRest_emitWord { s with micro := .sqzOut } h0
      have e' := State.squeezeRest_micro s .sqzOut s.rnd
      have : ({ s with micro := .sqzOut, rnd := s.rnd } : State) = { s with micro := .sqzOut } := rfl
      rw [this] at e'
      simp only [Bool.false_eq_true, if_false]
      rw [e, e']
      obtain ⟨A, sc, o, h⟩ := State.squeezeBytes_update s.latch.left s
      simp only [State.squeezeRest, h]

/-- One clock edge of progress keeps the form of the latched work and what the command comes to. -/
theorem State.progress_completed (s : State) (h : s.cycleInv) :
    s.progress.cycleInv ∧ s.progress.completed = s.completed := by
  unfold State.progress
  cases hm : s.micro with
  | idle => exact ⟨h, rfl⟩
  | absorb =>
    simp only [State.cycleInv, hm] at h
    obtain ⟨hr, hq, hl⟩ := h
    obtain ⟨h1, h2⟩ := State.absorbUntilFull_completed s.latch.pend s hr hq hl
    refine ⟨h1, ?_⟩
    rw [h2]; simp only [State.completed, hm, State.absorbRest]
  | absPerm =>
    simp only [State.cycleInv, hm] at h
    obtain ⟨hq, hl⟩ := h
    cases hlast : s.lastClock with
    | false =>
      simp only [Bool.false_eq_true, if_false]
      have hm' : s.clockS.micro = .absPerm := hm
      refine ⟨?_, ?_⟩
      · simp only [State.cycleInv, hm']; exact ⟨hq, hl⟩
      · simp only [State.completed, hm', hm]; rw [State.finishS_clockS s hlast]
    | true =>
      simp only [if_true]
      rw [State.clockS_last s hlast]
      by_cases hp : s.latch.pend = []
      · have hl' : s.latch = Latch.empty := by rw [hl, hp]; rfl
        simp only [hp, List.isEmpty_nil, if_true]
        refine ⟨⟨rfl, hq, hl'⟩, ?_⟩
        simp only [State.completed, hm, State.absorbRest]
        have : s.finishS.latch = Latch.empty := hl'
        rw [this]
        show _ = { s.finishS with micro := .idle, latch := Latch.empty }
        rw [← this]
      · have he : s.latch.pend.isEmpty = false := by simp [hp]
        simp only [he, Bool.false_eq_true, if_false]
        refine ⟨⟨rfl, hq, hl⟩, ?_⟩
        simp only [State.completed, hm, State.absorbRest]
        have := State.absorbBytes_with s.finishS s.finishS.latch.pend .absorb s.finishS.latch 0
          s.finishS.freeCtr
        have e : ({ s.finishS with micro := .absorb } : State) =
            { s.finishS with
              micro := .absorb
              latch := s.finishS.latch
              rnd := 0
              freeCtr := s.finishS.freeCtr } := rfl
        rw [e, this]
        obtain ⟨A, a, sc, h4⟩ := State.absorbBytes_update s.finishS s.finishS.latch.pend
        rw [h4]
        rfl
  | finPerm =>
    simp only [State.cycleInv, hm] at h
    obtain ⟨hr, hq, hl⟩ := h
    cases hp : s.latch.pad with
    | true =>
      simp only [if_true]
      refine ⟨?_, ?_⟩
      · simp only [State.cycleInv, State.padS_micro, hm]
        refine ⟨fun h => by simp at h, hq, ?_⟩
        rw [hl]
      · simp only [State.completed, State.padS_micro, hm, hp, if_true, Bool.false_eq_true, if_false]
        rw [State.finishS_zero _ (by exact hr hp)]
        exact State.squeezeRest_same ({ s.padS.permuteS with finalized := true } : State).loadW
          .finPerm { s.latch with pad := false } rfl
    | false =>
      simp only [Bool.false_eq_true, if_false]
      cases hlast : s.lastClock with
      | false =>
        simp only [Bool.false_eq_true, if_false]
        have hm' : s.clockS.micro = .finPerm := hm
        have hp' : s.clockS.latch.pad = false := hp
        refine ⟨?_, ?_⟩
        · simp only [State.cycleInv, hm']
          exact ⟨fun h => absurd (hp'.symm.trans h) (by decide), hq, hl⟩
        · simp only [State.completed, hm', hm, hp, hp', Bool.false_eq_true, if_false]
          rw [State.finishS_clockS s hlast]
      | true =>
        simp only [if_true]
        rw [State.clockS_last s hlast]
        by_cases h0 : s.latch.left = 0
        · rw [if_pos h0]
          have hl' : s.latch = Latch.empty := by rw [hl, hp, h0]; rfl
          refine ⟨⟨rfl, hq, hl'⟩, ?_⟩
          simp only [State.completed, hm, hp, Bool.false_eq_true, if_false, State.squeezeRest]
          have e : ({ s.finishS with finalized := true } : State).loadW.latch.left = 0 := h0
          rw [e]
          have eo : ({ s.finishS with finalized := true } : State).loadW.oq = [] := hq
          rw [eo]
          simp only [State.squeezeBytes_zero, outWords_nil, List.append_nil]
          have e2 : s.finishS.latch = Latch.empty := hl'
          have e3 : s.finishS.oq = [] := hq
          simp only [State.loadW, e2, e3]
        · rw [if_neg h0]
          refine ⟨⟨rfl, fun _ => hq, ?_⟩, ?_⟩
          · rw [hl, hp]; rfl
          · simp only [State.completed, hm, hp, Bool.false_eq_true, if_false, if_true]
            exact State.squeezeRest_same ({ s.finishS with finalized := true } : State).loadW
              .sqzOut { s.latch with pad := false, copy := true } rfl
  | sqzOut =>
    simp only [State.cycleInv, hm] at h
    obtain ⟨hr, hq, hl⟩ := h
    cases hc : s.latch.copy with
    | true =>
      simp only [if_true]
      obtain ⟨h1, h2⟩ := State.nextOutput_completed
        { s.loadW with latch := { s.latch with copy := false } } hr (hq hc) (by rw [hl]; rfl)
      refine ⟨h1, h2.trans ?_⟩
      simp only [State.completed, hm, hc, if_true]
      exact State.squeezeRest_same s.loadW s.micro { s.latch with copy := false } rfl
    | false =>
      simp only [Bool.false_eq_true, if_false]
      by_cases he : s.oq = []
      · simp only [he, List.isEmpty_nil, if_true]
        obtain ⟨h1, h2⟩ := State.nextOutput_completed s hr he (by rw [hl, hc]; rfl)
        refine ⟨h1, h2.trans ?_⟩
        simp only [State.completed, hm, hc, Bool.false_eq_true, if_false]
      · have : s.oq.isEmpty = false := by simp [he]
        simp only [this, Bool.false_eq_true, if_false]
        refine ⟨?_, trivial⟩
        simp only [State.cycleInv, hm]; exact ⟨hr, hq, hl⟩
  | sqzPerm =>
    simp only [State.cycleInv, hm] at h
    obtain ⟨hq, h0, hl⟩ := h
    cases hlast : s.lastClock with
    | false =>
      simp only [Bool.false_eq_true, if_false]
      have hm' : s.clockW.micro = .sqzPerm := hm
      refine ⟨?_, ?_⟩
      · simp only [State.cycleInv, hm']; exact ⟨hq, h0, hl⟩
      · simp only [State.completed, hm', hm]; rw [State.finishW_clockW s hlast]
    | true =>
      simp only [if_true]
      rw [State.clockW_last s hlast]
      obtain ⟨h1, h2⟩ := State.nextOutput_completed { s.finishW with squeezeOff := 0 } rfl hq hl
      refine ⟨h1, h2.trans ?_⟩
      simp only [State.completed, hm]
  | eng =>
    simp only [State.cycleInv, hm] at h
    obtain ⟨hq, hl⟩ := h
    cases hlast : s.lastClock with
    | false =>
      simp only [Bool.false_eq_true, if_false]
      have hm' : s.clockS.micro = .eng := hm
      refine ⟨?_, ?_⟩
      · simp only [State.cycleInv, hm']; exact ⟨hq, hl⟩
      · simp only [State.completed, hm', hm]; rw [State.finishS_clockS s hlast]
    | true =>
      simp only [if_true]
      rw [State.clockS_last s hlast]
      refine ⟨⟨rfl, hq, hl⟩, ?_⟩
      simp only [State.completed, hm]

/-- The count of edges is no input of what the command comes to. -/
theorem State.completed_freeCtr (s : State) (c : Nat) :
    ({ s with freeCtr := c } : State).completed = { s.completed with freeCtr := c } := by
  have habs : ∀ s : State,
      ({ s with freeCtr := c } : State).absorbRest = { s.absorbRest with freeCtr := c } := by
    intro s
    have := State.absorbBytes_with s s.latch.pend s.micro s.latch s.rnd c
    obtain ⟨A, a, sc, h⟩ := State.absorbBytes_update s s.latch.pend
    simp only [State.absorbRest, this, h]
  have hsqz : ∀ s : State,
      ({ s with freeCtr := c } : State).squeezeRest = { s.squeezeRest with freeCtr := c } := by
    intro s
    have := State.squeezeBytes_with s.latch.left s s.micro s.latch s.rnd s.oq s.taken c
    obtain ⟨A, sc, o, h⟩ := State.squeezeBytes_update s.latch.left s
    simp only [State.squeezeRest, this, h]
  cases hm : s.micro with
  | idle => simp only [State.completed, hm]
  | absorb => simp only [State.completed, hm]; exact hm ▸ habs s
  | absPerm => simp only [State.completed, hm]; exact hm ▸ habs s.finishS
  | finPerm =>
    simp only [State.completed, hm]
    cases s.latch.pad with
    | true => exact hm ▸ hsqz ({ s.padS.permuteS with finalized := true } : State).loadW
    | false => exact hm ▸ hsqz ({ s.finishS with finalized := true } : State).loadW
  | sqzOut =>
    simp only [State.completed, hm]
    cases s.latch.copy with
    | true => exact hm ▸ hsqz s.loadW
    | false => exact hm ▸ hsqz s
  | sqzPerm =>
    simp only [State.completed, hm]
    exact hm ▸ hsqz ({ s.finishW with squeezeOff := 0 } : State)
  | eng => simp only [State.completed, hm]; rfl

/-- Taking a word of OQ changes nothing of what the command comes to. -/
theorem State.takeOutput_completed (s : State) (inp : Inputs) (h : s.cycleInv) :
    (s.takeOutput inp).cycleInv ∧ (s.takeOutput inp).completed = s.completed := by
  unfold State.takeOutput
  split
  · rename_i hv
    have hne : s.oq ≠ [] := by
      intro e; simp [State.oValid, e] at hv
    obtain ⟨w, ws, hw⟩ := List.exists_cons_of_ne_nil hne
    unfold State.cycleInv at h
    cases hm : s.micro with
    | sqzOut =>
      rw [hm] at h
      obtain ⟨hr, hq, hl⟩ := h
      have hc : s.latch.copy = false := by
        cases hc : s.latch.copy with
        | false => rfl
        | true => exact absurd (hq hc) hne
      refine ⟨?_, ?_⟩
      · simp only [State.cycleInv]
        exact ⟨hr, fun h => absurd (hc.symm.trans h) (by decide), hl⟩
      · simp only [State.completed, hm, hc, Bool.false_eq_true, if_false]
        have := State.squeezeBytes_with s.latch.left s s.micro s.latch s.rnd ws (s.taken ++ [w]) s.freeCtr
        obtain ⟨A, sc, o, hu⟩ := State.squeezeBytes_update s.latch.left s
        simp only [State.squeezeRest]
        simp only [hw, List.tail_cons, List.head?_cons, Option.toList_some]
        rw [hm] at this
        rw [this, hu]
        simp
    | idle => rw [hm] at h; exact absurd h.2.1 hne
    | absorb => rw [hm] at h; exact absurd h.2.1 hne
    | absPerm => rw [hm] at h; exact absurd h.1 hne
    | finPerm => rw [hm] at h; exact absurd h.2.1 hne
    | sqzPerm => rw [hm] at h; exact absurd h.1 hne
    | eng => rw [hm] at h; exact absurd h.1 hne
  · exact ⟨h, rfl⟩

/-- An edge on which the environment presents nothing keeps what the command in progress comes to. -/
theorem State.edge_completed (s : State) (inp : Inputs) (hr : inp.rstN = true) (hs : inp.sValid = false)
    (he : inp.eValid = false) (hp : inp.eRspReady = false) (h : s.cycleInv) :
    ∃ t, s.edge beginCommand inp = .next t ∧ t.cycleInv ∧
      t.completed = { s.completed with freeCtr := s.freeCtr + 1 } := by
  have h0 : ({ s with freeCtr := s.freeCtr + 1 } : State).cycleInv := h
  obtain ⟨h1, h2⟩ := State.takeOutput_completed _ inp h0
  have e1 : ({ s with freeCtr := s.freeCtr + 1 } : State).takeTransfers inp =
      ({ s with freeCtr := s.freeCtr + 1 } : State).takeOutput inp := by
    simp [State.takeTransfers, State.takeResponse, hp]
  have h2 := h2.trans (State.completed_freeCtr s (s.freeCtr + 1))
  cases hb : s.busy with
  | true =>
    obtain ⟨h3, h4⟩ := State.progress_completed _ h1
    refine ⟨_, ?_, h3, h4.trans h2⟩
    simp [State.edge, hr, hb, e1]
  | false =>
    refine ⟨_, ?_, h1, h2⟩
    simp [State.edge, hr, hb, hs, he, e1]

/-- Starting a command comes to what the transaction-level machine does at once. -/
theorem beginCommand_completed (i : Instr) (s t u : State) (h : s.idleBlock) (ht : exec i s = .next t)
    (hu : beginCommand i s = .next u) :
    u.cycleInv ∧ u.completed = { t with oq := [], taken := s.taken ++ t.oq, micro := .idle } := by
  obtain ⟨hm, hl, hr, hq⟩ := h
  -- a command that is complete at once, and leaves no output word
  have same : ∀ v : State, u = v → t = v → v.micro = .idle → v.rnd = 0 → v.oq = [] → v.taken = s.taken →
      v.latch = Latch.empty →
      u.cycleInv ∧ u.completed = { t with oq := [], taken := s.taken ++ t.oq, micro := .idle } := by
    rintro v rfl rfl hm hr hq hk hl
    refine ⟨by simp only [State.cycleInv, hm]; exact ⟨hr, hq, hl⟩, ?_⟩
    simp only [State.completed, hm]
    rw [hq, List.append_nil, ← hk, ← hm, ← hq]
  have next : ∀ {a b : State}, (Host.Outcome.next a : Outcome) = .next b → b = a := by
    rintro a b h; cases h; rfl
  cases i with
  | sReset => exact same _ (next hu) (next ht) hm hr hq rfl hl
  | sErrclr => exact same _ (next hu) (next ht) hm hr hq rfl hl
  | eReset => exact same _ (next hu) (next ht) hm hr hq rfl hl
  | eXorb off value =>
    have e : u = t := by
      have := hu.symm.trans ht
      exact (next this.symm)
    simp only [exec, execEXorb] at ht
    split at ht <;> exact same _ (e.trans (next ht)) (next ht) hm hr hq rfl hl
  | eXor off nb data =>
    have e : u = t := by
      have := hu.symm.trans ht
      exact (next this.symm)
    simp only [exec, execEXor] at ht
    split at ht
    · split at ht <;> exact same _ (e.trans (next ht)) (next ht) hm hr hq rfl hl
    · exact same _ (e.trans (next ht)) (next ht) hm hr hq rfl hl
  | eExtract off nb =>
    have e : u = t := by
      have := hu.symm.trans ht
      exact (next this.symm)
    simp only [exec, execEExtract] at ht
    split at ht
    · split at ht <;> exact same _ (e.trans (next ht)) (next ht) hm hr hq rfl hl
    · exact same _ (e.trans (next ht)) (next ht) hm hr hq rfl hl
  | ePermute =>
    have hu := next hu
    have ht := next ht
    subst hu ht
    refine ⟨⟨hq, hl⟩, ?_⟩
    simp only [State.completed]
    rw [State.finishS_zero _ rfl]
    simp only [State.respond, State.permuteS, hq, hr, List.append_nil]
  | sAbsorb nb data =>
    simp only [exec, execSAbsorb] at ht
    simp only [beginCommand, beginSAbsorb, execSAbsorb] at hu
    cases hn : legalCount nb with
    | false =>
      rw [hn] at ht hu
      simp only [Bool.false_and, Bool.false_eq_true, if_false] at ht hu
      exact same _ (next hu) (next ht) hm hr hq rfl hl
    | true =>
      rw [hn] at ht hu
      cases hf : s.finalized with
      | true =>
        rw [hf] at ht hu
        simp only [Bool.not_true, Bool.and_false, Bool.false_eq_true, if_false, if_true] at ht hu
        exact same _ (next hu) (next ht) hm hr hq rfl hl
      | false =>
        rw [hf] at ht hu
        simp only [Bool.not_false, Bool.and_true, Bool.false_eq_true, if_false, if_true] at ht hu
        have hu := next hu
        have ht := next ht
        subst hu ht
        obtain ⟨h1, h2⟩ := State.absorbUntilFull_completed (dataBytes nb.toNat data) s hr hq (by rw [hl])
        refine ⟨h1, h2.trans ?_⟩
        obtain ⟨A, a, sc, h⟩ := State.absorbBytes_update s (dataBytes nb.toNat data)
        rw [h]
        simp [hq, hl]
  | sDigest len =>
    have ht := next ht
    simp only [beginCommand, beginSDigest] at hu
    -- what the squeeze and the squeeze of the rest have in common
    have sq : ∀ (v : State) (m : Micro) (l : Latch), v.latch = Latch.empty → v.oq = [] → v.taken = s.taken →
        l.left = len.toNat →
        ({ v with micro := m, latch := l } : State).loadW.squeezeRest =
          { v.squeeze len.toNat with
            oq := [], taken := s.taken ++ (v.squeeze len.toNat).oq, micro := .idle } := by
      intro v m l hvl hvq hvk hll
      have := State.squeezeBytes_with len.toNat v.loadW m l v.rnd v.oq v.taken v.freeCtr
      have e : ({ v with micro := m, latch := l } : State).loadW =
        { v.loadW with micro := m, latch := l, rnd := v.rnd, oq := v.oq, taken := v.taken, freeCtr := v.freeCtr } := rfl
      obtain ⟨A, sc, o, h⟩ := State.squeezeBytes_update len.toNat v.loadW
      simp only [State.squeezeRest, e, hll, this, State.squeeze, h]
      simp [hvl, hvk]
    by_cases hf : s.finalized = true
    · rw [if_pos hf] at hu ht
      by_cases h0 : len.toNat = 0
      · rw [if_pos h0] at hu
        have hu := next hu
        rw [if_pos hf] at hu
        refine same _ hu ht ?_ ?_ ?_ ?_ ?_ <;>
          simp only [State.squeeze, h0, State.squeezeBytes_zero, outWords_nil, List.append_nil, if_true]
        · exact hm
        · exact hr
        · exact hq
        · rfl
        · exact hl
      · rw [if_neg h0] at hu
        have hu := next hu
        subst hu ht
        refine ⟨⟨hr, fun _ => hq, by rw [hl]⟩, ?_⟩
        simp only [State.completed, if_true]
        exact sq s _ _ hl hq rfl rfl
    · rw [if_neg hf] at hu ht
      have hu := next hu
      subst hu ht
      refine ⟨⟨fun _ => rfl, hq, by rw [hl]⟩, ?_⟩
      simp only [State.completed, if_true]
      refine Eq.trans ?_ (sq s.finalize .finPerm { s.latch with pad := true, left := len.toNat } hl hq rfl rfl)
      congr 1
      simp only [State.finalize, State.loadW, State.permuteS, State.padS, hr]

end Sys2Proof.Machine
end

