-- ==== Sys2Proof/Laws/Decode.lean ====
section
/-! SUPPORT. Laws of command words: the fields of a word built from fields, and a word from its fields. -/

namespace Sys2Proof

section Fields

variable (op nb : BitVec 4) (off : BitVec 8) (rsv : BitVec 16) (arg : BitVec 64)

/-- Bit z of a word built from its fields (R45). -/
theorem CommandWord.ofFields_getLsbD (z : Nat) :
    (CommandWord.ofFields op nb off rsv arg).getLsbD z =
      if z < 4 then op.getLsbD z
      else if z < 8 then nb.getLsbD (z - 4)
      else if z < 16 then off.getLsbD (z - 8)
      else if z < 32 then rsv.getLsbD (z - 16)
      else arg.getLsbD (z - 32) := by
  unfold CommandWord.ofFields
  simp only [BitVec.getLsbD_append]
  by_cases h4 : z < 4
  · simp [h4, show z < 32 by omega, show z < 16 by omega, show z < 8 by omega]
  · by_cases h8 : z < 8
    · simp [h4, h8, show z < 32 by omega, show z < 16 by omega]
    · by_cases h16 : z < 16
      · simp [h4, h8, h16, show z < 32 by omega]
      · by_cases h32 : z < 32
        · simp [h4, h8, h16, h32]
        · simp [h4, h8, h16, h32]

@[simp] theorem CommandWord.ofFields_op :
    CommandWord.op (CommandWord.ofFields op nb off rsv arg) = op := by
  apply BitVec.eq_of_getLsbD_eq
  intro z hz
  simp [CommandWord.op, CommandWord.ofFields_getLsbD, hz]

@[simp] theorem CommandWord.ofFields_nb :
    CommandWord.nb (CommandWord.ofFields op nb off rsv arg) = nb := by
  apply BitVec.eq_of_getLsbD_eq
  intro z hz
  have h1 : ¬ 4 + z < 4 := by omega
  have h2 : 4 + z < 8 := by omega
  simp [CommandWord.nb, CommandWord.ofFields_getLsbD, hz, h1, h2]

@[simp] theorem CommandWord.ofFields_off :
    CommandWord.off (CommandWord.ofFields op nb off rsv arg) = off := by
  apply BitVec.eq_of_getLsbD_eq
  intro z hz
  have h1 : ¬ 8 + z < 4 := by omega
  have h2 : ¬ 8 + z < 8 := by omega
  have h3 : 8 + z < 16 := by omega
  simp [CommandWord.off, CommandWord.ofFields_getLsbD, hz, h1, h2, h3]

@[simp] theorem CommandWord.ofFields_rsv :
    CommandWord.rsv (CommandWord.ofFields op nb off rsv arg) = rsv := by
  apply BitVec.eq_of_getLsbD_eq
  intro z hz
  have h1 : ¬ 16 + z < 4 := by omega
  have h2 : ¬ 16 + z < 8 := by omega
  have h3 : ¬ 16 + z < 16 := by omega
  have h4 : 16 + z < 32 := by omega
  simp [CommandWord.rsv, CommandWord.ofFields_getLsbD, hz, h1, h2, h3, h4]

@[simp] theorem CommandWord.ofFields_data :
    CommandWord.data (CommandWord.ofFields op nb off rsv arg) = arg := by
  apply BitVec.eq_of_getLsbD_eq
  intro z hz
  have h1 : ¬ 32 + z < 4 := by omega
  have h2 : ¬ 32 + z < 8 := by omega
  have h3 : ¬ 32 + z < 16 := by omega
  have h4 : ¬ 32 + z < 32 := by omega
  simp [CommandWord.data, CommandWord.ofFields_getLsbD, hz, h1, h2, h3, h4]

@[simp] theorem CommandWord.ofFields_len :
    CommandWord.len (CommandWord.ofFields op nb off rsv arg) = arg.setWidth 32 := by
  apply BitVec.eq_of_getLsbD_eq
  intro z hz
  have h1 : ¬ 32 + z < 4 := by omega
  have h2 : ¬ 32 + z < 8 := by omega
  have h3 : ¬ 32 + z < 16 := by omega
  have h4 : ¬ 32 + z < 32 := by omega
  simp [CommandWord.len, CommandWord.ofFields_getLsbD, hz, h1, h2, h3, h4]

@[simp] theorem CommandWord.ofFields_argHi :
    CommandWord.argHi (CommandWord.ofFields op nb off rsv arg) = arg.extractLsb' 32 32 := by
  apply BitVec.eq_of_getLsbD_eq
  intro z hz
  have h1 : ¬ 64 + z < 4 := by omega
  have h2 : ¬ 64 + z < 8 := by omega
  have h3 : ¬ 64 + z < 16 := by omega
  have h4 : ¬ 64 + z < 32 := by omega
  have h5 : 64 + z - 32 = 32 + z := by omega
  simp [CommandWord.argHi, CommandWord.ofFields_getLsbD, hz, h1, h2, h3, h4, h5]

end Fields

/-- A word is given by its fields: no bit lies outside them (R45). -/
theorem CommandWord.eq_ofFields (cw : CommandWord) :
    cw = CommandWord.ofFields cw.op cw.nb cw.off cw.rsv cw.data := by
  apply BitVec.eq_of_getLsbD_eq
  intro z hz
  rw [CommandWord.ofFields_getLsbD]
  simp only [CommandWord.op, CommandWord.nb, CommandWord.off, CommandWord.rsv, CommandWord.data,
    BitVec.getLsbD_extractLsb']
  by_cases h4 : z < 4
  · simp [h4]
  · by_cases h8 : z < 8
    · simp [h4, h8, show z - 4 < 4 by omega, show 4 + (z - 4) = z by omega]
    · by_cases h16 : z < 16
      · simp [h4, h8, h16, show z - 8 < 8 by omega, show 8 + (z - 8) = z by omega]
      · by_cases h32 : z < 32
        · simp [h4, h8, h16, h32, show z - 16 < 16 by omega, show 16 + (z - 16) = z by omega]
        · simp [h4, h8, h16, h32, show z - 32 < 64 by omega, show 32 + (z - 32) = z by omega]

/-- ARG_HI is 0 exactly when ARG is LEN, widened. -/
theorem CommandWord.data_of_argHi_zero (cw : CommandWord) (h : cw.argHi = 0) :
    cw.data = (CommandWord.len cw).setWidth 64 := by
  apply BitVec.eq_of_getLsbD_eq
  intro z hz
  simp only [CommandWord.data, CommandWord.len, BitVec.getLsbD_extractLsb', BitVec.getLsbD_setWidth,
    hz, decide_true, Bool.true_and]
  by_cases h32 : z < 32
  · simp [h32]
  · have := congrArg (fun v : BitVec 32 => v.getLsbD (z - 32)) h
    simp only [CommandWord.argHi, BitVec.getLsbD_extractLsb'] at this
    rw [show 64 + (z - 32) = 32 + z by omega] at this
    simp [show z - 32 < 32 by omega] at this
    simp [h32, this]

end Sys2Proof
end

