-- ==== Sys2Proof/Laws/PerInstr.lean ====
section
/-! SUPPORT. Facts about every command as syntax, one lemma for each constructor. -/

namespace Sys2Proof.Laws

/-- Of every command: a well-formed one is what its port's decoder reads from its word. -/
def RoundTrip.Statement (i : Instr) : Prop := i.wf = true → decode i.port (encode i) = .ok i

theorem RoundTrip.sReset : RoundTrip.Statement .sReset := by
  intro _; decide

theorem RoundTrip.sAbsorb (nb : BitVec 4) (data : BitVec 64) :
    RoundTrip.Statement (.sAbsorb nb data) := by
  intro h
  simp only [Instr.wf, decide_eq_true_eq] at h
  simp [Instr.port, decode, decodeS, encode, ifByteCount, ifUnusedZero, h]

theorem RoundTrip.sDigest (len : BitVec 32) : RoundTrip.Statement (.sDigest len) := by
  intro _
  have h : (len.setWidth 64).extractLsb' 32 32 = 0#32 := by
    apply BitVec.eq_of_getLsbD_eq
    intro z hz
    simp
  simp [Instr.port, decode, decodeS, encode, ifUnusedZero, h]

theorem RoundTrip.sErrclr : RoundTrip.Statement .sErrclr := by
  intro _; decide

theorem RoundTrip.eReset : RoundTrip.Statement .eReset := by
  intro _; decide

theorem RoundTrip.eXorb (off : BitVec 8) (value : BitVec 64) :
    RoundTrip.Statement (.eXorb off value) := by
  intro _
  simp [Instr.port, decode, decodeE, encode, ifUnusedZero]

theorem RoundTrip.eXor (off : BitVec 8) (nb : BitVec 4) (data : BitVec 64) :
    RoundTrip.Statement (.eXor off nb data) := by
  intro h
  simp only [Instr.wf, decide_eq_true_eq] at h
  simp [Instr.port, decode, decodeE, encode, ifByteCount, h]

theorem RoundTrip.eExtract (off : BitVec 8) (nb : BitVec 4) :
    RoundTrip.Statement (.eExtract off nb) := by
  intro h
  simp only [Instr.wf, decide_eq_true_eq] at h
  simp [Instr.port, decode, decodeE, encode, ifByteCount, ifUnusedZero, h]

theorem RoundTrip.ePermute : RoundTrip.Statement .ePermute := by
  intro _; decide

end Sys2Proof.Laws
end

