-- ==== Sys2Proof/Tests/Slice0.lean ====
section
/-! SUPPORT. Tests: ill-formed terms are refused; words written out from the spec's encoding; one or two steps
for each command, with the expected values of spec/95_test_vectors.md; and, for each statement with
hypotheses, a concrete state and operands that meet them. -/

namespace Sys2Proof.Tests

open Sys2Proof.Machine

/-! ### Helpers -/

/-- A block with the E-port, right after rst_n. -/
def blockE : State := State.resetOf { unroll := .one, engineTestPort := true }

/-- A block in the given phase with the given `absorbed`. -/
def blockAt (absorbed : Fin 168) (finalized : Bool) : State :=
  { blockE with absorbed := absorbed, finalized := finalized }

/-- A word of eight bytes that is not the last. -/
def wordA : OutWord := { data := 0x7D828FE8A42B9C7F, nb := 8, last := false }

/-- The last word of a digest. -/
def wordB : OutWord := { data := 0x3E, nb := 1, last := true }

/-- A block that hands out the words of a digest. -/
def blockOut : State :=
  { blockE with finalized := true, squeezeOff := 9, micro := .sqzOut, oq := [wordA, wordB] }

/-- A block that holds a response. -/
def blockHeld : State := { blockE with rsp := some { code := .ok, data := 5 } }

/-- The host presents a word on the S-port. -/
def putS (cw : CommandWord) : Inputs := { Inputs.quiet with sValid := true, sCw := cw }

/-- The requester presents a word on the E-port. -/
def putE (cw : CommandWord) : Inputs := { Inputs.quiet with eValid := true, eCw := cw }

/-- The edge asserts rst_n. -/
def inReset : Inputs := { Inputs.quiet with rstN := false }

/-- A fact about the next state. -/
def check (o : Outcome) (p : State → Bool) : Bool :=
  match o with
  | .next t => p t
  | .fault _ => false
  | .refused _ => false

/-- The step on one word of the table, from reset. -/
def stepOn (w : Nat) : Outcome := step (State.reset.withFetchWord 96 w)

/-! ### Ill-formed terms (R46, R49, R50) -/

theorem test_wf_absorb_nine : (Instr.sAbsorb 9 0).wf = false ∧ (Instr.sAbsorb 8 0).wf = true := by decide

theorem test_wf_xor_nine : (Instr.eXor 0 9 0).wf = false ∧ (Instr.eXor 255 8 0).wf = true := by decide

theorem test_wf_extract_fifteen :
    (Instr.eExtract 0 15).wf = false ∧ (Instr.eExtract 200 0).wf = true := by decide

/-! ### Decoding: words written out bit by bit from R45 to R50 -/

theorem test_decode_sReset : decodeTableWord 96 0b0001 = some .sReset := by decide

/-- ARG, then RSV = 0, OFF = 0, NB = 3, OP = 2: `S.ABSORB "abc"` (R56). -/
theorem test_decode_sAbsorb :
    decodeTableWord 96 ((((((0x636261 * 2 ^ 16 + 0) * 2 ^ 8) + 0) * 2 ^ 4 + 3) * 2 ^ 4) + 2) =
      some (.sAbsorb 3 0x636261) := by decide

/-- LEN = 32: `00000000_00000020_00000003` (R58). -/
theorem test_decode_sDigest : decodeTableWord 96 0x0000002000000003 = some (.sDigest 32) := by decide

theorem test_decode_sErrclr : decodeTableWord 96 0b0100 = some .sErrclr := by decide

theorem test_decode_eReset : decodeTableWord 96 0b1000 = some .eReset := by decide

/-- `E.XORB 3, 0x1FF`: `00000000_000001FF_00000309` (R58). -/
theorem test_decode_eXorb : decodeTableWord 96 0x000001FF00000309 = some (.eXorb 3 0x1FF) := by decide

/-- ARG = 0x11111111, OFF = 196, NB = 4, OP = 10 (R59). -/
theorem test_decode_eXor :
    decodeTableWord 96 ((((0x11111111 * 2 ^ 16 + 0) * 2 ^ 8 + 196) * 2 ^ 4 + 4) * 2 ^ 4 + 10) =
      some (.eXor 196 4 0x11111111) := by decide

/-- `E.EXTRACT 0, 8`: `00000000_00000000_0000008B` (R59). -/
theorem test_decode_eExtract : decodeTableWord 96 0x8B = some (.eExtract 0 8) := by decide

theorem test_decode_ePermute : decodeTableWord 96 0b1100 = some .ePermute := by decide

/-- The illegal words of V-S4 to V-S7, V-S3 and section 2.7, each rejected by name. -/
theorem test_decode_illegal :
    decodeS 0x0000000100000001 = .error .unusedFieldNonzero ∧
    decodeS 0x000000010000000000000003 = .error .unusedFieldNonzero ∧
    decodeS 0x102 = .error .unusedFieldNonzero ∧ decodeS 0x80000002 = .error .reservedNonzero ∧
    decodeS 0x92 = .error .byteCountAboveEight ∧ decodeS 0x8 = .error .unassignedOpcode ∧
    decodeE 0xFA9A = .error .byteCountAboveEight ∧ decodeE 0xF = .error .unassignedOpcode ∧
    decodeE 0x000000010001001A = .error .reservedNonzero ∧ decodeE 0x3 = .error .unassignedOpcode := by
  decide

/-- The opcode table's rows do not overlap: a word of one is a word of no other of the same port. -/
theorem test_rows_disjoint :
    opcodeRows.Pairwise fun r q =>
      r.port ≠ q.port ∨ r.word &&& (r.mask &&& q.mask) ≠ q.word &&& (r.mask &&& q.mask) := by
  decide

/-- A quoted string, an operand too wide, a missing operand (R56). -/
theorem test_assemble :
    assemble "S.ABSORB \"abc\"".toList = some (.sAbsorb 3 0x636261) ∧
    assemble "E.XORB 256, 0".toList = none ∧ assemble "S.DIGEST".toList = none := by decide

/-! ### Single steps (95_test_vectors.md) -/

/-- V-S4: an illegal S.RESET resets nothing. -/
theorem test_sReset_illegal :
    check (acceptS exec 0x0000000100000001 { blockAt 3 false with S := Lanes.zero.set 0 0x636261 })
      (fun t => t.status == 0x00000308 && t.S[0] == 0x636261) = true := by decide +kernel

theorem test_sReset : check (stepOn 0x1) (fun t => t.status == 0 && t.S == Lanes.zero) = true := by
  decide +kernel

/-- A response taken on the edge that accepts S.RESET is handed over (R80), and an empty register stays
empty. -/
theorem test_sReset_held_response :
    check (blockE.edge exec (putS 1)) (fun t => t.rsp == none && t.responses == []) = true ∧
    check (blockHeld.edge exec { putS 1 with eRspReady := true })
      (fun t => t.rsp == none && t.responses == [{ code := .ok, data := 5 }]) = true := by
  decide +kernel

/-- Section 3, P1: `S.ABSORB "abc"` from reset. -/
theorem test_sAbsorb_abc :
    check (stepOn 0x0063626100000032) (fun t => t.status == 0x00000300 && t.S[0] == 0x636261) = true := by
  decide +kernel

/-- V-S2, V-S3: in the Squeezable phase ERR_UAF, but ERR_ILL where NB = 9. -/
theorem test_sAbsorb_rejected :
    check (acceptS exec 0x02 (blockAt 0 true)) (fun t => t.status == 0x00000006 && t.errO) = true ∧
    check (acceptS exec 0x92 (blockAt 0 true)) (fun t => t.status == 0x0000000A) = true := by
  decide +kernel

/-- P1: `S.DIGEST 32` after "abc" gives the four words of SHAKE128("abc", 32). -/
theorem test_sDigest_abc :
    check (exec (.sDigest 32) { blockAt 3 false with S := Lanes.zero.set 0 0x636261 })
      (fun t => t.oq.map (fun w => w.data) ==
          [0x5CBF18D82D098158, 0xA7CBFB93B7DDA3F8, 0x5FD3A626C5D59740, 0xC82C0F945133B897] &&
        t.oq.map (fun w => w.last) == [false, false, false, true] && t.busy &&
        t.settle.status == 0x00200302) = true := by
  decide +kernel

/-- V-S14: with S zeroed in the Squeezable phase, a digest of 8 bytes is one zero word. -/
theorem test_sDigest_squeezable :
    check (exec (.sDigest 8) (blockAt 0 true))
      (fun t => t.oq == [{ data := 0, nb := 8, last := true }] &&
        t.settle.status == 0x00080002) = true := by
  decide +kernel

/-- Section 2.5: STATUS 0x00100606 becomes 0x00100602. -/
theorem test_sErrclr :
    check (exec .sErrclr { blockAt 6 true with squeezeOff := 16, errUaf := true })
      (fun t => t.status == 0x00100602 && !t.errO) = true := by decide +kernel

theorem test_eReset :
    check (exec .eReset { blockAt 3 true with S := Lanes.zero.set 24 7 })
      (fun t => t.S == Lanes.zero && t.status == 0x00000302 &&
        t.rsp == some { code := .ok, data := 0 }) = true := by
  decide +kernel

/-- R84: only the low 8 bits of 0x1FF; 2.7: offset 200 is EngineRange. -/
theorem test_eXorb :
    check (stepOn 0x000001FF00000309)
      (fun t => t.S[0] == 0xFF000000 && t.rsp == some { code := .ok, data := 0 }) = true ∧
    check (stepOn 0x000000010000C809)
      (fun t => t.rsp == some { code := .engineRange, data := 0 }) = true := by
  decide +kernel

/-- Section 2.7: eight bytes from offset 4 span two lanes. -/
theorem test_eXor_two_lanes :
    check (stepOn 0x08070605040302010000048A)
      (fun t => t.S[0] == 0x0403020100000000 && t.S[1] == 0x0000000008070605) = true := by decide +kernel

/-- Section 2.7: all or nothing; legality before range; the edge of the range. -/
theorem test_eXor_range :
    check (stepOn 0xFFFFFFFFFFFFFFFF0000C48A)
      (fun t => t.S == Lanes.zero && t.rsp == some { code := .engineRange, data := 0 }) = true ∧
    check (exec (.eXor 250 9 0) blockE)
      (fun t => t.rsp == some { code := .illegalCommand, data := 0 }) = true ∧
    check (stepOn 0xC80A) (fun t => t.rsp == some { code := .ok, data := 0 }) = true ∧
    check (stepOn 0xC90A) (fun t => t.rsp == some { code := .engineRange, data := 0 }) = true := by
  decide +kernel

/-- Section 2.7: `E.EXTRACT 6, 3`, upper bytes 0; P5: `E.EXTRACT 200, 0`. -/
theorem test_eExtract :
    check (exec (.eExtract 6 3)
        { blockE with S := (Lanes.zero.set 0 0x0403020100000000).set 1 0x0000000008070605 })
      (fun t => t.rsp == some { code := .ok, data := 0x050403 }) = true ∧
    check (stepOn 0xC80B) (fun t => t.rsp == some { code := .ok, data := 0 }) = true := by
  decide +kernel

/-- V-KF1: lanes 0, 12 and 24 of Keccak-f of the zero state, by a step on E.PERMUTE. -/
theorem test_ePermute :
    check (stepOn 0xC)
      (fun t => t.S[0] == 0xF1258F7940E1DDE7 && t.S[12] == 0x81A57C16DBCF555F &&
        t.S[24] == 0xEAF1FF7B5CECA249) = true := by
  decide +kernel

/-! ### The end of a run (R151, R156, R164) -/

/-- A word presented while BUSY = 1 is not accepted, so the run that presents it has not ended. -/
theorem test_run_goes_on_until_accepted :
    check ({ blockOut with oq := [wordB] }.edge exec { putS 4 with oReady := true })
      (fun t => !t.busy && t.oq.isEmpty && !t.runEnded [(.sponge, 4)] && t.runEnded []) = true ∧
    check (blockE.edge exec (putS 4))
      (fun t => t.runEnded [(.sponge, 4)] && !t.runEnded []) = true := by
  decide +kernel

/-- After rst_n the observation is that of the new run; the word taken before stays in the run cut short. -/
theorem test_rst_starts_a_new_run :
    check ({ blockOut with oq := [wordB], taken := [wordA] }.edge exec inReset)
      (fun t => t.observation == { status := 0, outputs := [], responses := [] } &&
        t.pastRuns == [{ accepted := [], taken := [wordA], responses := [] }]) = true := by
  decide +kernel

/-! ### Witnesses: the hypotheses of the statements can be met -/

theorem witness_DecodeOfEncodeIsIdentity :
    (Instr.sAbsorb 8 0xFFFFFFFFFFFFFFFF).wf = true ∧ (Instr.eExtract 255 0).wf = true := by decide

/-- Also of DecoderAcceptsExactlyLegalWords. -/
theorem witness_EncodeOfDecodeIsIdentity :
    decode .sponge 0xFFFFFFFFFFFFFFFF00000082 = .ok (.sAbsorb 8 0xFFFFFFFFFFFFFFFF) ∧
    decode .engine 0x0000FF0B = .ok (.eExtract 255 0) ∧ legal .sponge 0x92 = false := by decide

theorem witness_IllegalWordsOfEachPort :
    CommandWord.rsv 0x00010001 ≠ 0 ∧ CommandWord.op 0x10 = 0 ∧ 5 ≤ (CommandWord.op 0x5).toNat ∧
    (CommandWord.op 0x7).toNat ≤ 7 ∧ 13 ≤ (CommandWord.op 0xD).toNat ∧
    8 < (CommandWord.nb 0x92).toNat ∧ legalS 0x1 = true := by decide

theorem witness_IllegalWordsOnlyRecordTheError : legalS 0 = false ∧ legalE 0xFA9A = false := by decide

theorem witness_RotateLeftMovesBits :
    (0 < 64 ∧ 63 < 64) ∧ (1 ≤ 1 ∧ 63 ≤ 63) ∧ rotl64 0x8000000000000001 63 = 0xC000000000000000 ∧
    rotl64 0x8000000000000001 0 = 0x8000000000000001 := by decide

theorem witness_RhoThenPiMovesRotatedLanes : piTable[(24 : Fin 25)] = piTable[(24 : Fin 25)] := by decide

theorem witness_FoldedDatapathComputesKeccakF :
    23 < permuteCycles .one ∧ 0 < permuteCycles .twentyFour := by decide

theorem witness_ByteXorChangesOneByte : 199 < 200 ∧ 0 < 200 := by decide

theorem witness_MultiByteAccess : 8 ≤ 8 ∧ 192 + 8 ≤ 200 ∧ 0 ≤ 8 ∧ 200 + 0 ≤ 200 := by decide

theorem witness_SResetRestoresFreshContext :
    blockE.busy = false ∧ exec .sReset blockE = .next { blockE with S := Lanes.zero } ∧ blockE.rsp = none ∧
    CommandWord.op 0x1 = 1 ∧ CommandWord.op 0x0000000100000001 = 1 := ⟨rfl, rfl, rfl, rfl, rfl⟩

/-- Below, at and across the end of the rate block; the Squeezable phase; a legal and an illegal word. -/
theorem witness_SAbsorbXorsAndPermutes :
    (8 : BitVec 4).toNat ≤ 8 ∧ (blockAt 159 false).finalized = false ∧
    (blockAt 159 false).absorbed.val + (8 : BitVec 4).toNat < 168 ∧
    168 ≤ (blockAt 160 false).absorbed.val + (8 : BitVec 4).toNat ∧
    168 ≤ (blockAt 167 false).absorbed.val + (8 : BitVec 4).toNat ∧
    (blockAt 167 true).finalized = true ∧ CommandWord.op 0x82 = 2 ∧ CommandWord.op 0x92 = 2 := by
  decide

theorem witness_SAbsorbTouchesOnlyItsBytes :
    (7 : BitVec 4).toNat ≤ 8 ∧ (blockAt 160 false).finalized = false ∧
    (blockAt 160 false).absorbed.val + (7 : BitVec 4).toNat < 168 ∧
    (∃ t, exec (.sAbsorb 7 0) (blockAt 160 false) = .next t) ∧
    (∀ k, k < (7 : BitVec 4).toNat → byteOf 0 k = byteOf 0xFF00000000000000 k) :=
  ⟨by decide, rfl, by decide, exec_completes _ _, by decide⟩

/-- A legal and an illegal word. -/
theorem witness_SDigestLegalInBothPhases :
    CommandWord.op 0xFFFFFFFF00000003 = 3 ∧ CommandWord.nb 0xFFFFFFFF00000003 = 0 ∧
    CommandWord.off 0xFFFFFFFF00000003 = 0 ∧ CommandWord.rsv 0xFFFFFFFF00000003 = 0 ∧
    CommandWord.argHi 0xFFFFFFFF00000003 = 0 ∧
    CommandWord.op 0x000000010000000000000003 = 3 ∧ CommandWord.argHi 0x000000010000000000000003 ≠ 0 := by
  decide

/-- The last word of 9 bytes, and the only word of 8. -/
theorem witness_OutputWordsCarryTheBytes :
    (outWords [1, 2, 3, 4, 5, 6, 7, 8, 9])[1]? = some { data := 9, nb := 1, last := true } ∧
    ∃ o, (outWords ((List.range 8).map fun j => stByte (keccakFTimes (j / 168) Lanes.zero) (j % 168)))[0]?
        = some o ∧ 8 * 0 + 8 ≤ 8 := by
  refine ⟨by decide, ?_⟩
  rw [List.getElem?_eq_getElem (by simp)]
  exact ⟨_, rfl, by decide⟩

theorem witness_PaddingBytes :
    (blockAt 167 false).absorbed.val = 167 ∧ (blockAt 166 false).absorbed.val < 167 ∧ 199 < 200 := by
  decide

theorem witness_SErrclrClearsErrorFlags :
    exec .sErrclr blockE = .next blockE ∧ CommandWord.op 0x4 = 4 ∧ CommandWord.op 0x14 = 4 :=
  ⟨rfl, rfl, rfl⟩

theorem witness_RejectedAbsorbIsNotFatal :
    (0 : BitVec 4).toNat ≤ 8 ∧ (8 : BitVec 4).toNat ≤ 8 ∧ (blockAt 5 true).finalized = true := by decide

/-- "abc" as one command and as three, one of them empty. -/
theorem witness_StreamingEquivalence :
    let cs : List (BitVec 4 × BitVec 64) := [(3, 0x636261)]
    let ds : List (BitVec 4 × BitVec 64) := [(1, 0xFF61), (0, 0), (2, 0x6362)]
    (∀ c ∈ cs, c.1.toNat ≤ 8) ∧ (∀ d ∈ ds, d.1.toNat ≤ 8) ∧ (blockAt 167 false).finalized = false ∧
    (cs.flatMap fun c => dataBytes c.1.toNat c.2) = (ds.flatMap fun d => dataBytes d.1.toNat d.2) := by
  intro cs ds
  refine ⟨by simp [cs], by simp [ds], rfl, ?_⟩
  simp [cs, ds, dataBytes, List.range_succ]
  decide

theorem witness_StreamingEquivalence_hash :
    (∀ c ∈ ([(3, 0x636261), (0, 0)] : List (BitVec 4 × BitVec 64)), c.1.toNat ≤ 8) ∧
    blockE.S = Lanes.zero ∧ blockE.absorbed = 0 ∧ blockE.finalized = false ∧ blockE.oq = [] :=
  ⟨by simp, rfl, rfl, rfl, rfl⟩

theorem witness_RepeatedDigestIsIdempotent :
    blockE.oq = [] ∧ (0 : BitVec 32).toNat ≤ (0xFFFFFFFF : BitVec 32).toNat ∧
    ∀ i ∈ [Instr.sAbsorb 2 0, .sErrclr, .sDigest 7], i.port = .sponge ∧ i ≠ .sReset := by decide

theorem witness_ShorterHashIsPrefix :
    blockE.oq = [] ∧ (0 : BitVec 32).toNat ≤ (0xFFFFFFFF : BitVec 32).toNat := by decide

theorem witness_DigestIsShake128OfMessage :
    (∀ c ∈ ([(8, 1), (0, 0)] : List (BitVec 4 × BitVec 64)), c.1.toNat ≤ 8) ∧ blockE.S = Lanes.zero ∧
    blockE.absorbed = 0 ∧ blockE.finalized = false ∧ blockE.oq = [] :=
  ⟨by simp, rfl, rfl, rfl, rfl⟩

theorem witness_UpdateAbsorbsItsBytes :
    (blockAt 167 false).finalized = false ∧ (blockAt 0 true).finalized = true := by decide

theorem witness_EResetZeroesState : CommandWord.op 0x8 = 8 ∧ CommandWord.op 0x108 = 8 := by decide

theorem witness_EXorbChangesOneByte :
    (199 : BitVec 8).toNat < 200 ∧ 200 ≤ (200 : BitVec 8).toNat ∧ CommandWord.op 0xC809 = 9 ∧
    CommandWord.op 0x19 = 9 := by decide

theorem witness_EXorIsAllOrNothing :
    (8 : BitVec 4).toNat ≤ 8 ∧ (192 : BitVec 8).toNat + (8 : BitVec 4).toNat ≤ 200 ∧
    (200 : BitVec 8).toNat + (0 : BitVec 4).toNat ≤ 200 ∧
    200 < (193 : BitVec 8).toNat + (8 : BitVec 4).toNat ∧
    200 < (201 : BitVec 8).toNat + (0 : BitVec 4).toNat ∧ CommandWord.op 0xFA9A = 0xA ∧
    CommandWord.op 0x8A = 0xA := by decide

theorem witness_EExtractReadsBytes :
    (8 : BitVec 4).toNat ≤ 8 ∧ (192 : BitVec 8).toNat + (8 : BitVec 4).toNat ≤ 200 ∧
    200 < (193 : BitVec 8).toNat + (8 : BitVec 4).toNat ∧ CommandWord.op 0x8B = 0xB ∧
    CommandWord.op 0x9B = 0xB := by decide

theorem witness_EPermuteAppliesKeccakF : CommandWord.op 0xC = 0xC ∧ CommandWord.op 0x1C = 0xC := by decide

/-- NB = 9 in either phase and at offset 250 (R136); legal words refused for the phase and for the range. -/
theorem witness_LegalityIsCheckedFirst :
    8 < (CommandWord.nb 0x92).toNat ∧ legalS 0x92 = false ∧ (blockAt 0 true).finalized = true ∧
    legalS 0x82 = true ∧ CommandWord.op 0x82 = 2 ∧ legalE 0xFA9A = false ∧
    legalE 0xC809 = true ∧ CommandWord.op 0xC809 = 9 ∧ 200 ≤ (CommandWord.off 0xC809).toNat ∧
    legalE 0xC18A = true ∧ CommandWord.op 0xC18A = 0xA ∧
    200 < (CommandWord.off 0xC18A).toNat + (CommandWord.nb 0xC18A).toNat := by decide

/-- The largest string that fits and the smallest that does not; both expansions. -/
theorem witness_EnginePseudoCommands :
    xorBytesCommands 192 [1, 2, 3, 4, 5, 6, 7, 8, 9] = none ∧
    xorBytesCommands 191 [1, 2, 3, 4, 5, 6, 7, 8, 9] =
      some [.eXor 191 8 0x0807060504030201, .eXor 199 1 9] ∧
    extractBytesCommands 200 0 = some [.eExtract 200 0] ∧ blockE.rsp = none := by decide

theorem witness_FinalizeIsEngineTraffic : (blockAt 167 false).finalized = false := by decide

/-- A presented word, a held response, and a block without the E-port. -/
theorem witness_PortsShowQueueAndResponse :
    Inputs.quiet.rstN = true ∧ blockOut.oq = wordA :: [wordB] ∧
    blockHeld.build.engineTestPort = true ∧ blockHeld.rsp = some { code := .ok, data := 5 } ∧
    State.reset.build.engineTestPort = false ∧ inReset.rstN = false := by decide

/-- A legal and an illegal word on the S-port of an idle block; nothing presented; nothing driven. -/
theorem witness_StepRunsSPortCommand :
    let s (cw : CommandWord) : State := { blockHeld with inputs := [putS cw] }
    (s 0x82).inputs = putS 0x82 :: [] ∧ (s 0x82).idleBlock ∧ (putS 0x82).rstN = true ∧
    (putS 0x82).sValid = true ∧ decodeS (putS 0x82).sCw = .ok (.sAbsorb 8 0) ∧
    decodeS (putS 0x92).sCw = .error .byteCountAboveEight ∧
    Inputs.quiet.rstN = true ∧ Inputs.quiet.sValid = false ∧ Inputs.quiet.eValid = false ∧
    blockE.inputs = [] ∧ blockE.idleBlock :=
  ⟨rfl, ⟨rfl, rfl, rfl, rfl⟩, rfl, rfl, by decide, by decide, rfl, rfl, rfl, rfl, ⟨rfl, rfl, rfl, rfl⟩⟩

/-- The same on the E-port; and a held response, and a block without the E-port. -/
theorem witness_StepRunsEPortCommand :
    let s (cw : CommandWord) : State := { blockE with inputs := [putE cw] }
    (s 0xC).inputs = putE 0xC :: [] ∧ (s 0xC).idleBlock ∧ (s 0xC).rsp = none ∧
    (s 0xC).build.engineTestPort = true ∧ (putE 0xC).rstN = true ∧ (putE 0xC).sValid = false ∧
    (putE 0xC).eValid = true ∧ decodeE (putE 0xC).eCw = .ok .ePermute ∧
    decodeE (putE 0x1C).eCw = .error .unusedFieldNonzero ∧
    blockHeld.rsp ≠ none ∧ blockHeld.idleBlock ∧ State.reset.build.engineTestPort = false ∧
    State.reset.idleBlock :=
  ⟨rfl, ⟨rfl, rfl, rfl, rfl⟩, rfl, rfl, rfl, rfl, rfl, by decide, by decide, by decide,
    ⟨rfl, rfl, rfl, rfl⟩, rfl, ⟨rfl, rfl, rfl, rfl⟩⟩

/-- The word with every free bit set. -/
theorem witness_PlacedWordRunsNext :
    0xFFFFFFFFFFFFFFFF0000FF8A < 2 ^ 96 ∧
    decodeTableWord 96 0xFFFFFFFFFFFFFFFF0000FF8A = some (.eXor 255 8 0xFFFFFFFFFFFFFFFF) := by decide

/-- Also of UntakenOutputHangsBlock and TakingAllWordsCompletesDigest. -/
theorem witness_OutputWordsLeaveInOrder :
    blockOut.micro = .sqzOut ∧ blockOut.latch = Latch.empty ∧ blockOut.oq = wordA :: [wordB] ∧
    (putS 1).rstN = true ∧ (putS 1).oReady = false ∧
    ({ putS 1 with oReady := true } : Inputs).oReady = true := by decide

theorem witness_UntakenOutputHangsBlock :
    blockOut.micro = .sqzOut ∧ blockOut.latch = Latch.empty ∧ blockOut.oq ≠ [] ∧
    ∀ inp ∈ [putS 1, putE 8], inp.rstN = true ∧ inp.oReady = false := by decide

theorem witness_TakingAllWordsCompletesDigest :
    blockOut.micro = .sqzOut ∧ blockOut.latch = Latch.empty ∧ blockOut.oq ≠ [] := by decide

/-- Both words on one edge; a host that keeps s_valid at 1; no test port; a held response. -/
theorem witness_EPortWaits :
    blockHeld.idleBlock ∧ ({ putS 1 with eValid := true, eCw := 8 } : Inputs).rstN = true ∧
    ({ putS 1 with eValid := true, eCw := 8 } : Inputs).sValid = true ∧
    (∀ inp ∈ [putS 1, putS 4], inp.sValid = true) ∧ State.reset.build.engineTestPort = false ∧
    (blockHeld.rsp ≠ none ∧ ∀ inp ∈ [putE 8, putS 4], inp.eRspReady = false ∧ inp.rstN = true ∧
      (inp.sValid = true → decodeS inp.sCw ≠ .ok .sReset)) :=
  ⟨⟨rfl, rfl, rfl, rfl⟩, rfl, rfl, by decide, rfl, by decide⟩

theorem witness_RstEdgeResetsBlock :
    inReset.rstN = false ∧ ∃ e, (blockOut.outputs inReset).engine = some e := ⟨rfl, _, rfl⟩

/-- With and without a held response. -/
theorem witness_SResetEqualsRst : blockE.idleBlock ∧ blockHeld.idleBlock :=
  ⟨⟨rfl, rfl, rfl, rfl⟩, ⟨rfl, rfl, rfl, rfl⟩⟩

/-- Each flag set and then cleared, and each cleared and then set. -/
theorem witness_ErrorFlagsAreSticky :
    check ({ blockE with errUaf := true, errIll := true }.edge exec (putS 4))
      (fun t => !t.errUaf && !t.errIll) = true ∧
    check ((blockAt 0 true).edge exec (putS 2)) (fun t => t.errUaf) = true ∧
    check (blockE.edge exec (putS 0)) (fun t => t.errIll) = true := by decide +kernel

/-- The phase is left by S.RESET; S.DIGEST enters it from a state between commands. -/
theorem witness_PhaseTransitions :
    (blockAt 0 true).atBoundary = true ∧
    check ((blockAt 0 true).edge exec (putS 1)) (fun t => !t.finalized) = true ∧
    (blockAt 0 false).atBoundary = true ∧
    ∃ t, (blockAt 0 false).edge exec (putS 3) = .next t ∧ t.finalized = true :=
  ⟨by decide, by decide +kernel, by decide, _, rfl, rfl⟩

theorem witness_StatusShowsState : blockOut.busy = true ∧ (blockAt 167 true).busy = false := by decide

/-- A word accepted on each port, and an output word and a response taken. -/
theorem witness_EveryTransferIsRecordedOnce :
    (putS 4).rstN = true ∧
    check (blockE.edge exec (putS 4)) (fun t => t.accepted == [(.sponge, 4)]) = true ∧
    check (blockE.edge beginCommand (putE 0xC)) (fun t => t.accepted == [(.engine, 0xC)]) = true ∧
    check (blockOut.edge exec { Inputs.quiet with oReady := true }) (fun t => t.taken == [wordA]) = true ∧
    check (blockHeld.edge exec { Inputs.quiet with eRspReady := true })
      (fun t => t.responses == [{ code := .ok, data := 5 }] && t.rsp == none) = true := by
  decide +kernel

theorem witness_BuildParametersAreFixed :
    (∃ t, step State.reset = .next t) ∧ ∃ t, cycleStep blockOut = .next t := ⟨⟨_, rfl⟩, ⟨_, rfl⟩⟩

/-- Each fault recorded for the first time, with its response. -/
theorem witness_PortFaultsAreNeverCleared :
    blockE.portFaults.illegal = false ∧ blockE.portFaults.range = false ∧ blockE.rsp = none ∧
    blockE.busy = false ∧
    check (blockE.edge exec (putE 0)) (fun t => t.portFaults.illegal) = true ∧
    check (blockE.edge exec (putE 0xC809)) (fun t => t.portFaults.range) = true ∧
    ({ blockE with portFaults := { illegal := true, range := true } } : State).portFaults.illegal = true := by
  decide +kernel

/-- A state that hands out words meets the invariant and steps. -/
theorem witness_StepKeepsInvariant :
    blockOut.inv = true ∧ blockHeld.inv = true ∧ ∃ t, step blockOut = .next t :=
  ⟨by decide, by decide, _, rfl⟩

theorem witness_WorkingStorageIsUnobservable :
    blockOut.atBoundary = true ∧ blockE.atBoundary = true := by decide

/-- E.PERMUTE at the highest UNROLL: one edge carries it to IDLE. -/
theorem witness_CycleMachineRefinesTransaction :
    let s : State := State.resetOf { unroll := .twentyFour, engineTestPort := true }
    s.idleBlock ∧ (∃ t, exec .ePermute s = .next t) ∧
    (∀ inp ∈ [Inputs.quiet], inp.rstN = true ∧ inp.sValid = false ∧ inp.eValid = false ∧
      inp.eRspReady = false) ∧
    ∃ u₀ u, beginCommand .ePermute s = .next u₀ ∧ u₀.edges beginCommand [Inputs.quiet] = .next u ∧
      u.busy = false :=
  ⟨⟨rfl, rfl, rfl, rfl⟩, exec_completes _ _, by decide, _, _, rfl, rfl, rfl⟩

theorem witness_CycleMachineMeetsTimingTable :
    blockE.idleBlock ∧ (∃ u₀, beginCommand (.sDigest 0) blockE = .next u₀) ∧
    25 ≤ busyCycles blockE (.sDigest 0) := ⟨⟨rfl, rfl, rfl, rfl⟩, ⟨_, rfl⟩, by decide⟩

end Sys2Proof.Tests
end

/-! ### Shared rules for edges: the edge of a step, its transfers, and everything an edge can do -/

namespace Sys2Proof.Machine

/-! #### The S-port's decoder -/

/-- R49, read at the decoder: it accepts every word for which LegalS holds. -/
theorem decodeS_of_legalS {cw : CommandWord} (h : legalS cw = true) : ∃ i, decodeS cw = .ok i := by
  simp only [legalS, Bool.and_eq_true, Bool.or_eq_true, beq_iff_eq, decide_eq_true_eq] at h
  obtain ⟨⟨hrsv, hoff⟩, ((⟨⟨hop, hnb⟩, hd⟩ | ⟨hop, hnb⟩) | ⟨⟨hop, hnb⟩, hd⟩) | ⟨⟨hop, hnb⟩, hd⟩⟩ := h
  · exact ⟨.sReset, by simp [decodeS, ifUnusedZero, hrsv, hoff, hop, hnb, hd]⟩
  · exact ⟨.sAbsorb cw.nb cw.data, by simp [decodeS, ifByteCount, ifUnusedZero, hrsv, hoff, hop, hnb]⟩
  · exact ⟨.sDigest cw.len, by simp [decodeS, ifUnusedZero, hrsv, hoff, hop, hnb, hd]⟩
  · exact ⟨.sErrclr, by simp [decodeS, ifUnusedZero, hrsv, hoff, hop, hnb, hd]⟩

theorem legalS_of_decodeS_error {cw : CommandWord} {e : DecodeError} (h : decodeS cw = .error e) :
    legalS cw = false := by
  by_contra hl
  obtain ⟨i, hi⟩ := decodeS_of_legalS (Bool.eq_true_of_not_eq_false hl)
  rw [h] at hi
  cases hi

theorem ifUnusedZero_ok {z : Bool} {i j : Instr} (h : ifUnusedZero z i = .ok j) : j = i := by
  unfold ifUnusedZero at h
  split at h
  · exact (Except.ok.inj h).symm
  · cases h

theorem ifByteCount_ok {nb : BitVec 4} {r : Except DecodeError Instr} {j : Instr}
    (h : ifByteCount nb r = .ok j) : nb.toNat ≤ 8 ∧ r = .ok j := by
  unfold ifByteCount at h
  split at h
  · exact ⟨‹_›, h⟩
  · cases h

/-- The S-port's decoder gives well-formed commands only. -/
theorem decodeS_wf {cw : CommandWord} {i : Instr} (h : decodeS cw = .ok i) : i.wf = true := by
  unfold decodeS at h
  split at h
  · split at h
    · rw [ifUnusedZero_ok h]; rfl
    · obtain ⟨hnb, h⟩ := ifByteCount_ok h
      rw [ifUnusedZero_ok h]
      exact decide_eq_true hnb
    · rw [ifUnusedZero_ok h]; rfl
    · rw [ifUnusedZero_ok h]; rfl
    · cases h
  · cases h

/-! #### The edge of a step, and its transfers -/

/-- The next edge has the inputs that the environment drives next, or none. -/
theorem State.nextEdge_eq (run : Instr → State → Outcome) (s : State) :
    s.nextEdge run =
      { s with inputs := s.inputs.tail }.edge run (s.inputs.headD Inputs.quiet) := by
  unfold State.nextEdge
  cases hs : s.inputs with
  | nil => simp only [List.tail_nil, List.headD_nil]; rw [← hs]
  | cons inp rest => rfl

/-- The transfers of an edge without rst_n, as one update. -/
theorem State.transferred_eq (s : State) (inp : Inputs) (hr : inp.rstN = true) :
    s.transferred inp = { s with
      freeCtr := s.freeCtr + 1
      oq := if inp.oReady then s.oq.tail else s.oq
      taken := s.taken ++ (if inp.oReady then s.oq.head?.toList else [])
      rsp := if s.build.engineTestPort && inp.eRspReady then none else s.rsp
      responses := s.responses ++
        (if s.build.engineTestPort && inp.eRspReady then s.rsp.toList else []) } := by
  unfold State.transferred State.takeTransfers
  rw [State.takeResponse_eq _ _ hr, State.takeOutput_eq _ _ hr]

section Transferred

variable (s : State) (inp : Inputs)

/-- The transfers of an edge change OQ, the response register, the records and the count of edges. -/
theorem State.transferred_update :
    ∃ q k r l, s.transferred inp =
      { s with freeCtr := s.freeCtr + 1, oq := q, taken := k, rsp := r, responses := l } :=
  State.takeTransfers_update _ _

@[simp] theorem State.transferred_build : (s.transferred inp).build = s.build := by
  obtain ⟨_, _, _, _, h⟩ := s.transferred_update inp; rw [h]
@[simp] theorem State.transferred_finalized : (s.transferred inp).finalized = s.finalized := by
  obtain ⟨_, _, _, _, h⟩ := s.transferred_update inp; rw [h]
@[simp] theorem State.transferred_squeezeOff : (s.transferred inp).squeezeOff = s.squeezeOff := by
  obtain ⟨_, _, _, _, h⟩ := s.transferred_update inp; rw [h]
@[simp] theorem State.transferred_errUaf : (s.transferred inp).errUaf = s.errUaf := by
  obtain ⟨_, _, _, _, h⟩ := s.transferred_update inp; rw [h]
@[simp] theorem State.transferred_errIll : (s.transferred inp).errIll = s.errIll := by
  obtain ⟨_, _, _, _, h⟩ := s.transferred_update inp; rw [h]
@[simp] theorem State.transferred_micro : (s.transferred inp).micro = s.micro := by
  obtain ⟨_, _, _, _, h⟩ := s.transferred_update inp; rw [h]
@[simp] theorem State.transferred_rnd : (s.transferred inp).rnd = s.rnd := by
  obtain ⟨_, _, _, _, h⟩ := s.transferred_update inp; rw [h]
@[simp] theorem State.transferred_latch : (s.transferred inp).latch = s.latch := by
  obtain ⟨_, _, _, _, h⟩ := s.transferred_update inp; rw [h]

variable (hr : inp.rstN = true)
include hr

/-- OQ after the transfers: all of it, or without its first word. -/
theorem State.transferred_oq_cases :
    (s.transferred inp).oq = s.oq ∨ (s.transferred inp).oq = s.oq.tail := by
  rw [s.transferred_eq inp hr]
  cases inp.oReady
  · exact .inl rfl
  · exact .inr rfl

/-- The response register after the transfers: as it was, or empty. -/
theorem State.transferred_rsp_cases :
    (s.transferred inp).rsp = s.rsp ∨ (s.transferred inp).rsp = none := by
  rw [s.transferred_eq inp hr]
  cases s.build.engineTestPort && inp.eRspReady
  · exact .inl rfl
  · exact .inr rfl

end Transferred

/-! #### What progress of a command keeps -/

/-- The build parameters and the error flags stand in the second state as they do in the first. -/
def State.SameBuildAndFlags (s t : State) : Prop :=
  t.build = s.build ∧ t.errUaf = s.errUaf ∧ t.errIll = s.errIll

theorem State.absorbUntilFull_buildAndFlags (s : State) (vs : List Byte) :
    s.SameBuildAndFlags (s.absorbUntilFull vs) := by
  induction vs generalizing s with
  | nil => exact ⟨rfl, rfl, rfl⟩
  | cons v vs ih =>
    simp only [State.absorbUntilFull]
    split
    · exact ih _
    · exact ⟨rfl, rfl, rfl⟩

theorem State.emitWord_buildAndFlags (s : State) : s.SameBuildAndFlags s.emitWord := by
  obtain ⟨A, sc, o, h⟩ := State.squeezeBytes_update (min 8 s.latch.left) s
  simp only [State.SameBuildAndFlags, State.emitWord, h, and_self]

theorem State.nextOutput_buildAndFlags (s : State) : s.SameBuildAndFlags s.nextOutput := by
  unfold State.nextOutput
  split
  · exact ⟨rfl, rfl, rfl⟩
  · split
    · exact ⟨rfl, rfl, rfl⟩
    · exact State.emitWord_buildAndFlags { s with micro := .sqzOut }

/-- Progress of a command changes no build parameter and no error flag. -/
theorem State.progress_buildAndFlags (s : State) : s.SameBuildAndFlags s.progress := by
  unfold State.progress
  cases s.micro with
  | idle => exact ⟨rfl, rfl, rfl⟩
  | absorb => exact s.absorbUntilFull_buildAndFlags s.latch.pend
  | absPerm => dsimp only; split <;> exact ⟨rfl, rfl, rfl⟩
  | finPerm =>
    dsimp only
    split
    · exact ⟨rfl, rfl, rfl⟩
    · split
      · split <;> exact ⟨rfl, rfl, rfl⟩
      · exact ⟨rfl, rfl, rfl⟩
  | sqzOut =>
    dsimp only
    split
    · exact State.nextOutput_buildAndFlags { s.loadW with latch := { s.latch with copy := false } }
    · split
      · exact s.nextOutput_buildAndFlags
      · exact ⟨rfl, rfl, rfl⟩
  | sqzPerm =>
    dsimp only
    split
    · exact State.nextOutput_buildAndFlags { s.clockW with squeezeOff := 0 }
    · exact ⟨rfl, rfl, rfl⟩
  | eng => dsimp only; split <;> exact ⟨rfl, rfl, rfl⟩

/-- A block that only waits for its words to be taken goes to IDLE once they are (R111). -/
theorem State.progress_of_waiting (s : State) (hm : s.micro = .sqzOut) (hl : s.latch = Latch.empty) :
    s.progress = { s with micro := if s.oq = [] then .idle else .sqzOut } := by
  have hcopy : s.latch.copy = false := by rw [hl]; rfl
  have hleft : s.latch.left = 0 := by rw [hl]; rfl
  by_cases hq : s.oq = []
  · simp [State.progress, State.nextOutput, hm, hcopy, hleft, hq]
  · simp only [State.progress, hm, hcopy, List.isEmpty_iff, hq, if_false, Bool.false_eq_true]
    rw [← hm]

/-! #### Between commands -/

/-- Between commands the block is idle, or it waits for the words of an S.DIGEST to be taken. -/
theorem State.atBoundary_iff (s : State) :
    s.atBoundary = true ↔ s.latch = Latch.empty ∧ s.rnd = 0 ∧
      ((s.micro = .idle ∧ s.oq = []) ∨ (s.micro = .sqzOut ∧ s.oq ≠ [])) := by
  simp [State.atBoundary, and_assoc]

/-- Between commands a busy block is one that waits for its words to be taken. -/
theorem State.micro_of_boundary_busy {s : State} (h : s.atBoundary = true) (hb : s.busy = true) :
    s.micro = .sqzOut := by
  obtain ⟨-, -, ⟨hm, -⟩ | ⟨hm, -⟩⟩ := s.atBoundary_iff.mp h
  · simp [State.busy, hm] at hb
  · exact hm

/-- BUSY = 0 exactly in IDLE (R23). -/
theorem State.busy_eq_false_iff (s : State) : s.busy = false ↔ s.micro = .idle := by
  simp [State.busy]

/-- Between commands no output word waits while BUSY = 0 (R25). -/
theorem State.oq_of_boundary_idle {s : State} (h : s.atBoundary = true) (hb : s.busy = false) :
    s.oq = [] := by
  have hidle := s.busy_eq_false_iff.mp hb
  obtain ⟨-, -, ⟨-, hq⟩ | ⟨hm, -⟩⟩ := s.atBoundary_iff.mp h
  · exact hq
  · rw [hidle] at hm; cases hm

/-! #### Everything a command can do -/

/-- Squeezing as one update; `squeezeBytes_loadW` says which bytes, which W and which `squeeze_off`. -/
theorem State.squeeze_eq (s : State) (n : Nat) :
    s.squeeze n =
      { s with
        W := (State.squeezeBytes n s.loadW).2.W
        scratch := (State.squeezeBytes n s.loadW).2.scratch
        squeezeOff := (State.squeezeBytes n s.loadW).2.squeezeOff
        oq := s.oq ++ outWords (State.squeezeBytes n s.loadW).1
        micro := if n = 0 then s.micro else .sqzOut } := by
  obtain ⟨A, sc, o, h⟩ := State.squeezeBytes_update n s.loadW
  simp only [State.squeeze, h]
  rfl

/-- Everything a legal S-port command can do, with what it leaves open of the values it computes. -/
inductive SpongeEffect (s : State) : Instr → State → Prop
  /-- S.RESET (R103). -/
  | reset : SpongeEffect s .sReset
      { s with S := Lanes.zero, absorbed := 0, finalized := false, squeezeOff := 0, errUaf := false,
               errIll := false, rsp := s.rspAfterReset }
  /-- S.ABSORB in the Absorbing phase (R104). -/
  | absorb (nb : BitVec 4) (data : BitVec 64) (A : Lanes) (a : Fin 168) (sc : Scratch)
      (hf : s.finalized = false) :
      SpongeEffect s (.sAbsorb nb data) { s with S := A, absorbed := a, scratch := sc }
  /-- S.ABSORB in the Squeezable phase (R131). -/
  | lateAbsorb (nb : BitVec 4) (data : BitVec 64) (hf : s.finalized = true) :
      SpongeEffect s (.sAbsorb nb data) { s with errUaf := true }
  /-- S.DIGEST (R106), with its output bytes. -/
  | digest (len : BitVec 32) (A B : Lanes) (sc : Scratch) (o : Fin 169) (out : List Byte)
      (hout : out.length = len.toNat) :
      SpongeEffect s (.sDigest len)
        { s with S := A, W := B, scratch := sc, finalized := true, squeezeOff := o,
                 oq := s.oq ++ outWords out,
                 micro := if len.toNat = 0 then s.micro else .sqzOut }
  /-- S.ERRCLR (R114). -/
  | errclr : SpongeEffect s .sErrclr { s with errUaf := false, errIll := false }

theorem exec_spongeEffect {i : Instr} {s t : State} (hp : i.port = .sponge) (hw : i.wf = true)
    (h : exec i s = .next t) : SpongeEffect s i t := by
  cases i with
  | sReset => cases h; exact .reset
  | sErrclr => cases h; exact .errclr
  | sAbsorb nb data =>
    have hnb : legalCount nb = true := hw
    simp only [exec, execSAbsorb, hnb, if_true] at h
    cases hf : s.finalized with
    | true => rw [hf] at h; cases h; exact .lateAbsorb nb data hf
    | false =>
      rw [hf] at h
      cases h
      rw [State.absorbBytes_frame]
      exact .absorb nb data _ _ _ hf
  | sDigest len =>
    simp only [exec, execSDigest, State.squeeze_eq] at h
    cases hf : s.finalized with
    | true =>
      rw [hf, if_pos rfl] at h
      cases h
      have := SpongeEffect.digest (s := s) len s.S
        (State.squeezeBytes len.toNat s.loadW).2.W (State.squeezeBytes len.toNat s.loadW).2.scratch
        (State.squeezeBytes len.toNat s.loadW).2.squeezeOff
        (State.squeezeBytes len.toNat s.loadW).1 (State.squeezeBytes_length _ _)
      rwa [← hf] at this
    | false =>
      simp only [hf, State.finalize_eq] at h
      cases h
      exact .digest len _ _ _ _ _ (State.squeezeBytes_length _ _)
  | eReset => cases hp
  | eXorb off value => cases hp
  | eXor off nb data => cases hp
  | eExtract off nb => cases hp
  | ePermute => cases hp

/-- A response carries data only with code 0 (R53). -/
def Response.wf (r : Response) : Prop := r.code = .ok ∨ r.data = 0

/-- What an E-port word can do to the block: it changes S, the scratch storage and the response register at
most, and leaves exactly one response; the model's record of faults goes with it (R80, R92). -/
def EngineEffect (s t : State) : Prop :=
  ∃ A sc r f, Response.wf r ∧ t = { s with S := A, scratch := sc, rsp := some r, portFaults := f }

theorem EngineEffect.respond_ok (s : State) (A : Lanes) (sc : Scratch) (data : BitVec 64) :
    EngineEffect s ({ s with S := A, scratch := sc }.respond .ok data) :=
  ⟨A, sc, _, _, .inl rfl, rfl⟩

theorem EngineEffect.raise_engineRange (s : State) : EngineEffect s (s.raise .engineRange) :=
  ⟨s.S, s.scratch, _, _, .inr rfl, rfl⟩

theorem EngineEffect.raise_illegalCommandE (s : State) : EngineEffect s (s.raise .illegalCommandE) :=
  ⟨s.S, s.scratch, _, _, .inr rfl, rfl⟩

/-- An E-port command answers code 0, or it raises an error (R81). -/
theorem exec_engineEffect {i : Instr} {s t : State} (hp : i.port = .engine)
    (h : exec i s = .next t) : EngineEffect s t := by
  cases i with
  | eReset => cases h; exact .respond_ok s _ s.scratch 0
  | eXorb off value =>
    simp only [exec, execEXorb] at h
    split at h <;> cases h
    · exact .respond_ok s _ s.scratch 0
    · exact .raise_engineRange s
  | eXor off nb data =>
    simp only [exec, execEXor] at h
    split at h
    · split at h <;> cases h
      · exact .respond_ok s _ s.scratch 0
      · exact .raise_engineRange s
    · cases h; exact .raise_illegalCommandE s
  | eExtract off nb =>
    simp only [exec, execEExtract] at h
    split at h
    · split at h <;> cases h
      · exact .respond_ok s s.S s.scratch _
      · exact .raise_engineRange s
    · cases h; exact .raise_illegalCommandE s
  | ePermute => cases h; exact .respond_ok s s.permuteS.S s.permuteS.scratch 0
  | sReset => cases hp
  | sAbsorb nb data => cases hp
  | sDigest len => cases hp
  | sErrclr => cases hp

theorem acceptE_engineEffect {cw : CommandWord} {s t : State} (h : acceptE exec cw s = .next t) :
    EngineEffect s t := by
  unfold acceptE at h
  split at h
  next i hd => exact exec_engineEffect (decodeE_port hd) h
  next => cases h; exact .raise_illegalCommandE s

/-! #### Everything an edge of the transaction-level machine can do -/

/-- What an edge can do, one case for each thing that can happen on it. -/
inductive EdgeEffect (s : State) (inp : Inputs) : State → Prop
  /-- rst_n = 0 (R151). -/
  | rst (hr : inp.rstN = false) : EdgeEffect s inp { s with freeCtr := s.freeCtr + 1 }.rstEdge
  /-- The command in progress goes on. -/
  | progress (hr : inp.rstN = true) (hb : s.busy = true) :
      EdgeEffect s inp (s.transferred inp).progress
  /-- A command is accepted on the S-port. -/
  | command (hr : inp.rstN = true) (hb : s.busy = false) (hv : inp.sValid = true) {i : Instr} {t : State}
      (hd : decodeS inp.sCw = .ok i)
      (he : SpongeEffect ((s.transferred inp).recordAccepted .sponge inp.sCw) i t) :
      EdgeEffect s inp t
  /-- An illegal word is accepted on the S-port (R132). -/
  | illegal (hr : inp.rstN = true) (hb : s.busy = false) (hv : inp.sValid = true)
      (hl : legalS inp.sCw = false) :
      EdgeEffect s inp { (s.transferred inp).recordAccepted .sponge inp.sCw with errIll := true }
  /-- A word is accepted on the E-port. -/
  | engine (hr : inp.rstN = true) (hb : s.busy = false) (hp : s.build.engineTestPort = true) {t : State}
      (he : EngineEffect ((s.transferred inp).recordAccepted .engine inp.eCw) t) :
      EdgeEffect s inp t
  /-- No word is accepted. -/
  | quiet (hr : inp.rstN = true) (hb : s.busy = false) : EdgeEffect s inp (s.transferred inp)

theorem State.edgeEffect {s t : State} {inp : Inputs} (h : s.edge exec inp = .next t) :
    EdgeEffect s inp t := by
  rcases s.edge_cases exec inp with ⟨hr, e⟩ | ⟨hr, hb, e⟩ | ⟨hr, hb, hv, e⟩ |
    ⟨hr, hb, -, -, hp, -, e⟩ | ⟨hr, hb, -, -, e⟩ <;> rw [e] at h
  · cases h; exact .rst hr
  · cases h; exact .progress hr hb
  · unfold acceptS at h
    split at h
    next i hd => exact .command hr hb hv hd (exec_spongeEffect (decodeS_port hd) (decodeS_wf hd) h)
    next e hd => cases h; exact .illegal hr hb hv (legalS_of_decodeS_error hd)
  · exact .engine hr hb hp (acceptE_engineEffect h)
  · cases h; exact .quiet hr hb

end Sys2Proof.Machine

/-! ### O55, O56: the invariant of the transaction-level machine -/

namespace Sys2Proof.Machine

/-! #### Output words of one S.DIGEST (R52) -/

theorem queueWf_cons_of_ne_nil {w : OutWord} {ws : List OutWord} (h : ws ≠ []) :
    queueWf (w :: ws) = (!w.last && decide (w.nb = 8) && queueWf ws) := by
  cases ws with
  | nil => exact absurd rfl h
  | cons v vs => rfl

/-- What is left once the first word is taken has the form that the whole had. -/
theorem queueWf_tail {ws : List OutWord} (h : queueWf ws = true) : queueWf ws.tail = true := by
  match ws with
  | [] => rfl
  | [_] => rfl
  | _ :: v :: vs =>
    rw [queueWf_cons_of_ne_nil (List.cons_ne_nil v vs)] at h
    exact (Bool.and_eq_true_iff.mp h).2

theorem outWords_eq_nil_iff {out : List Byte} : outWords out = [] ↔ out.length = 0 := by
  rw [← List.length_eq_zero_iff, outWords_length]
  omega

/-- The words of an S.DIGEST have their form, by induction on the output eight bytes at a time. -/
theorem queueWf_outWords (out : List Byte) : queueWf (outWords out) = true := by
  by_cases hnil : out = []
  · rw [hnil]; rfl
  · rw [outWords_cons out hnil]
    have hpos : 0 < out.length := List.length_pos_of_ne_nil hnil
    by_cases hlast : out.length ≤ 8
    · rw [List.drop_eq_nil_of_le hlast, outWords_nil, Nat.min_eq_right hlast]
      have hdata := littleEndian_lt out.length hlast fun k => out.getD k 0#8
      have hone : 1 ≤ out.length := hpos
      simp only [queueWf, hone, hlast, hdata, decide_true, Bool.and_self]
    · have hrest : outWords (out.drop 8) ≠ [] := by
        rw [Ne, outWords_eq_nil_iff, List.length_drop]
        omega
      have hmin : min 8 out.length = 8 := by omega
      rw [queueWf_cons_of_ne_nil hrest, queueWf_outWords (out.drop 8)]
      simp only [hmin, Bool.and_true, decide_true, Bool.not_eq_true', decide_eq_false_iff_not]
      omega
termination_by out.length
decreasing_by
  rw [List.length_drop]
  omega

/-! #### The parts of the invariant -/

/-- A held response has its form, and there is a port to take it (R26, R53, R54). -/
def State.HeldResponseWf (s : State) : Prop :=
  ∀ r, s.rsp = some r → Response.wf r ∧ s.build.engineTestPort = true

theorem State.heldResponseWf_of_none {s : State} (h : s.rsp = none) : s.HeldResponseWf := by
  intro r hr
  rw [h] at hr
  cases hr

/-- A response register that is kept or emptied keeps its form. -/
theorem State.HeldResponseWf.of_kept_or_none {s t : State} (h : s.HeldResponseWf)
    (hb : t.build = s.build) (hr : t.rsp = s.rsp ∨ t.rsp = none) : t.HeldResponseWf := by
  rcases hr with hr | hr
  · intro r ht
    rw [hb]
    exact h r (hr ▸ ht)
  · exact State.heldResponseWf_of_none hr

theorem State.inv_iff (s : State) :
    s.inv = true ↔ s.atBoundary = true ∧ (s.finalized = true ∨ s.squeezeOff = 0) ∧
      queueWf s.oq = true ∧ s.HeldResponseWf := by
  have hrsp : (s.responseWf = true ∧ (s.build.engineTestPort = true ∨ s.rsp = none)) ↔
      s.HeldResponseWf := by
    cases hq : s.rsp <;> simp [State.responseWf, State.HeldResponseWf, Response.wf, hq]
  rw [← hrsp]
  simp [State.inv, and_assoc]

theorem State.rstEdge_inv (s : State) : s.rstEdge.inv = true := by
  rw [State.inv_iff]
  exact ⟨rfl, .inr rfl, rfl, State.heldResponseWf_of_none rfl⟩

theorem State.resetOf_inv (build : Build) (ins : List Inputs) :
    State.inv { State.resetOf build with inputs := ins } = true := by
  rw [State.inv_iff]
  exact ⟨rfl, .inr rfl, rfl, State.heldResponseWf_of_none rfl⟩

@[simp] theorem State.recordAccepted_inv (s : State) (p : Port) (cw : CommandWord) :
    (s.recordAccepted p cw).inv = s.inv := rfl

@[simp] theorem State.recordAccepted_busy (s : State) (p : Port) (cw : CommandWord) :
    (s.recordAccepted p cw).busy = s.busy := rfl

@[simp] theorem State.transferred_busy (s : State) (inp : Inputs) :
    (s.transferred inp).busy = s.busy := by
  simp [State.busy]

theorem State.HeldResponseWf.transferred {s : State} (h : s.HeldResponseWf) {inp : Inputs}
    (hr : inp.rstN = true) : (s.transferred inp).HeldResponseWf :=
  h.of_kept_or_none (s.transferred_build inp) (s.transferred_rsp_cases inp hr)

/-! #### Each part of an edge keeps the invariant -/

/-- On an idle block only a held response can be taken. -/
theorem State.transferred_inv_of_idle {s : State} {inp : Inputs} (h : s.inv = true)
    (hr : inp.rstN = true) (hb : s.busy = false) : (s.transferred inp).inv = true := by
  obtain ⟨hbound, hphase, -, hrsp⟩ := s.inv_iff.mp h
  have hq : s.oq = [] := State.oq_of_boundary_idle hbound hb
  have hq' : (s.transferred inp).oq = [] := by
    rcases s.transferred_oq_cases inp hr with e | e <;> simp [e, hq]
  obtain ⟨hl, hrnd, -⟩ := s.atBoundary_iff.mp hbound
  have hm : s.micro = .idle := s.busy_eq_false_iff.mp hb
  rw [State.inv_iff, State.atBoundary_iff]
  simp only [State.transferred_latch, State.transferred_rnd, State.transferred_micro,
    State.transferred_finalized, State.transferred_squeezeOff, hq']
  exact ⟨⟨hl, hrnd, .inl ⟨hm, trivial⟩⟩, hphase, rfl, hrsp.transferred hr⟩

/-- A waiting block hands out its first word, if the host takes it, and is idle after the last one. -/
theorem State.progress_inv_of_busy {s : State} {inp : Inputs} (h : s.inv = true)
    (hr : inp.rstN = true) (hb : s.busy = true) : (s.transferred inp).progress.inv = true := by
  obtain ⟨hbound, hphase, hqueue, hrsp⟩ := s.inv_iff.mp h
  have hm : s.micro = .sqzOut := State.micro_of_boundary_busy hbound hb
  obtain ⟨hl, hrnd, -⟩ := s.atBoundary_iff.mp hbound
  have hqueue' : queueWf (s.transferred inp).oq = true := by
    rcases s.transferred_oq_cases inp hr with e | e <;> rw [e]
    · exact hqueue
    · exact queueWf_tail hqueue
  rw [State.progress_of_waiting _ (by simpa using hm) (by simpa using hl)]
  rw [State.inv_iff, State.atBoundary_iff]
  refine ⟨⟨by simpa using hl, by simpa using hrnd, ?_⟩, by simpa using hphase, hqueue',
    hrsp.transferred hr⟩
  by_cases hq : (s.transferred inp).oq = []
  · exact .inl ⟨by simp [hq], hq⟩
  · exact .inr ⟨by simp [hq], hq⟩

/-- Every legal S-port command keeps the invariant of an idle block. -/
theorem SpongeEffect.inv {s t : State} {i : Instr} (he : SpongeEffect s i t) (h : s.inv = true)
    (hb : s.busy = false) : t.inv = true := by
  obtain ⟨hbound, hphase, hqueue, hrsp⟩ := s.inv_iff.mp h
  have hq : s.oq = [] := State.oq_of_boundary_idle hbound hb
  have hm : s.micro = .idle := s.busy_eq_false_iff.mp hb
  obtain ⟨hl, hrnd, -⟩ := s.atBoundary_iff.mp hbound
  rw [State.inv_iff]
  cases he with
  | reset =>
    exact ⟨hbound, .inr rfl, hqueue, hrsp.of_kept_or_none rfl s.rspAfterReset_cases.symm⟩
  | absorb nb data A a sc hf => exact ⟨hbound, hphase, hqueue, hrsp⟩
  | lateAbsorb nb data hf => exact ⟨hbound, hphase, hqueue, hrsp⟩
  | errclr => exact ⟨hbound, hphase, hqueue, hrsp⟩
  | digest len A B sc o out hout =>
    have hwords : outWords out = [] ↔ len.toNat = 0 := by rw [outWords_eq_nil_iff, hout]
    refine ⟨?_, .inl rfl, ?_, hrsp⟩
    · rw [State.atBoundary_iff]
      refine ⟨hl, hrnd, ?_⟩
      simp only [hq, List.nil_append, hm, Ne, hwords]
      by_cases hn : len.toNat = 0 <;> simp [hn]
    · simp only [hq, List.nil_append, queueWf_outWords]

theorem EngineEffect.inv {s t : State} (he : EngineEffect s t) (h : s.inv = true)
    (hp : s.build.engineTestPort = true) : t.inv = true := by
  obtain ⟨A, sc, r, f, hr, rfl⟩ := he
  obtain ⟨hbound, hphase, hqueue, -⟩ := s.inv_iff.mp h
  rw [State.inv_iff]
  refine ⟨hbound, hphase, hqueue, ?_⟩
  rintro r' ⟨⟩
  exact ⟨hr, hp⟩

/-- Every edge keeps the invariant. -/
theorem EdgeEffect.inv {s t : State} {inp : Inputs} (he : EdgeEffect s inp t) (h : s.inv = true) :
    t.inv = true := by
  cases he with
  | rst hr => exact State.rstEdge_inv _
  | progress hr hb => exact State.progress_inv_of_busy h hr hb
  | command hr hb hv hd he =>
    exact he.inv (by simpa using State.transferred_inv_of_idle h hr hb) (by simpa using hb)
  | illegal hr hb hv hl => exact State.transferred_inv_of_idle h hr hb
  | engine hr hb hp he =>
    exact he.inv (by simpa using State.transferred_inv_of_idle h hr hb) (by simpa using hp)
  | quiet hr hb => exact State.transferred_inv_of_idle h hr hb

/-- Settles O56: everything an edge can do keeps each part of the invariant. -/
theorem stepKeepsInvariant : Obligations.StepKeepsInvariant := by
  intro s t h hstep
  rw [step, State.nextEdge_eq] at hstep
  exact (State.edgeEffect hstep).inv h

/-- Settles O55: the reset state is idle, with nothing waiting and nothing held. -/
theorem invariantAtReset : Obligations.InvariantAtReset := fun build ins =>
  ⟨State.resetOf_inv build ins, State.resetOf_inv Build.default []⟩

end Sys2Proof.Machine

/-! ### O57: between commands, W and the scratch storage are unobservable -/

namespace Sys2Proof.Machine

/-- The state with other contents of W and of the scratch storage. -/
def State.withWorking (s : State) (W : Lanes) (sc : Scratch) : State := { s with W := W, scratch := sc }

@[simp] theorem State.withWorking_finalized (s : State) (W : Lanes) (sc : Scratch) :
    (s.withWorking W sc).finalized = s.finalized := rfl

@[simp] theorem State.withWorking_busy (s : State) (W : Lanes) (sc : Scratch) :
    (s.withWorking W sc).busy = s.busy := rfl

@[simp] theorem State.withWorking_eReady (s : State) (W : Lanes) (sc : Scratch) (inp : Inputs) :
    (s.withWorking W sc).eReady inp = s.eReady inp := rfl

/-- Both outcomes are next states, which differ in W and the scratch storage at most. -/
def AgreeButWorking (o o' : Outcome) : Prop :=
  ∃ (t : State) (W : Lanes) (sc : Scratch), o = .next t ∧ o' = .next (t.withWorking W sc)

theorem AgreeButWorking.next (t : State) (W : Lanes) (sc : Scratch) :
    AgreeButWorking (.next t) (.next (t.withWorking W sc)) := ⟨t, W, sc, rfl, rfl⟩

theorem AgreeButWorking.of_eq {t t' : State} {W : Lanes} {sc : Scratch} (h : t' = t.withWorking W sc) :
    AgreeButWorking (.next t) (.next t') := ⟨t, W, sc, rfl, by rw [h]⟩

/-! #### No operation of a command reads what it has not written -/

section Operations

variable (s : State) (W : Lanes) (sc : Scratch)

theorem State.permuteS_withWorking :
    (s.withWorking W sc).permuteS = s.permuteS.withWorking W (s.withWorking W sc).permuteS.scratch := by
  rw [State.permuteS_eq, State.permuteS_eq s]
  rfl

theorem State.finalize_withWorking :
    (s.withWorking W sc).finalize = s.finalize.withWorking W (s.withWorking W sc).finalize.scratch := by
  rw [State.finalize_eq, State.finalize_eq s]
  rfl

theorem State.absorbBytes_withWorking (vs : List Byte) :
    (s.withWorking W sc).absorbBytes vs =
      (s.absorbBytes vs).withWorking W ((s.withWorking W sc).absorbBytes vs).scratch := by
  obtain ⟨hS, ha⟩ := State.absorbBytes_congr (s.withWorking W sc) s vs rfl rfl
  rw [State.absorbBytes_frame, State.absorbBytes_frame s, hS, ha]
  rfl

/-- Squeezing starts from a fresh copy of S (R109), so the old W is never read. -/
theorem State.squeeze_withWorking (n : Nat) :
    (s.withWorking W sc).squeeze n =
      (s.squeeze n).withWorking ((s.withWorking W sc).squeeze n).W
        ((s.withWorking W sc).squeeze n).scratch := by
  obtain ⟨hout, -, hoff⟩ := State.squeezeBytes_loadW s n
  obtain ⟨hout', -, hoff'⟩ := State.squeezeBytes_loadW (s.withWorking W sc) n
  have ho : (State.squeezeBytes n (s.withWorking W sc).loadW).1 = (State.squeezeBytes n s.loadW).1 :=
    hout'.trans hout.symm
  have hf : (State.squeezeBytes n (s.withWorking W sc).loadW).2.squeezeOff =
      (State.squeezeBytes n s.loadW).2.squeezeOff := Fin.ext (hoff'.trans hoff.symm)
  rw [State.squeeze_eq, State.squeeze_eq s, ho, hf]
  rfl

end Operations

/-! #### Commands, edges and steps -/

theorem exec_agreeButWorking (i : Instr) (s : State) (W : Lanes) (sc : Scratch) :
    AgreeButWorking (exec i s) (exec i (s.withWorking W sc)) := by
  cases i with
  | sReset => exact .next _ W sc
  | sErrclr => exact .next _ W sc
  | sAbsorb nb data =>
    simp only [exec, execSAbsorb]
    cases legalCount nb with
    | false => exact .next _ W sc
    | true =>
      cases hf : s.finalized with
      | true =>
        simp only [State.withWorking_finalized, hf, if_true]
        exact .next _ W sc
      | false =>
        simp only [State.withWorking_finalized, hf, if_true, Bool.false_eq_true, if_false]
        exact .of_eq (s.absorbBytes_withWorking W sc _)
  | sDigest len =>
    simp only [exec, execSDigest]
    cases hf : s.finalized with
    | true =>
      simp only [State.withWorking_finalized, hf, if_true]
      exact .of_eq (s.squeeze_withWorking W sc _)
    | false =>
      simp only [State.withWorking_finalized, hf, Bool.false_eq_true, if_false]
      rw [State.finalize_withWorking]
      exact .of_eq (State.squeeze_withWorking ..)
  | eReset => exact .next _ W sc
  | eXorb off value =>
    simp only [exec, execEXorb]
    cases inRangeByte off <;> exact .next _ W sc
  | eXor off nb data =>
    simp only [exec, execEXor]
    cases legalCount nb <;> cases inRangeBytes off nb <;> exact .next _ W sc
  | eExtract off nb =>
    simp only [exec, execEExtract]
    cases legalCount nb <;> cases inRangeBytes off nb <;> exact .next _ W sc
  | ePermute =>
    simp only [exec, execEPermute]
    rw [State.permuteS_withWorking]
    exact .next _ W _

theorem acceptS_agreeButWorking (cw : CommandWord) (s : State) (W : Lanes) (sc : Scratch) :
    AgreeButWorking (acceptS exec cw s) (acceptS exec cw (s.withWorking W sc)) := by
  unfold acceptS
  cases decodeS cw with
  | ok i => exact exec_agreeButWorking i s W sc
  | error e => exact .next _ W sc

theorem acceptE_agreeButWorking (cw : CommandWord) (s : State) (W : Lanes) (sc : Scratch) :
    AgreeButWorking (acceptE exec cw s) (acceptE exec cw (s.withWorking W sc)) := by
  unfold acceptE
  cases decodeE cw with
  | ok i => exact exec_agreeButWorking i s W sc
  | error e => exact .next _ W sc

theorem State.transferred_withWorking (s : State) (inp : Inputs) (hr : inp.rstN = true) (W : Lanes)
    (sc : Scratch) : (s.withWorking W sc).transferred inp = (s.transferred inp).withWorking W sc := by
  rw [State.transferred_eq _ _ hr, State.transferred_eq s _ hr]
  rfl

/-- A block that waits for its words to be taken does not read W any more. -/
theorem State.progress_withWorking_of_waiting (s : State) (hm : s.micro = .sqzOut)
    (hl : s.latch = Latch.empty) (W : Lanes) (sc : Scratch) :
    (s.withWorking W sc).progress = s.progress.withWorking W sc := by
  rw [State.progress_of_waiting s hm hl, State.progress_of_waiting (s.withWorking W sc) hm hl]
  rfl

/-- An edge without rst_n, with the choice it makes written out. -/
theorem State.edge_of_rstN (run : Instr → State → Outcome) (s : State) (inp : Inputs)
    (hr : inp.rstN = true) :
    s.edge run inp =
      if s.busy then .next (s.transferred inp).progress
      else if inp.sValid then acceptS run inp.sCw ((s.transferred inp).recordAccepted .sponge inp.sCw)
      else if inp.eValid && s.eReady inp then
        acceptE run inp.eCw ((s.transferred inp).recordAccepted .engine inp.eCw)
      else .next (s.transferred inp) := by
  cases hb : s.busy <;> simp [State.edge, State.transferred, State.sReady, hr, hb]

theorem State.edge_agreeButWorking (s : State) (inp : Inputs) (W : Lanes) (sc : Scratch)
    (h : s.atBoundary = true) :
    AgreeButWorking (s.edge exec inp) ((s.withWorking W sc).edge exec inp) := by
  cases hr : inp.rstN with
  | false =>
    simp only [State.edge, hr, Bool.false_eq_true, if_false]
    exact .of_eq (W := Lanes.zero) (sc := Scratch.reset) rfl
  | true =>
    rw [State.edge_of_rstN _ s _ hr, State.edge_of_rstN _ _ _ hr, s.transferred_withWorking inp hr]
    cases hb : s.busy with
    | true =>
      have hm : (s.transferred inp).micro = .sqzOut := by
        rw [State.transferred_micro, State.micro_of_boundary_busy h hb]
      have hl : (s.transferred inp).latch = Latch.empty := by
        rw [State.transferred_latch, (s.atBoundary_iff.mp h).1]
      simp only [State.withWorking_busy, hb, if_true]
      exact .of_eq (State.progress_withWorking_of_waiting _ hm hl W sc)
    | false =>
      simp only [State.withWorking_busy, hb, Bool.false_eq_true, if_false]
      cases inp.sValid with
      | true => exact acceptS_agreeButWorking _ _ W sc
      | false =>
        cases he : inp.eValid && s.eReady inp with
        | true =>
          simp only [State.withWorking_eReady, he, Bool.false_eq_true, if_false, if_true]
          exact acceptE_agreeButWorking _ _ W sc
        | false =>
          simp only [State.withWorking_eReady, he, Bool.false_eq_true, if_false]
          exact .next _ W sc

/-- Settles O57: both runs make the same choices on their next edge, and agree after it. -/
theorem workingStorageIsUnobservable : Obligations.WorkingStorageIsUnobservable := by
  intro s W sc h
  rw [step, step, State.nextEdge_eq, State.nextEdge_eq]
  exact State.edge_agreeButWorking { s with inputs := s.inputs.tail } _ W sc h

end Sys2Proof.Machine

/-! ### O49, O50: what an edge can do to the error flags and to the phase -/

namespace Sys2Proof.Machine

/-- A flag that an edge leaves as it was does not fall on it … -/
theorem not_fallen {b : Bool} {P : Prop} (before : b = true) (after : b = false) : P := by
  rw [before] at after
  cases after

/-- … and does not rise on it. -/
theorem not_risen {b : Bool} {P : Prop} (before : b = false) (after : b = true) : P :=
  not_fallen after before

/-- The S-port accepts a word on this edge. -/
def State.acceptsS (s : State) (inp : Inputs) : Prop :=
  inp.rstN = true ∧ s.busy = false ∧ inp.sValid = true

/-- The four things an edge can do to the error flags (R20): nothing, clear both, set ERR_UAF, set
ERR_ILL. -/
theorem EdgeEffect.errorFlags {s t : State} {inp : Inputs} (he : EdgeEffect s inp t) :
    (t.errUaf = s.errUaf ∧ t.errIll = s.errIll) ∨
    ((inp.rstN = false ∨ (s.acceptsS inp ∧
        (decodeS inp.sCw = .ok .sErrclr ∨ decodeS inp.sCw = .ok .sReset))) ∧
      t.errUaf = false ∧ t.errIll = false) ∨
    ((s.acceptsS inp ∧ s.finalized = true ∧ ∃ nb data, decodeS inp.sCw = .ok (.sAbsorb nb data)) ∧
      t.errUaf = true ∧ t.errIll = s.errIll) ∨
    ((s.acceptsS inp ∧ legalS inp.sCw = false) ∧ t.errUaf = s.errUaf ∧ t.errIll = true) := by
  cases he with
  | rst hr => exact .inr (.inl ⟨.inl hr, rfl, rfl⟩)
  | progress hr hb =>
    obtain ⟨-, huaf, hill⟩ := (s.transferred inp).progress_buildAndFlags
    exact .inl ⟨by simpa using huaf, by simpa using hill⟩
  | command hr hb hv hd he =>
    cases he with
    | reset => exact .inr (.inl ⟨.inr ⟨⟨hr, hb, hv⟩, .inr hd⟩, rfl, rfl⟩)
    | absorb nb data A a sc hf => exact .inl ⟨by simp, by simp⟩
    | lateAbsorb nb data hf =>
      exact .inr (.inr (.inl ⟨⟨⟨hr, hb, hv⟩, by simpa using hf, nb, data, hd⟩, rfl, by simp⟩))
    | digest len A B sc o out hout => exact .inl ⟨by simp, by simp⟩
    | errclr => exact .inr (.inl ⟨.inr ⟨⟨hr, hb, hv⟩, .inl hd⟩, rfl, rfl⟩)
  | illegal hr hb hv hl => exact .inr (.inr (.inr ⟨⟨⟨hr, hb, hv⟩, hl⟩, by simp, rfl⟩))
  | engine hr hb hp he =>
    obtain ⟨A, sc, r, f, -, rfl⟩ := he
    exact .inl ⟨by simp, by simp⟩
  | quiet hr hb => exact .inl ⟨by simp, by simp⟩

/-- Settles O49: a flag that falls was cleared and a flag that rises was set. -/
theorem errorFlagsAreSticky : Obligations.ErrorFlagsAreSticky := by
  intro s t inp h
  rcases (State.edgeEffect h).errorFlags with
    ⟨hu, hi⟩ | ⟨hc, hu, hi⟩ | ⟨ha, hu, hi⟩ | ⟨hl, hu, hi⟩ <;> simp only [hu, hi]
  · exact ⟨not_fallen, not_fallen, not_risen, not_risen⟩
  · exact ⟨fun _ _ => hc, fun _ _ => hc, by simp, by simp⟩
  · exact ⟨by simp, not_fallen, fun _ _ => ha, not_risen⟩
  · exact ⟨not_fallen, by simp, not_risen, fun _ _ => hl⟩

/-- The three things an edge from between commands can do to the phase (R16): nothing, set it to
Absorbing, set it to Squeezable. -/
theorem EdgeEffect.phase {s t : State} {inp : Inputs} (he : EdgeEffect s inp t)
    (h : s.atBoundary = true) :
    t.finalized = s.finalized ∨
    ((inp.rstN = false ∨ (s.acceptsS inp ∧ decodeS inp.sCw = .ok .sReset)) ∧ t.finalized = false) ∨
    ((s.acceptsS inp ∧ ∃ len, decodeS inp.sCw = .ok (.sDigest len)) ∧ t.finalized = true) := by
  cases he with
  | rst hr => exact .inr (.inl ⟨.inl hr, rfl⟩)
  | progress hr hb =>
    have hm := State.micro_of_boundary_busy h hb
    obtain ⟨hl, -, -⟩ := s.atBoundary_iff.mp h
    rw [State.progress_of_waiting _ (by simpa using hm) (by simpa using hl)]
    exact .inl (s.transferred_finalized inp)
  | command hr hb hv hd he =>
    cases he with
    | reset => exact .inr (.inl ⟨.inr ⟨⟨hr, hb, hv⟩, hd⟩, rfl⟩)
    | absorb nb data A a sc hf => exact .inl (s.transferred_finalized inp)
    | lateAbsorb nb data hf => exact .inl (s.transferred_finalized inp)
    | digest len A B sc o out hout => exact .inr (.inr ⟨⟨⟨hr, hb, hv⟩, len, hd⟩, rfl⟩)
    | errclr => exact .inl (s.transferred_finalized inp)
  | illegal hr hb hv hl => exact .inl (s.transferred_finalized inp)
  | engine hr hb hp he =>
    obtain ⟨A, sc, r, f, -, rfl⟩ := he
    exact .inl (s.transferred_finalized inp)
  | quiet hr hb => exact .inl (s.transferred_finalized inp)

/-- Settles O50: a phase that changes was set by one of the causes of R16. -/
theorem phaseTransitions : Obligations.PhaseTransitions := by
  intro s t inp hbound h
  rcases (State.edgeEffect h).phase hbound with hf | ⟨hc, hf⟩ | ⟨hd, hf⟩ <;> simp only [hf]
  · exact ⟨not_risen, not_fallen⟩
  · exact ⟨by simp, fun _ _ => hc⟩
  · exact ⟨fun _ _ => hd, by simp⟩

end Sys2Proof.Machine

/-! ### O52: the build parameters (R28) -/

namespace Sys2Proof.Machine

theorem exec_build {i : Instr} {s t : State} (h : exec i s = .next t) : t.build = s.build := by
  cases hp : i.port with
  | sponge =>
    obtain ⟨_, _, _, _, _, _, _, _, _, _, _, -, e⟩ := exec_sponge_update i s hp
    rw [e] at h; cases h; rfl
  | engine =>
    obtain ⟨_, _, _, _, e⟩ := exec_engine_update i s hp
    rw [e] at h; cases h; rfl

theorem beginCommand_build {i : Instr} {s t : State} (h : beginCommand i s = .next t) :
    t.build = s.build := by
  cases i with
  | sAbsorb nb data =>
    simp only [beginCommand, beginSAbsorb] at h
    split at h
    · cases h; exact (s.absorbUntilFull_buildAndFlags _).1
    · exact exec_build (i := .sAbsorb nb data) h
  | sDigest len =>
    simp only [beginCommand, beginSDigest] at h
    split at h
    · split at h
      · exact exec_build (i := .sDigest len) h
      · cases h; rfl
    · cases h; rfl
  | ePermute => cases h; rfl
  | sReset => exact exec_build (i := .sReset) h
  | sErrclr => exact exec_build (i := .sErrclr) h
  | eReset => exact exec_build (i := .eReset) h
  | eXorb off value => exact exec_build (i := .eXorb off value) h
  | eXor off nb data => exact exec_build (i := .eXor off nb data) h
  | eExtract off nb => exact exec_build (i := .eExtract off nb) h

section AnyMachine

/- Both machines at once: all that is asked of `run` is that it changes no build parameter. -/
variable {run : Instr → State → Outcome}
  (hrun : ∀ (i : Instr) (s t : State), run i s = .next t → t.build = s.build)
include hrun

theorem acceptS_build {cw : CommandWord} {s t : State} (h : acceptS run cw s = .next t) :
    t.build = s.build := by
  unfold acceptS at h
  split at h
  · exact hrun _ _ _ h
  · cases h; rfl

theorem acceptE_build {cw : CommandWord} {s t : State} (h : acceptE run cw s = .next t) :
    t.build = s.build := by
  unfold acceptE at h
  split at h
  · exact hrun _ _ _ h
  · cases h; rfl

theorem State.edge_build {s t : State} {inp : Inputs} (h : s.edge run inp = .next t) :
    t.build = s.build := by
  rcases s.edge_cases run inp with ⟨-, e⟩ | ⟨-, -, e⟩ | ⟨-, -, -, e⟩ | ⟨-, -, -, -, -, -, e⟩ |
    ⟨-, -, -, -, e⟩ <;> rw [e] at h
  · cases h; rfl
  · cases h; exact (State.progress_buildAndFlags _).1.trans (s.transferred_build inp)
  · exact (acceptS_build hrun h).trans (s.transferred_build inp)
  · exact (acceptE_build hrun h).trans (s.transferred_build inp)
  · cases h; exact s.transferred_build inp

theorem State.nextEdge_build {s t : State} (h : s.nextEdge run = .next t) : t.build = s.build := by
  rw [State.nextEdge_eq] at h
  exact State.edge_build hrun (s := { s with inputs := s.inputs.tail }) h

end AnyMachine

/-- Settles O52: neither machine's edge touches the build. -/
theorem buildParametersAreFixed : Obligations.BuildParametersAreFixed := by
  rintro s t (h | h)
  · exact State.nextEdge_build (fun _ _ _ => exec_build) h
  · exact State.nextEdge_build (fun _ _ _ => beginCommand_build) h

end Sys2Proof.Machine

/-! ### O47, O51: the values of R29, and what STATUS shows (R24) -/

namespace Sys2Proof.Machine

/-- Bit z of the fields of STATUS (R24). -/
theorem State.statusFields_getLsbD (s : State) (z : Nat) :
    s.statusFields.getLsbD z =
      if z < 1 then s.busy
      else if z < 2 then s.finalized
      else if z < 3 then s.errUaf
      else if z < 4 then s.errIll
      else if z < 8 then false
      else if z < 16 then (BitVec.ofNat 8 s.absorbed.val).getLsbD (z - 8)
      else if z < 24 then (BitVec.ofNat 8 s.squeezeOff.val).getLsbD (z - 16)
      else false := by
  simp only [State.statusFields, BitVec.getLsbD_append, BitVec.getLsbD_ofBool]
  by_cases h4 : z < 4
  · interval_cases z <;> simp
  · have hlow : ¬ z < 1 ∧ ¬ z < 2 ∧ ¬ z < 3 := by omega
    by_cases h8 : z < 8
    · simp [hlow, h4, h8, show z < 16 by omega, show z < 24 by omega]
    · by_cases h16 : z < 16
      · simp [hlow, h4, h8, h16, show z < 24 by omega]
      · simp [hlow, h4, h8, h16]

/-- A bit of STATUS that R24 does not leave open is that of the state's fields, whether BUSY or not. -/
theorem State.status_getLsbD_of_specified (s : State) (z : Nat)
    (hz : unspecifiedWhileBusy.getLsbD z = false) :
    s.status.getLsbD z = s.statusFields.getLsbD z := by
  unfold State.status
  split
  · by_cases hlt : z < 32
    · simp only [BitVec.getLsbD_or, BitVec.getLsbD_and, BitVec.getLsbD_not, hz, hlt, decide_true,
        Bool.not_false, Bool.and_true, Bool.and_false, Bool.or_false]
    · simp [BitVec.getLsbD_of_ge _ z (Nat.le_of_not_lt hlt)]
  · rfl

theorem State.status_of_not_busy (s : State) (hb : s.busy = false) : s.status = s.statusFields := by
  simp [State.status, hb]

theorem State.statusFields_absorbed (s : State) :
    s.statusFields.extractLsb' 8 8 = BitVec.ofNat 8 s.absorbed.val := by
  apply BitVec.eq_of_getLsbD_eq
  intro z hz
  rw [BitVec.getLsbD_extractLsb', s.statusFields_getLsbD]
  simp (disch := omega) only [if_neg, if_pos, decide_true, hz, Bool.true_and, Nat.add_sub_cancel_left]

theorem State.statusFields_squeezeOff (s : State) :
    s.statusFields.extractLsb' 16 8 = BitVec.ofNat 8 s.squeezeOff.val := by
  apply BitVec.eq_of_getLsbD_eq
  intro z hz
  rw [BitVec.getLsbD_extractLsb', s.statusFields_getLsbD]
  simp (disch := omega) only [if_neg, if_pos, decide_true, hz, Bool.true_and, Nat.add_sub_cancel_left]

/-- The reserved bits 7:4 and 31:24 are 0, whether BUSY or not. -/
theorem State.status_getLsbD_of_reserved (s : State) (z : Nat)
    (hz : 4 ≤ z ∧ z < 8 ∨ 24 ≤ z ∧ z < 32) : s.status.getLsbD z = false := by
  have hopen : ∀ k < 32, (4 ≤ k ∧ k < 8 ∨ 24 ≤ k ∧ k < 32) →
      unspecifiedWhileBusy.getLsbD k = false := by decide
  rw [s.status_getLsbD_of_specified z (hopen z (by omega) hz), s.statusFields_getLsbD]
  rcases hz with hz | hz <;> simp (disch := omega) only [if_neg, if_pos]

/-- Settles O51: each bit that R24 fixes is read from the fields. -/
theorem statusShowsState : Obligations.StatusShowsState := by
  intro s
  have habsorbed : s.absorbed.val < 168 := s.absorbed.isLt
  have hsqueeze : s.squeezeOff.val < 169 := s.squeezeOff.isLt
  refine ⟨?_, ?_, ?_, rfl, fun hb => ?_⟩
  · rw [s.status_getLsbD_of_specified 0 (by decide), s.statusFields_getLsbD]
    rfl
  · apply BitVec.eq_of_getLsbD_eq
    intro z hz
    simp [BitVec.getLsbD_extractLsb', s.status_getLsbD_of_reserved (4 + z) (by omega)]
  · apply BitVec.eq_of_getLsbD_eq
    intro z hz
    simp [BitVec.getLsbD_extractLsb', s.status_getLsbD_of_reserved (24 + z) (by omega)]
  · rw [s.status_of_not_busy hb, s.statusFields_absorbed, s.statusFields_squeezeOff]
    simp only [s.statusFields_getLsbD, BitVec.toNat_ofNat]
    refine ⟨rfl, rfl, rfl, ?_⟩
    omega

/-- Settles O47: the lanes and STATUS are computed, the rest is what `resetOf` writes down. -/
theorem resetValues : Obligations.ResetValues := by
  refine ⟨fun build => ⟨fun i => ?_, rfl, rfl, rfl, rfl, rfl, rfl, rfl, rfl, rfl, rfl, ?_, rfl⟩, rfl⟩
  · simp [State.resetOf, Lanes.zero]
  · rw [State.status_of_not_busy _ rfl]
    exact (show (State.resetOf Build.default).statusFields = 0 by decide)

end Sys2Proof.Machine

/-! ### O12, O13, O14: bytes and whole lanes of a register (R31 to R37) -/

namespace Sys2Proof.Machine

/-- R32 at a lane: the XOR of one byte changes the lane that holds it. -/
theorem stXorByte_getElem (T : Lanes) (b : Nat) (v : Byte) (hb : b < 200) (i : Fin 25) :
    (stXorByte T b v)[i] =
      if i.val = b / 8 then T[i] ^^^ v.setWidth 64 <<< (8 * (b % 8)) else T[i] := by
  have h := getD_stXorByte T b v hb i.val i.isLt
  rwa [getD_eq_getElem _ _ i.isLt, getD_eq_getElem _ _ i.isLt] at h

/-- Data byte 0 of a 64-bit field is its low 8 bits (R46). -/
theorem byteOf_zero (v : BitVec 64) : byteOf v 0 = v.setWidth 8 := by
  apply BitVec.eq_of_getLsbD_eq
  intro z hz
  simp [byteOf, hz]

/-- Settles O12, by the lane law and the byte law of StXorByte. -/
theorem byteXorChangesOneByte : Obligations.ByteXorChangesOneByte := by
  intro T b v hb
  rw [byteOf_zero]
  exact ⟨fun i => stXorByte_getElem T b _ hb i, fun c hc => stByte_stXorByte T b c _ hb hc⟩

/-- R33: byte c after StXor. -/
theorem stByte_stXor (T : Lanes) (b n : Nat) (v : BitVec 64) (h : b + n ≤ 200) (c : Nat)
    (hc : c < 200) :
    stByte (stXor T b n v) c =
      if b ≤ c ∧ c < b + n then stByte T c ^^^ byteOf v (c - b) else stByte T c := by
  rw [stXor, stByte_stXorBytes T b _ (by simpa using h) c hc, dataBytes_length]
  by_cases hin : b ≤ c ∧ c < b + n
  · rw [if_pos hin, if_pos hin, dataBytes_getD n v (c - b) (by omega)]
  · rw [if_neg hin, if_neg hin]

/-- Settles O13, by the byte laws of StXor and StRead. -/
theorem multiByteAccess : Obligations.MultiByteAccess :=
  fun T b n v hn h => ⟨stByte_stXor T b n v h, byteOf_stRead T b n hn⟩

/-- R35, R36: the bytes of lane i are the state bytes 8i, …, 8i + 7, the low byte first. -/
theorem stByte_lane (T : Lanes) (i : Nat) (hi : i < 25) (k : Nat) (hk : k < 8) :
    stByte T (8 * i + k) = byteOf T[i] k := by
  apply BitVec.eq_of_getLsbD_eq
  intro z hz
  have hlane : (8 * i + k) / 8 = i := by omega
  have hbyte : (8 * i + k) % 8 = k := by omega
  rw [stByte_getLsbD _ _ _ hz, hlane, hbyte, getD_eq_getElem _ _ hi]
  simp [byteOf, hz]

/-- Two 64-bit values with the same 8 bytes are equal. -/
theorem eq_of_byteOf_eq {v w : BitVec 64} (h : ∀ k < 8, byteOf v k = byteOf w k) : v = w := by
  apply BitVec.eq_of_getLsbD_eq
  intro z hz
  have hbit := congrArg (BitVec.getLsbD · (z % 8)) (h (z / 8) (by omega))
  simpa [byteOf, show z % 8 < 8 by omega, Nat.div_add_mod z 8] using hbit

theorem byteOf_xor (v w : BitVec 64) (k : Nat) : byteOf (v ^^^ w) k = byteOf v k ^^^ byteOf w k := by
  apply BitVec.eq_of_getLsbD_eq
  intro z hz
  simp [byteOf, hz]

/-- A read of 8 bytes at 8i is lane i (R35, R36). -/
theorem stRead_lane (T : Lanes) (i : Nat) (hi : i < 25) : stRead T (8 * i) 8 = T[i] := by
  apply eq_of_byteOf_eq
  intro k hk
  rw [byteOf_stRead T _ 8 le_rfl, if_pos hk, stByte_lane T i hi k hk]

/-- An XOR of 8 bytes at 8i is an XOR into lane i (R35, R36). -/
theorem stXor_lane (T : Lanes) (i : Nat) (hi : i < 25) (v : BitVec 64) :
    stXor T (8 * i) 8 v = T.set i (T[i] ^^^ v) := by
  apply lanes_ext_bytes
  intro b hb
  obtain ⟨j, k, hk, rfl⟩ : ∃ j k, k < 8 ∧ b = 8 * j + k := ⟨b / 8, b % 8, by omega, by omega⟩
  have hj : j < 25 := by omega
  rw [stByte_stXor T _ 8 v (by omega) _ hb, stByte_lane T j hj k hk, stByte_lane _ j hj k hk]
  by_cases hji : j = i
  · subst hji
    rw [if_pos (by omega), Nat.add_sub_cancel_left, Vector.getElem_set_self, byteOf_xor]
  · rw [if_neg (by omega), Vector.getElem_set_ne _ _ (Ne.symm hji)]

/-- Settles O14, by the lane laws of StRead and StXor. -/
theorem alignedAccessIsWholeLane : Obligations.AlignedAccessIsWholeLane :=
  fun T i v => ⟨stRead_lane T i.val i.isLt, stXor_lane T i.val i.isLt v⟩

end Sys2Proof.Machine

/-! ### O41: a placed word runs on the next step (R42, R100) -/

namespace Sys2Proof.Machine

@[simp] theorem State.transferred_S (s : State) (inp : Inputs) : (s.transferred inp).S = s.S := by
  obtain ⟨_, _, _, _, h⟩ := s.transferred_update inp; rw [h]
@[simp] theorem State.transferred_absorbed (s : State) (inp : Inputs) :
    (s.transferred inp).absorbed = s.absorbed := by
  obtain ⟨_, _, _, _, h⟩ := s.transferred_update inp; rw [h]

/-- The edge of an idle block that accepts a legal word on the S-port runs its command (R100). -/
theorem State.edge_of_decodeS (run : Instr → State → Outcome) (s : State) (inp : Inputs) (i : Instr)
    (hr : inp.rstN = true) (hb : s.busy = false) (hv : inp.sValid = true)
    (hd : decodeS inp.sCw = .ok i) :
    s.edge run inp = run i ((s.transferred inp).recordAccepted .sponge inp.sCw) := by
  simp [State.edge_of_rstN run s inp hr, hb, hv, acceptS, hd]

/-- The edge of an idle block whose E-port accepts a legal word runs its command (R80). -/
theorem State.edge_of_decodeE (run : Instr → State → Outcome) (s : State) (inp : Inputs) (i : Instr)
    (hr : inp.rstN = true) (hb : s.busy = false) (hs : inp.sValid = false) (hv : inp.eValid = true)
    (hp : s.build.engineTestPort = true) (hq : s.rsp = none) (hd : decodeE inp.eCw = .ok i) :
    s.edge run inp = run i ((s.transferred inp).recordAccepted .engine inp.eCw) := by
  simp [State.edge_of_rstN run s inp hr, State.eReady, hr, hb, hs, hv, hp, hq, acceptE, hd]

/-- S, `absorbed`, the phase and the error flags stand in the second state as they do in the first. -/
def State.SameSponge (s u : State) : Prop :=
  u.S = s.S ∧ u.absorbed = s.absorbed ∧ u.finalized = s.finalized ∧ u.errUaf = s.errUaf ∧
    u.errIll = s.errIll

theorem State.SameSponge.trans {s t u : State} (h : s.SameSponge t) (h' : t.SameSponge u) :
    s.SameSponge u := by
  obtain ⟨hS, habsorbed, hfinalized, huaf, hill⟩ := h
  simpa only [State.SameSponge, hS, habsorbed, hfinalized, huaf, hill] using h'

section Step

/- The next edge has the inputs `inp`, and the block is idle. -/
variable {s : State} {inp : Inputs} {rest : List Inputs} {i : Instr}
  (hin : s.inputs = inp :: rest) (hr : inp.rstN = true) (hb : s.busy = false)
include hin hr hb

/-- A legal word on the S-port: the step runs its command, with the sponge as it was. -/
theorem step_of_decodeS (hv : inp.sValid = true) (hd : decodeS inp.sCw = .ok i) :
    ∃ u, step s = exec i u ∧ s.SameSponge u := by
  rw [step_cons s inp rest hin, State.edge_of_decodeS _ { s with inputs := rest } inp i hr hb hv hd]
  exact ⟨_, rfl, by simp [State.SameSponge]⟩

/-- A legal word that the E-port accepts: the step runs its command, with the sponge as it was. -/
theorem step_of_decodeE (hs : inp.sValid = false) (hv : inp.eValid = true)
    (hp : s.build.engineTestPort = true) (hq : s.rsp = none) (hd : decodeE inp.eCw = .ok i) :
    ∃ u, step s = exec i u ∧ s.SameSponge u := by
  rw [step_cons s inp rest hin, State.edge_of_decodeE _ { s with inputs := rest } inp i hr hb hs hv hp hq hd]
  exact ⟨_, rfl, by simp [State.SameSponge]⟩

end Step

section PresentWord

/- Presenting a word makes a busy block idle and leaves an idle one as it is, on either port (log entry 9). -/
variable (s : State) (cw : CommandWord)

@[simp] theorem State.presentWord_busy : (s.presentWord cw).busy = false := by
  cases hb : s.busy with
  | true => cases hp : cw.port <;> simp [State.presentWord, State.busy_eq_false_iff, hb, hp]
  | false =>
    have hidle := s.busy_eq_false_iff.mp hb
    cases hp : cw.port <;> simp [State.presentWord, State.busy_eq_false_iff, hb, hp, hidle]

theorem State.presentWord_sameSponge : s.SameSponge (s.presentWord cw) := by
  cases hb : s.busy <;> cases hp : cw.port <;> simp [State.SameSponge, State.presentWord, hb, hp]

/-- A word with an S-port opcode is presented on the S-port. -/
theorem State.presentWord_of_sponge (hp : cw.port = .sponge) :
    (s.presentWord cw).inputs =
      { Inputs.quiet with sValid := true, sCw := cw } :: s.inputs.tail := by
  simp only [State.presentWord, hp]

/-- A word with an E-port opcode is presented on the E-port, which exists and holds no response. -/
theorem State.presentWord_of_engine (hp : cw.port = .engine) :
    (s.presentWord cw).inputs =
      { Inputs.quiet with eValid := true, eCw := cw } :: s.inputs.tail ∧
    (s.presentWord cw).build.engineTestPort = true ∧ (s.presentWord cw).rsp = none := by
  simp only [State.presentWord, hp, and_self]

end PresentWord

/-- The step after a legal word is presented runs its command, with the sponge as it was. -/
theorem step_presentWord (s : State) {cw : CommandWord} {i : Instr} (hd : decode cw.port cw = .ok i) :
    ∃ u, step (s.presentWord cw) = exec i u ∧ s.SameSponge u := by
  have hbusy := s.presentWord_busy cw
  have hrun : ∃ u, step (s.presentWord cw) = exec i u ∧ (s.presentWord cw).SameSponge u := by
    cases hp : cw.port with
    | sponge =>
      have hin := s.presentWord_of_sponge cw hp
      rw [hp, decode] at hd
      exact step_of_decodeS hin rfl hbusy rfl hd
    | engine =>
      obtain ⟨hin, hport, hrsp⟩ := s.presentWord_of_engine cw hp
      rw [hp, decode] at hd
      exact step_of_decodeE hin rfl hbusy rfl rfl hport hrsp hd
  obtain ⟨u, hstep, hsame⟩ := hrun
  exact ⟨u, hstep, (s.presentWord_sameSponge cw).trans hsame⟩

/-- The table's decoder is that of the word's port. -/
theorem decode_of_decodeTableWord {w : Nat} {i : Instr} (h : decodeTableWord 96 w = some i) :
    decode (CommandWord.port (BitVec.ofNat 96 (w % 2 ^ 96))) (BitVec.ofNat 96 (w % 2 ^ 96)) = .ok i := by
  simp only [decodeTableWord, le_refl, if_true] at h
  split at h
  · next heq => rw [heq, Option.some.inj h]
  · cases h

/-- Settles O41: the word is presented on its port, and an idle block accepts it on the next edge. -/
theorem placedWordRunsNext : Obligations.PlacedWordRunsNext := by
  intro s w i _ hd
  obtain ⟨u, hstep, hsame⟩ := step_presentWord s (decode_of_decodeTableWord hd)
  obtain ⟨t, ht⟩ := exec_completes i u
  exact ⟨t, u, hstep.trans ht, ht, hsame⟩

end Sys2Proof.Machine

/-! ### O2, O3, O4, O5, O1: the encoder, the decoders, legality and the opcode table (R45 to R51, R59) -/

namespace Sys2Proof

/-- Settles O2, command by command. -/
theorem decodeOfEncodeIsIdentity : Obligations.DecodeOfEncodeIsIdentity := by
  intro i
  cases i with
  | sReset => exact Laws.RoundTrip.sReset
  | sAbsorb nb data => exact Laws.RoundTrip.sAbsorb nb data
  | sDigest len => exact Laws.RoundTrip.sDigest len
  | sErrclr => exact Laws.RoundTrip.sErrclr
  | eReset => exact Laws.RoundTrip.eReset
  | eXorb off value => exact Laws.RoundTrip.eXorb off value
  | eXor off nb data => exact Laws.RoundTrip.eXor off nb data
  | eExtract off nb => exact Laws.RoundTrip.eExtract off nb
  | ePermute => exact Laws.RoundTrip.ePermute

/-! #### The decoders read legal words only -/

theorem of_ifUnusedZero_ok {z : Bool} {i j : Instr} (h : ifUnusedZero z i = .ok j) : z = true := by
  unfold ifUnusedZero at h
  split at h
  · assumption
  · cases h

theorem CommandWord.op_eq_of_toNat {cw : CommandWord} {n : Nat} (h : cw.op.toNat = n) :
    cw.op = BitVec.ofNat 4 n := by
  rw [← h, BitVec.ofNat_toNat, BitVec.setWidth_eq]

/-- R49: the S-port's decoder accepts no illegal word. -/
theorem legalS_of_decodeS {cw : CommandWord} {i : Instr} (h : decodeS cw = .ok i) :
    legalS cw = true := by
  unfold decodeS at h
  split at h
  · next hrsv =>
    split at h
    case h_2 hop =>
      obtain ⟨hnb, h⟩ := Machine.ifByteCount_ok h
      have hzero := of_ifUnusedZero_ok h
      simp_all [legalS, CommandWord.op_eq_of_toNat hop]
    case h_5 => cases h
    all_goals next hop =>
      have hzero := of_ifUnusedZero_ok h
      simp_all [legalS, CommandWord.op_eq_of_toNat hop]
  · cases h

/-- R50: the E-port's decoder accepts no illegal word. -/
theorem legalE_of_decodeE {cw : CommandWord} {i : Instr} (h : decodeE cw = .ok i) :
    legalE cw = true := by
  unfold decodeE at h
  split at h
  · next hrsv =>
    split at h
    case h_3 hop =>
      obtain ⟨hnb, h⟩ := Machine.ifByteCount_ok h
      simp_all [legalE, CommandWord.op_eq_of_toNat hop]
    case h_4 hop =>
      obtain ⟨hnb, h⟩ := Machine.ifByteCount_ok h
      have hzero := of_ifUnusedZero_ok h
      simp_all [legalE, CommandWord.op_eq_of_toNat hop]
    case h_6 => cases h
    all_goals next hop =>
      have hzero := of_ifUnusedZero_ok h
      simp_all [legalE, CommandWord.op_eq_of_toNat hop]
  · cases h

theorem legal_of_decode {p : Port} {cw : CommandWord} {i : Instr} (h : decode p cw = .ok i) :
    legal p cw = true := by
  cases p with
  | sponge => exact legalS_of_decodeS h
  | engine => exact legalE_of_decodeE h

/-! #### The legal words of a port are the words of its well-formed commands -/

/-- R49: the fields that LegalS leaves free are the operands of one S-port command. -/
theorem exists_encode_of_legalS {cw : CommandWord} (h : legalS cw = true) :
    ∃ i : Instr, i.wf = true ∧ i.port = .sponge ∧ encode i = cw := by
  simp only [legalS, Bool.and_eq_true, Bool.or_eq_true, beq_iff_eq, decide_eq_true_eq] at h
  obtain ⟨⟨hrsv, hoff⟩, ((⟨⟨hop, hnb⟩, hd⟩ | ⟨hop, hnb⟩) | ⟨⟨hop, hnb⟩, hd⟩) | ⟨⟨hop, hnb⟩, hd⟩⟩ := h
  · refine ⟨.sReset, rfl, rfl, ?_⟩
    rw [cw.eq_ofFields, hop, hnb, hoff, hrsv, hd, encode]
  · refine ⟨.sAbsorb cw.nb cw.data, decide_eq_true hnb, rfl, ?_⟩
    conv_rhs => rw [cw.eq_ofFields, hop, hoff, hrsv]
    rw [encode]
  · refine ⟨.sDigest cw.len, rfl, rfl, ?_⟩
    conv_rhs => rw [cw.eq_ofFields, hop, hnb, hoff, hrsv, cw.data_of_argHi_zero hd]
    rw [encode]
  · refine ⟨.sErrclr, rfl, rfl, ?_⟩
    rw [cw.eq_ofFields, hop, hnb, hoff, hrsv, hd, encode]

/-- R50: the fields that LegalE leaves free are the operands of one E-port command. -/
theorem exists_encode_of_legalE {cw : CommandWord} (h : legalE cw = true) :
    ∃ i : Instr, i.wf = true ∧ i.port = .engine ∧ encode i = cw := by
  simp only [legalE, Bool.and_eq_true, Bool.or_eq_true, beq_iff_eq, decide_eq_true_eq] at h
  obtain ⟨hrsv, (((⟨⟨⟨hop, hnb⟩, hoff⟩, hd⟩ | ⟨hop, hnb⟩) | ⟨hop, hnb⟩) | ⟨⟨hop, hnb⟩, hd⟩) |
    ⟨⟨⟨hop, hnb⟩, hoff⟩, hd⟩⟩ := h
  · refine ⟨.eReset, rfl, rfl, ?_⟩
    rw [cw.eq_ofFields, hop, hnb, hoff, hrsv, hd, encode]
  · refine ⟨.eXorb cw.off cw.data, rfl, rfl, ?_⟩
    conv_rhs => rw [cw.eq_ofFields, hop, hnb, hrsv]
    rw [encode]
  · refine ⟨.eXor cw.off cw.nb cw.data, decide_eq_true hnb, rfl, ?_⟩
    conv_rhs => rw [cw.eq_ofFields, hop, hrsv]
    rw [encode]
  · refine ⟨.eExtract cw.off cw.nb, decide_eq_true hnb, rfl, ?_⟩
    conv_rhs => rw [cw.eq_ofFields, hop, hrsv, hd]
    rw [encode]
  · refine ⟨.ePermute, rfl, rfl, ?_⟩
    rw [cw.eq_ofFields, hop, hnb, hoff, hrsv, hd, encode]

/-- The word of a well-formed command is legal on the command's port. -/
theorem legal_encode {i : Instr} (h : i.wf = true) : legal i.port (encode i) = true :=
  legal_of_decode (decodeOfEncodeIsIdentity i h)

/-- R49, R50: a word is legal exactly when it is the word of a well-formed command of the port. -/
theorem legal_iff_exists_encode {p : Port} {cw : CommandWord} :
    legal p cw = true ↔ ∃ i : Instr, i.wf = true ∧ i.port = p ∧ encode i = cw := by
  constructor
  · cases p with
    | sponge => exact exists_encode_of_legalS
    | engine => exact exists_encode_of_legalE
  · rintro ⟨i, hwf, rfl, rfl⟩
    exact legal_encode hwf

/-- The operands that R46 takes from the word of a command are the command's own. -/
theorem operandsOf_encode (i : Instr) : operandsOf i.port (encode i) = some i := by
  cases i with
  | sDigest len => simp [Instr.port, operandsOf, encode, BitVec.setWidth_setWidth_of_le]
  | _ => simp [Instr.port, operandsOf, encode]

/-- A port's decoder reads a command exactly from the word of that command, if it is well-formed and of that
port. -/
theorem decode_eq_ok_iff {p : Port} {cw : CommandWord} {i : Instr} :
    decode p cw = .ok i ↔ encode i = cw ∧ i.wf = true ∧ i.port = p := by
  constructor
  · intro h
    obtain ⟨j, hwf, rfl, rfl⟩ := legal_iff_exists_encode.mp (legal_of_decode h)
    have hji : j = i := Except.ok.inj ((decodeOfEncodeIsIdentity j hwf).symm.trans h)
    subst hji
    exact ⟨rfl, hwf, rfl⟩
  · rintro ⟨rfl, hwf, rfl⟩
    exact decodeOfEncodeIsIdentity i hwf

/-- Settles O3: a legal word is the word of a command, and the decoder reads that command. -/
theorem encodeOfDecodeIsIdentity : Obligations.EncodeOfDecodeIsIdentity :=
  fun _ _ _ h => decode_eq_ok_iff.mp h

theorem exists_decode_iff_legal {p : Port} {cw : CommandWord} :
    (∃ i, decode p cw = .ok i) ↔ legal p cw = true := by
  rw [legal_iff_exists_encode]
  apply exists_congr
  intro i
  rw [decode_eq_ok_iff, and_comm, and_assoc]

/-! #### The opcode table -/

/-- LEN is the lower half of ARG and ARG_HI the upper (R45). -/
theorem CommandWord.data_eq_argHi_append_len (cw : CommandWord) :
    cw.data = cw.argHi ++ CommandWord.len cw := by
  unfold CommandWord.data CommandWord.argHi CommandWord.len
  rw [BitVec.extractLsb'_append_extractLsb'_eq_extractLsb' (by rfl)]

theorem CommandWord.data_eq_zero_iff {cw : CommandWord} :
    cw.data = 0#64 ↔ CommandWord.len cw = 0#32 ∧ cw.argHi = 0#32 := by
  rw [CommandWord.data_eq_argHi_append_len]
  constructor
  · intro h
    exact ⟨BitVec.extractLsb'_append_eq_right.symm.trans (congrArg (BitVec.extractLsb' 0 32) h),
      BitVec.extractLsb'_append_eq_left.symm.trans (congrArg (BitVec.extractLsb' 32 32) h)⟩
  · rintro ⟨hlen, hhi⟩
    rw [hlen, hhi, BitVec.zero_append_zero]

/-- Two words are equal if and only if their fields are, with ARG taken as its two halves (R45). -/
theorem CommandWord.eq_iff_fields {v w : CommandWord} :
    v = w ↔ v.op = w.op ∧ v.nb = w.nb ∧ v.off = w.off ∧ v.rsv = w.rsv ∧
      CommandWord.len v = CommandWord.len w ∧ v.argHi = w.argHi := by
  constructor
  · rintro rfl
    simp
  · rintro ⟨hop, hnb, hoff, hrsv, hlen, hhi⟩
    rw [v.eq_ofFields, v.data_eq_argHi_append_len, hop, hnb, hoff, hrsv, hlen, hhi,
      ← w.data_eq_argHi_append_len, ← w.eq_ofFields]

/-- A mask acts on each field by itself. -/
theorem CommandWord.and_eq_iff_fields {cw m w : CommandWord} :
    cw &&& m = w ↔ cw.op &&& m.op = w.op ∧ cw.nb &&& m.nb = w.nb ∧ cw.off &&& m.off = w.off ∧
      cw.rsv &&& m.rsv = w.rsv ∧ CommandWord.len cw &&& CommandWord.len m = CommandWord.len w ∧
      cw.argHi &&& m.argHi = w.argHi := by
  rw [CommandWord.eq_iff_fields]
  simp only [CommandWord.op, CommandWord.nb, CommandWord.off, CommandWord.rsv, CommandWord.len,
    CommandWord.argHi, BitVec.extractLsb'_and]

/- Every mask of the table selects whole fields: each field is masked with 0 or with ones only. -/

theorem and_ones4 (x : BitVec 4) : x &&& 15#4 = x := BitVec.and_allOnes
theorem and_ones8 (x : BitVec 8) : x &&& 255#8 = x := BitVec.and_allOnes
theorem and_ones16 (x : BitVec 16) : x &&& 65535#16 = x := BitVec.and_allOnes
theorem and_ones32 (x : BitVec 32) : x &&& 4294967295#32 = x := BitVec.and_allOnes

/-- R49, R50: a word is legal exactly when a row of the port's match and mask table holds for it. -/
theorem legal_iff_matches {p : Port} {cw : CommandWord} :
    legal p cw = true ↔ ∃ r ∈ opcodeRows, r.port = p ∧ r.matches cw = true := by
  cases p with
  | sponge | engine =>
    simp [legal, legalS, legalE, opcodeRows, OpcodeRow.matches, CommandWord.and_eq_iff_fields,
      CommandWord.data_eq_zero_iff]
    simp [CommandWord.op, CommandWord.nb, CommandWord.off, CommandWord.rsv, CommandWord.len,
      CommandWord.argHi, and_ones4, and_ones8, and_ones16, and_ones32]
    simp only [and_or_left, and_assoc, and_comm, and_left_comm, or_assoc]

/-- Settles O4, by the round trip and the laws of LegalS and LegalE. -/
theorem decoderAcceptsExactlyLegalWords : Obligations.DecoderAcceptsExactlyLegalWords := by
  refine fun p cw => ⟨exists_decode_iff_legal, legal_iff_matches, fun i h => ?_⟩
  obtain ⟨rfl, _, rfl⟩ := decode_eq_ok_iff.mp h
  exact operandsOf_encode i

/-! #### Illegal words (R51) -/

@[simp] theorem encode_rsv (i : Instr) : (encode i).rsv = 0 := by
  cases i <;> simp [encode]

theorem encode_nb_le {i : Instr} (h : i.wf = true) : (encode i).nb.toNat ≤ 8 := by
  cases i <;> simp_all [encode, Instr.wf]

/-- The S-port's opcodes are 0x1 to 0x4 (R47). -/
theorem encode_op_of_sponge {i : Instr} (h : i.port = .sponge) :
    1 ≤ (encode i).op.toNat ∧ (encode i).op.toNat ≤ 4 := by
  cases i <;> simp_all [encode, Instr.port]

/-- The E-port's opcodes are 0x8 to 0xC (R48). -/
theorem encode_op_of_engine {i : Instr} (h : i.port = .engine) :
    8 ≤ (encode i).op.toNat ∧ (encode i).op.toNat ≤ 12 := by
  cases i <;> simp_all [encode, Instr.port]

theorem rsv_of_legal {p : Port} {cw : CommandWord} (h : legal p cw = true) : cw.rsv = 0 := by
  obtain ⟨i, _, _, rfl⟩ := legal_iff_exists_encode.mp h
  exact encode_rsv i

theorem nb_le_of_legal {p : Port} {cw : CommandWord} (h : legal p cw = true) : cw.nb.toNat ≤ 8 := by
  obtain ⟨i, hwf, _, rfl⟩ := legal_iff_exists_encode.mp h
  exact encode_nb_le hwf

theorem op_of_legalS {cw : CommandWord} (h : legalS cw = true) :
    1 ≤ cw.op.toNat ∧ cw.op.toNat ≤ 4 := by
  obtain ⟨i, _, hport, rfl⟩ := exists_encode_of_legalS h
  exact encode_op_of_sponge hport

theorem op_of_legalE {cw : CommandWord} (h : legalE cw = true) :
    8 ≤ cw.op.toNat ∧ cw.op.toNat ≤ 12 := by
  obtain ⟨i, _, hport, rfl⟩ := exists_encode_of_legalE h
  exact encode_op_of_engine hport

/-- Settles O5, by what RSV, NB and OP are in a legal word. -/
theorem illegalWordsOfEachPort : Obligations.IllegalWordsOfEachPort := by
  refine ⟨fun p cw hrsv => Bool.eq_false_iff.mpr fun h => hrsv (rsv_of_legal h),
    fun cw hop => Bool.eq_false_iff.mpr fun h => ?_, fun cw hop => Bool.eq_false_iff.mpr fun h => ?_,
    fun p cw hnb => Bool.eq_false_iff.mpr fun h => absurd (nb_le_of_legal h) (by omega),
    fun cw hS => Bool.eq_false_iff.mpr fun hE => ?_, fun p => ?_⟩
  · obtain ⟨hlow, hhigh⟩ := op_of_legalS h
    rcases hop with hop | hop
    · simp [hop] at hlow
    · omega
  · obtain ⟨hlow, hhigh⟩ := op_of_legalE h
    omega
  · have hhigh := (op_of_legalS hS).2
    have hlow := (op_of_legalE hE).1
    omega
  · cases p with
    | sponge | engine => decide

/-! #### The examples of R59 -/

/-- Settles O1: the ten rows are closed, and each is computed. -/
theorem specEncodingExamples : Obligations.SpecEncodingExamples := by
  unfold Obligations.SpecEncodingExamples
  decide

end Sys2Proof

/-! ### O20: the output words of n bytes (R52) -/

namespace Sys2Proof.Machine

/-! #### A byte string cut into chunks of eight (R57) -/

theorem chunkOf_length (bytes : List Byte) (c : Nat) :
    (chunkOf bytes c).length = min 8 (bytes.length - 8 * c) := by
  simp [chunkOf]

/-- The bytes before chunk c + 1 are those before chunk c and then chunk c. -/
theorem take_append_chunkOf (bytes : List Byte) (c : Nat) :
    bytes.take (8 * c) ++ chunkOf bytes c = bytes.take (8 * (c + 1)) := by
  rw [chunkOf, ← List.take_add, Nat.mul_succ]

/-- The first n chunks, joined, are the first 8n bytes. -/
theorem flatMap_chunkOf (bytes : List Byte) (n : Nat) :
    (List.range n).flatMap (chunkOf bytes) = bytes.take (8 * n) := by
  induction n with
  | zero => simp
  | succ n ih => rw [List.range_succ, List.flatMap_append, ih, ← take_append_chunkOf]; simp

/-- Chunk c of the bytes f 0, f 1, …, f (m − 1). -/
theorem chunkOf_map_range (f : Nat → Byte) (m c : Nat) :
    chunkOf ((List.range m).map f) c = (List.range (min 8 (m - 8 * c))).map fun k => f (8 * c + k) := by
  apply List.ext_getElem
  · simp [chunkOf]
  · intro k hk hk'
    simp [chunkOf]

/-! #### Output words -/

theorem outWords_getElem? {out : List Byte} {w : Nat} {o : OutWord}
    (h : (outWords out)[w]? = some o) : 8 * w < out.length ∧ o = outWord out w := by
  obtain ⟨hw, ho⟩ := List.getElem?_eq_some_iff.mp h
  rw [outWords_length] at hw
  refine ⟨by omega, ?_⟩
  simpa [outWords] using ho.symm

/-- Output word w carries chunk w of the output. -/
theorem outWord_bytes_eq_chunkOf (out : List Byte) (w : Nat) : (outWord out w).bytes = chunkOf out w :=
  outWord_bytes out w

/-- The words carry the output bytes in order. -/
theorem outputBytes_outWords (out : List Byte) : outputBytes (outWords out) = out := by
  rw [outputBytes, outWords, List.flatMap_map]
  simp only [outWord_bytes_eq_chunkOf]
  rw [flatMap_chunkOf, List.take_of_length_le (by omega)]

theorem littleEndian_congr {n : Nat} {f g : Nat → Byte} (h : ∀ k < n, f k = g k) :
    littleEndian n f = littleEndian n g := by
  unfold littleEndian
  congr 1
  exact List.map_congr_left fun k hk => by rw [h k (List.mem_range.mp hk)]

/-- No word spans two squeeze blocks, since 168 = 21 · 8: bytes 8w … 8w + 7 of a squeeze are lane w mod 21 of
squeeze block w / 21. -/
theorem outWord_data_of_squeeze (A : Lanes) (n w : Nat) (h : 8 * w + 8 ≤ n) :
    (outWord ((List.range n).map (squeezedByte A)) w).data =
      (keccakFTimes (w / 21) A)[w % 21]'(by omega) := by
  rw [← stRead_lane _ (w % 21) (by omega)]
  have hnb : min 8 (n - 8 * w) = 8 := by omega
  simp only [outWord, List.length_map, List.length_range, hnb, stRead]
  apply littleEndian_congr
  intro k hk
  have hlt : 8 * w + k < n := by omega
  have hblock : (8 * w + k) / 168 = w / 21 := by omega
  have hbyte : (8 * w + k) % 168 = 8 * (w % 21) + k := by omega
  simp [List.getD, hlt, squeezedByte, hblock, hbyte]

/-- Settles O20, by the form of output word w. -/
theorem outputWordsCarryTheBytes : Obligations.OutputWordsCarryTheBytes := by
  refine ⟨fun out => ⟨outWords_length out, outputBytes_outWords out, fun w o h => ?_⟩,
    fun A n w o h hfull => ?_⟩
  · obtain ⟨hw, rfl⟩ := outWords_getElem? h
    have hnb : (outWord out w).nb = min 8 (out.length - 8 * w) := rfl
    refine ⟨hnb, by omega, littleEndian_lt _ (outWord_nb_le out w) _, ?_, decide_eq_true_iff⟩
    rw [outWord_bytes_eq_chunkOf, hnb, ← chunkOf_length, chunkOf]
    simp
  · obtain ⟨-, rfl⟩ := outWords_getElem? h
    rw [Vector.getElem?_eq_getElem (show w % 21 < 25 by omega)]
    exact congrArg some (outWord_data_of_squeeze A n w hfull)

end Sys2Proof.Machine

/-! ### O28, O36: the pseudo-commands (R57) -/

namespace Sys2Proof.Machine

/-! #### A sequence of commands, with a host that takes every output -/

@[simp] theorem State.settle_S (s : State) : s.settle.S = s.S := rfl
@[simp] theorem State.settle_absorbed (s : State) : s.settle.absorbed = s.absorbed := rfl
@[simp] theorem State.settle_finalized (s : State) : s.settle.finalized = s.finalized := rfl
@[simp] theorem State.settle_errUaf (s : State) : s.settle.errUaf = s.errUaf := rfl
@[simp] theorem State.settle_rsp (s : State) : s.settle.rsp = none := rfl
@[simp] theorem State.settle_responses (s : State) :
    s.settle.responses = s.responses ++ s.rsp.toList := rfl

theorem runCommands_append {is js : List Instr} {s t : State} (h : runCommands is s = .next t) :
    runCommands (is ++ js) s = runCommands js t := by
  induction is generalizing s with
  | nil => rw [← Host.Outcome.next.inj h, List.nil_append]
  | cons i is ih =>
    obtain ⟨u, hu⟩ := exec_completes i s
    simp only [runCommands, hu] at h
    simp only [List.cons_append, runCommands, hu]
    exact ih h

/-- What holds before command c holds, of c + 1, after it: so of all n after n commands. -/
theorem runCommands_range {f : Nat → Instr} {P : Nat → State → Prop} {n : Nat} {s : State}
    (hstart : P 0 s)
    (hstep : ∀ c t, c < n → P c t → ∃ u, exec (f c) t = .next u ∧ P (c + 1) u.settle) :
    ∃ t, runCommands ((List.range n).map f) s = .next t ∧ P n t := by
  induction n with
  | zero => exact ⟨s, rfl, hstart⟩
  | succ n ih =>
    obtain ⟨t, hrun, hP⟩ := ih fun c t hc => hstep c t (by omega)
    obtain ⟨u, hu, hP'⟩ := hstep n t (by omega) hP
    refine ⟨u.settle, ?_, hP'⟩
    rw [List.range_succ, List.map_append, runCommands_append hrun]
    simp [runCommands, hu]

/-- How many commands carry m bytes: an empty string is one command too. -/
def chunkCount (m : Nat) : Nat := max 1 ((m + 7) / 8)

theorem le_chunkCount (m : Nat) : m ≤ 8 * chunkCount m := by
  unfold chunkCount
  omega

theorem chunkCount_of_pos {m : Nat} (h : 0 < m) : chunkCount m = (m + 7) / 8 := by
  unfold chunkCount
  omega

/-- Every chunk starts within the bytes or at their end. -/
theorem of_lt_chunkCount {m c : Nat} (h : c < chunkCount m) : 8 * c ≤ m := by
  unfold chunkCount at h
  omega

/-! #### Chunks as operands -/

theorem chunkOf_length_le (bytes : List Byte) (c : Nat) : (chunkOf bytes c).length ≤ 8 := by
  rw [chunkOf_length]
  omega

theorem ofNat_toNat_of_le_eight {n : Nat} (h : n ≤ 8) : (BitVec.ofNat 4 n).toNat = n := by
  rw [BitVec.toNat_ofNat, Nat.mod_eq_of_lt (by omega)]

theorem ofNat_toNat_of_le_stateBytes {off : Nat} (h : off ≤ 200) : (BitVec.ofNat 8 off).toNat = off := by
  rw [BitVec.toNat_ofNat, Nat.mod_eq_of_lt (by omega)]

theorem dataBytes_packData {bytes : List Byte} (h : bytes.length ≤ 8) :
    dataBytes bytes.length (packData bytes) = bytes := by
  rw [packData, dataBytes_littleEndian _ h]
  apply List.ext_getElem
  · simp
  · intro k hk hk'
    simp [List.getD, hk']

/-! #### UPDATE -/

/-- S.ABSORB of up to eight bytes. -/
def absorbOf (bytes : List Byte) : Instr := .sAbsorb (BitVec.ofNat 4 bytes.length) (packData bytes)

theorem updateCommands_eq (bytes : List Byte) :
    updateCommands bytes =
      (List.range (chunkCount bytes.length)).map fun c => absorbOf (chunkOf bytes c) := by
  cases bytes with
  | nil => rfl
  | cons v vs =>
    rw [chunkCount_of_pos (List.length_pos_of_ne_nil (List.cons_ne_nil v vs))]
    rfl

theorem exec_absorbOf {bytes : List Byte} (h : bytes.length ≤ 8) {s : State}
    (hf : s.finalized = false) : exec (absorbOf bytes) s = .next (s.absorbBytes bytes) := by
  simp [exec, absorbOf, execSAbsorb, legalCount, ofNat_toNat_of_le_eight h, h, hf, dataBytes_packData h]

theorem exec_absorbOf_of_finalized {bytes : List Byte} (h : bytes.length ≤ 8) {s : State}
    (hf : s.finalized = true) : exec (absorbOf bytes) s = .next { s with errUaf := true } := by
  simp [exec, absorbOf, execSAbsorb, legalCount, ofNat_toNat_of_le_eight h, h, hf]

@[simp] theorem State.absorbBytes_finalized (s : State) (vs : List Byte) :
    (s.absorbBytes vs).finalized = s.finalized := by
  rw [State.absorbBytes_frame]

/-- The state t stands where absorbing the bytes one by one from s stands. -/
def State.Absorbed (s : State) (bytes : List Byte) (t : State) : Prop :=
  t.finalized = false ∧ t.S = (s.absorbBytes bytes).S ∧ t.absorbed = (s.absorbBytes bytes).absorbed

theorem State.Absorbed.append {s t : State} {vs : List Byte} (h : s.Absorbed vs t) (ws : List Byte) :
    s.Absorbed (vs ++ ws) (t.absorbBytes ws).settle := by
  obtain ⟨hf, hS, ha⟩ := h
  rw [State.Absorbed, State.absorbBytes_append]
  exact ⟨(t.absorbBytes_finalized ws).trans hf, State.absorbBytes_congr _ _ ws hS ha⟩

/-- UPDATE in the Absorbing phase, by induction on the chunks. -/
theorem runCommands_updateCommands (bytes : List Byte) (s : State) (hf : s.finalized = false) :
    ∃ t, runCommands (updateCommands bytes) s = .next t ∧ s.Absorbed bytes t := by
  have hrun := runCommands_range (f := fun c => absorbOf (chunkOf bytes c))
    (P := fun c t => s.Absorbed (bytes.take (8 * c)) t) (n := chunkCount bytes.length) (s := s)
    ⟨hf, rfl, rfl⟩ fun c t _ ht => by
      refine ⟨_, exec_absorbOf (chunkOf_length_le bytes c) ht.1, ?_⟩
      rw [← take_append_chunkOf]
      exact ht.append _
  rwa [← updateCommands_eq, List.take_of_length_le (le_chunkCount _)] at hrun

/-- UPDATE in the Squeezable phase: every S.ABSORB is rejected, and there is at least one. -/
theorem runCommands_updateCommands_of_finalized (bytes : List Byte) (s : State)
    (hf : s.finalized = true) :
    ∃ t, runCommands (updateCommands bytes) s = .next t ∧ t.S = s.S ∧ t.errUaf = true := by
  obtain ⟨t, hrun, -, hS, huaf⟩ := runCommands_range (f := fun c => absorbOf (chunkOf bytes c))
    (P := fun c t => t.finalized = true ∧ t.S = s.S ∧ (0 < c → t.errUaf = true))
    (n := chunkCount bytes.length) (s := s) ⟨hf, rfl, fun h => absurd h (by omega)⟩
    fun c t _ ⟨htf, hS, _⟩ =>
      ⟨_, exec_absorbOf_of_finalized (chunkOf_length_le bytes c) htf, htf, hS, fun _ => rfl⟩
  refine ⟨t, ?_, hS, huaf (by unfold chunkCount; omega)⟩
  rw [updateCommands_eq, hrun]

/-- Settles O28, phase by phase. -/
theorem updateAbsorbsItsBytes : Obligations.UpdateAbsorbsItsBytes := by
  refine fun bytes s => ⟨fun hf => ?_, runCommands_updateCommands_of_finalized bytes s⟩
  obtain ⟨t, hrun, -, hS, ha⟩ := runCommands_updateCommands bytes s hf
  exact ⟨t, hrun, hS, ha⟩

/-! #### E.XORBYTES -/

/-- E.XOR of up to eight bytes at an offset. -/
def xorOf (off : Nat) (bytes : List Byte) : Instr :=
  .eXor (BitVec.ofNat 8 off) (BitVec.ofNat 4 bytes.length) (packData bytes)

theorem xorBytesCommands_eq (off : Nat) (bytes : List Byte) :
    xorBytesCommands off bytes =
      if off + bytes.length ≤ 200 then
        some ((List.range (chunkCount bytes.length)).map fun c => xorOf (off + 8 * c) (chunkOf bytes c))
      else none := by
  cases bytes with
  | nil => rfl
  | cons v vs =>
    rw [chunkCount_of_pos (List.length_pos_of_ne_nil (List.cons_ne_nil v vs))]
    rfl

theorem xorBytesCommands_eq_none_iff {off : Nat} {bytes : List Byte} :
    xorBytesCommands off bytes = none ↔ 200 < off + bytes.length := by
  simp [xorBytesCommands_eq]

theorem xorBytesCommands_eq_some_iff {off : Nat} {bytes : List Byte} {cs : List Instr} :
    xorBytesCommands off bytes = some cs ↔ off + bytes.length ≤ 200 ∧
      (List.range (chunkCount bytes.length)).map (fun c => xorOf (off + 8 * c) (chunkOf bytes c)) = cs := by
  simp [xorBytesCommands_eq]

theorem exec_xorOf {off : Nat} {bytes : List Byte} (h : bytes.length ≤ 8)
    (hoff : off + bytes.length ≤ 200) (s : State) :
    exec (xorOf off bytes) s = .next ({ s with S := stXorBytes s.S off bytes }.respond .ok 0) := by
  have hoff' := ofNat_toNat_of_le_stateBytes (show off ≤ 200 by omega)
  simp [exec, xorOf, execEXor, legalCount, inRangeBytes, Config.stateBytes, stXor, hoff',
    ofNat_toNat_of_le_eight h, h, hoff, dataBytes_packData h]

/-- E.XORBYTES, by induction on the chunks. -/
theorem runCommands_xorBytesCommands {off : Nat} {bytes : List Byte} {cs : List Instr} (s : State)
    (h : xorBytesCommands off bytes = some cs) :
    ∃ t, runCommands cs s = .next t ∧ t.S = stXorBytes s.S off bytes := by
  obtain ⟨hrange, rfl⟩ := xorBytesCommands_eq_some_iff.mp h
  have hrun := runCommands_range (f := fun c => xorOf (off + 8 * c) (chunkOf bytes c))
    (P := fun c t => t.S = stXorBytes s.S off (bytes.take (8 * c))) (n := chunkCount bytes.length)
    (s := s) rfl fun c t hc ht => by
      have hstart := of_lt_chunkCount hc
      have hlen := chunkOf_length bytes c
      refine ⟨_, exec_xorOf (chunkOf_length_le bytes c) (by omega) t, ?_⟩
      rw [← take_append_chunkOf, stXorBytes_append, ← ht, List.length_take_of_le hstart]
      rfl
  rwa [List.take_of_length_le (le_chunkCount _)] at hrun

/-! #### E.EXTRACTBYTES -/

/-- E.EXTRACT of up to eight bytes at an offset. -/
def extractOf (off n : Nat) : Instr := .eExtract (BitVec.ofNat 8 off) (BitVec.ofNat 4 n)

theorem extractBytesCommands_eq (off m : Nat) :
    extractBytesCommands off m =
      if off + m ≤ 200 then
        some ((List.range (chunkCount m)).map fun c => extractOf (off + 8 * c) (min 8 (m - 8 * c)))
      else none := by
  cases m with
  | zero => rfl
  | succ m =>
    rw [chunkCount_of_pos m.succ_pos]
    rfl

theorem extractBytesCommands_eq_none_iff {off m : Nat} :
    extractBytesCommands off m = none ↔ 200 < off + m := by
  simp [extractBytesCommands_eq]

theorem extractBytesCommands_eq_some_iff {off m : Nat} {cs : List Instr} :
    extractBytesCommands off m = some cs ↔ off + m ≤ 200 ∧
      (List.range (chunkCount m)).map (fun c => extractOf (off + 8 * c) (min 8 (m - 8 * c))) = cs := by
  simp [extractBytesCommands_eq]

theorem exec_extractOf {off n : Nat} (h : n ≤ 8) (hoff : off + n ≤ 200) (s : State) :
    exec (extractOf off n) s = .next (s.respond .ok (stRead s.S off n)) := by
  have hoff' := ofNat_toNat_of_le_stateBytes (show off ≤ 200 by omega)
  simp [exec, extractOf, execEExtract, legalCount, inRangeBytes, Config.stateBytes, hoff',
    ofNat_toNat_of_le_eight h, h, hoff]

/-- The response to the E.EXTRACT of chunk c of m bytes from `off` on. -/
def extractResponse (S : Lanes) (off m c : Nat) : Response :=
  { code := .ok, data := stRead S (off + 8 * c) (min 8 (m - 8 * c)) }

/-- The state bytes from `off` on, m of them. -/
def stateBytesFrom (S : Lanes) (off m : Nat) : List Byte :=
  (List.range m).map fun k => stByte S (off + k)

/-- The response to chunk c delivers chunk c of the state bytes. -/
theorem dataBytes_extractResponse (S : Lanes) (off m c : Nat) :
    dataBytes (min 8 (m - 8 * c)) (extractResponse S off m c).data =
      chunkOf (stateBytesFrom S off m) c := by
  rw [stateBytesFrom, chunkOf_map_range, extractResponse, stRead,
    dataBytes_littleEndian _ (Nat.min_le_left _ _)]
  simp only [Nat.add_assoc]

theorem extractedBytes_extractResponses (S : Lanes) (off m n : Nat) :
    extractedBytes m ((List.range n).map (extractResponse S off m)) =
      (stateBytesFrom S off m).take (8 * n) := by
  rw [← flatMap_chunkOf, extractedBytes]
  simp only [List.length_map, List.length_range]
  apply List.flatMap_congr
  intro c hc
  have hdata : (((List.range n).map (extractResponse S off m)).map fun r => r.data).getD c 0#64 =
      (extractResponse S off m c).data := by
    simp [List.getD, List.mem_range.mp hc]
  rw [hdata, dataBytes_extractResponse]

/-- E.EXTRACTBYTES, by induction on the chunks. -/
theorem runCommands_extractBytesCommands {off m : Nat} {cs : List Instr} {s : State}
    (hrsp : s.rsp = none) (h : extractBytesCommands off m = some cs) :
    ∃ t, runCommands cs s = .next t ∧ t.rsp = none ∧ t.S = s.S ∧
      t.responses = s.responses ++ (List.range (chunkCount m)).map (extractResponse s.S off m) := by
  obtain ⟨hrange, rfl⟩ := extractBytesCommands_eq_some_iff.mp h
  refine runCommands_range (f := fun c => extractOf (off + 8 * c) (min 8 (m - 8 * c)))
    (P := fun c t => t.rsp = none ∧ t.S = s.S ∧
      t.responses = s.responses ++ (List.range c).map (extractResponse s.S off m))
    ⟨hrsp, rfl, by simp⟩ fun c t hc ⟨_, hS, hresponses⟩ => ?_
  have hstart := of_lt_chunkCount hc
  refine ⟨_, exec_extractOf (Nat.min_le_left _ _) (by omega) t, rfl, hS, ?_⟩
  rw [State.settle_responses, List.range_succ, List.map_append, ← List.append_assoc, ← hresponses, hS]
  rfl

/-- Settles O36, by the two expansions. -/
theorem enginePseudoCommands : Obligations.EnginePseudoCommands := by
  refine ⟨fun off bytes => ⟨xorBytesCommands_eq_none_iff, extractBytesCommands_eq_none_iff⟩,
    fun off bytes cs s h => ?_, fun off m cs s hrsp h => ?_⟩
  · have hrange := (xorBytesCommands_eq_some_iff.mp h).1
    obtain ⟨t, hrun, hS⟩ := runCommands_xorBytesCommands s h
    exact ⟨t, hrun, fun c hc => by rw [hS]; exact stByte_stXorBytes s.S off bytes hrange c hc⟩
  · obtain ⟨t, hrun, -, hS, hresponses⟩ := runCommands_extractBytesCommands hrsp h
    refine ⟨t, hrun, hS, ?_⟩
    rw [hresponses, List.drop_left, extractedBytes_extractResponses,
      List.take_of_length_le (by simpa [stateBytesFrom] using le_chunkCount m)]
    rfl

end Sys2Proof.Machine

/-! ### O38: what the block drives on its signals (R52, R53, R54, R157) -/

namespace Sys2Proof.Machine

/-- o_valid holds exactly while OQ is non-empty, and never while rst_n = 0. -/
theorem State.oValid_eq_true_iff {s : State} {inp : Inputs} :
    s.oValid inp = true ↔ inp.rstN = true ∧ s.oq ≠ [] := by
  simp [State.oValid]

/-- The O-port shows the first word of OQ. -/
theorem State.outputs_of_oq_cons {s : State} {inp : Inputs} {w : OutWord} {ws : List OutWord}
    (hr : inp.rstN = true) (hq : s.oq = w :: ws) :
    (s.outputs inp).oData = w.data ∧ (s.outputs inp).oNb = BitVec.ofNat 4 w.nb ∧
      (s.outputs inp).oLast = w.last := by
  simp [State.outputs, State.oValid, hr, hq]

/-- With ENGINE_TEST_PORT the E-port shows its handshake signals and the response that is held. -/
theorem State.outputs_engine_of_testPort {s : State} {inp : Inputs}
    (hp : s.build.engineTestPort = true) :
    ∃ e, (s.outputs inp).engine = some e ∧
      e.eReady = (inp.rstN && !s.busy && s.rsp.isNone && !inp.sValid) ∧
      e.eRspValid = (inp.rstN && s.rsp.isSome) ∧
      ∀ r, inp.rstN = true → s.rsp = some r → e.eRspCode = r.code.bits ∧ e.eRspData = r.data := by
  refine ⟨_, if_pos hp, ?_, rfl, fun r hr hrsp => ?_⟩
  · simp [State.eReady, hp]
  · simp [State.eRspValid, hr, hrsp]

/-- Settles O38, port by port. -/
theorem portsShowQueueAndResponse : Obligations.PortsShowQueueAndResponse :=
  fun s inp => ⟨rfl, rfl, rfl, State.oValid_eq_true_iff,
    fun _ _ => State.outputs_of_oq_cons,
    fun hp => if_neg (by simp [hp]),
    State.outputs_engine_of_testPort⟩

end Sys2Proof.Machine

/-! ### O11, O7, O8, O9, O10: the permutation and its datapath (R60 to R72, R75) -/

namespace Sys2Proof.Machine

/-! #### The folded datapath (R72) -/

/-- After all clock cycles but one, the cycle at `rnd` is the last. -/
theorem lastClock_of_succ_eq_permuteCycles {u : Unroll} {k : Nat} (hk : k + 1 = permuteCycles u)
    {rnd : Fin 24} (hrnd : rnd.val = k * u.rounds) : lastClock u rnd = true := by
  have h24 : (k + 1) * u.rounds = 24 := hk ▸ permuteCycles_mul u
  rw [Nat.succ_mul] at h24
  exact decide_eq_true (by omega)

/-- PERMUTE_CYCLES clock cycles do what the permutation in one go does, and leave `rnd` at 0: the cycles
before the last do the first rounds, and the last does the rest. -/
theorem datapathClocks_permuteCycles (u : Unroll) (d : Datapath) :
    datapathClocks u (permuteCycles u) (d, 0) = (datapathPermute d, 0) := by
  have hpos : permuteCycles u ≠ 0 := fun h => by simpa [h] using permuteCycles_mul u
  obtain ⟨k, hk⟩ := Nat.exists_eq_succ_of_ne_zero hpos
  obtain ⟨h, hprefix⟩ := datapathClocks_prefix u d k (by omega)
  obtain ⟨hrest, hrnd⟩ := datapathRest_last u ⟨k * u.rounds, h⟩
    ((roundIndices.take (k * u.rounds)).foldl datapathRound d)
    (lastClock_of_succ_eq_permuteCycles hk.symm rfl)
  rw [hk, datapathClocks_succ', hprefix, hrest, hrnd, ← datapathRest_zero]
  unfold datapathRest
  rw [← List.foldl_append, List.take_append_drop]
  rfl

/-- Settles O11: the cycles before the last by the rounds they have done, all of them by the permutation in
one go. -/
theorem foldedDatapathComputesKeccakF : Obligations.FoldedDatapathComputesKeccakF := by
  intro u A sc
  refine ⟨?_, ?_, fun k hk => ?_⟩
  · rw [datapathClocks_permuteCycles, datapathPermute_lanes]
  · rw [datapathClocks_permuteCycles]
  · obtain ⟨_, hprefix⟩ := datapathClocks_prefix u { lanes := A, scratch := sc } k hk
    rw [hprefix]

/-! #### Rotation (R60, R61) -/

theorem rotl64_of_pos (x : Lane) {n : Nat} (hn : 1 ≤ n) :
    rotl64 x n = (x <<< n) ||| (x >>> (64 - n)) :=
  if_neg (by omega)

/-- For n below 64 it is the rotation of `BitVec`, whose bits the library describes. -/
theorem rotl64_eq_rotateLeft (x : Lane) {n : Nat} (hn : n < 64) : rotl64 x n = x.rotateLeft n := by
  rw [BitVec.rotateLeft_def, Nat.mod_eq_of_lt hn]
  by_cases h : n = 0
  · subst h
    rw [rotl64_zero, BitVec.shiftLeft_zero, BitVec.ushiftRight_eq_zero (by omega), BitVec.or_zero]
  · exact rotl64_of_pos x (by omega)

theorem getLsbD_rotl64 (x : Lane) {n z : Nat} (hn : n < 64) (hz : z < 64) :
    (rotl64 x n).getLsbD z = x.getLsbD ((z + (64 - n)) % 64) := by
  rw [rotl64_eq_rotateLeft x hn, BitVec.getLsbD_rotateLeft_of_le hn]
  by_cases h : z < n
  · have hmod : (z + (64 - n)) % 64 = 64 - n + z := by omega
    simp [h, hmod]
  · have hmod : (z + (64 - n)) % 64 = z - n := by omega
    simp [h, hz, hmod]

/-- R61: at 32 the halves change places. -/
theorem rotl64_half (x : Lane) : rotl64 x 32 = x.extractLsb' 0 32 ++ x.extractLsb' 32 32 := by
  apply BitVec.eq_of_getLsbD_eq
  intro z hz
  rw [getLsbD_rotl64 x (by decide) hz, BitVec.getLsbD_append]
  by_cases h : z < 32
  · have hmod : (z + (64 - 32)) % 64 = 32 + z := by omega
    simp [h, hmod]
  · have hmod : (z + (64 - 32)) % 64 = z - 32 := by omega
    have hlt : z - 32 < 32 := by omega
    simp [h, hmod, hlt]

/-- Settles O7. -/
theorem rotateLeftMovesBits : Obligations.RotateLeftMovesBits :=
  ⟨fun x _ _ hn hz => getLsbD_rotl64 x hn hz, fun x _ hn _ => rotl64_of_pos x hn, rotl64_zero,
    rotl64_half⟩

/-! #### Theta, Chi and Iota (R62, R66, R67) -/

/-- Iota changes lane 0 only. -/
theorem iota_get (A : Lanes) (rd : Fin 24) (i : Fin 25) :
    (iota A rd)[i] = if i = 0 then A[i] ^^^ rcTable[rd] else A[i] := by
  by_cases h : i = 0
  · subst h; simp [iota]
  · have hne : 0 ≠ i.val := fun h0 => h (Fin.ext h0.symm)
    rw [if_neg h]
    exact Vector.getElem_set_ne _ _ hne

/-- Settles O8; mod 5, Theta's column x + 4 is the spec's x − 1. -/
theorem thetaChiIotaByLane : Obligations.ThetaChiIotaByLane := by
  intro A
  refine ⟨fun x y => ?_, laneAt_chi A, iota_get A⟩
  have hx : x + 4 = x - 1 := by revert x; decide
  simp only [laneAt_theta, thetaEffect_get, thetaParity_get, hx]

/-! #### Rho and Pi (R63, R64, R65) -/

/-- Pi's writes, in any order and with repetitions: a destination holds its source's lane once it is
written, since no other source has that destination. -/
theorem foldl_setIfInBounds_piTable_get (A : Lanes) (i : Fin 25) (is : List (Fin 25)) (B : Lanes)
    (h : i ∈ is ∨ B[piTable[i]]'(piTable_lt i) = A[i]) :
    (is.foldl (fun B j => B.setIfInBounds piTable[j] A[j]) B)[piTable[i]]'(piTable_lt i) = A[i] := by
  induction is generalizing B with
  | nil => exact h.resolve_left List.not_mem_nil
  | cons j is ih =>
    apply ih
    by_cases hji : j = i
    · right
      rw [hji]
      exact Vector.getElem_setIfInBounds_self (piTable_lt i)
    · have hne : piTable[j] ≠ piTable[i] := fun he => hji (piTable_inj j i he)
      rw [Vector.getElem_setIfInBounds_ne (piTable_lt i) hne]
      exact h.imp_left fun hi => List.mem_of_ne_of_mem (Ne.symm hji) hi

theorem mem_laneIndices : ∀ i : Fin 25, i ∈ laneIndices := by decide

theorem piStep_get_piTable (A : Lanes) (i : Fin 25) :
    (piStep A)[piTable[i]]'(piTable_lt i) = A[i] :=
  foldl_setIfInBounds_piTable_get A i laneIndices Lanes.zero (.inl (mem_laneIndices i))

theorem piStep_getD_piTable (A : Lanes) (i : Fin 25) : (piStep A).getD piTable[i] 0#64 = A[i] := by
  rw [getD_eq_getElem _ _ (piTable_lt i), piStep_get_piTable]

/-- The inverse of π as R64 prints it: the source of each destination. -/
def piSource : List Nat :=
  [0, 6, 12, 18, 24, 3, 9, 10, 16, 22, 1, 7, 13, 19, 20, 4, 5, 11, 17, 23, 2, 8, 14, 15, 21]

theorem piTable_piSource :
    ∀ d : Fin 25, ∃ i : Fin 25, piSource.getD d.val 0 = i.val ∧ piTable[i] = d.val := by decide

theorem piStep_get (A : Lanes) (d : Fin 25) : (piStep A)[d] = A.getD (piSource.getD d.val 0) 0#64 := by
  obtain ⟨i, hsource, hd⟩ := piTable_piSource d
  rw [hsource, getD_eq_getElem _ _ i.isLt]
  have hwrite := piStep_get_piTable A i
  simp only [hd] at hwrite
  exact hwrite

/-- Settles O9. -/
theorem rhoThenPiMovesRotatedLanes : Obligations.RhoThenPiMovesRotatedLanes := by
  refine ⟨piTable_lt, piTable_inj, fun A i => ⟨piStep_getD_piTable A i, ?_, piStep_get A i⟩⟩
  rw [piStep_getD_piTable, rho_get]

/-! #### The tables against their generating definitions (R75) -/

/-- Settles O10, table by table: RC, the offset of lane 0, the other offsets along the walk, π. -/
theorem tablesMeetGeneratingDefinitions : Obligations.TablesMeetGeneratingDefinitions :=
  ⟨by decide, rfl, by decide, by decide⟩

end Sys2Proof.Machine

/-! ### O29 to O34, O37: the E-port's commands (R80 to R93) -/

namespace Sys2Proof.Machine

/-! #### Each command by its range and byte count (R83 to R88) -/

section Commands

variable {off : BitVec 8} {nb : BitVec 4} {data : BitVec 64} (s : State)

theorem exec_eReset : exec .eReset s = .next ({ s with S := Lanes.zero }.respond .ok 0) := rfl

theorem exec_eXorb_of_lt (h : off.toNat < 200) :
    exec (.eXorb off data) s =
      .next ({ s with S := stXorByte s.S off.toNat (data.setWidth 8) }.respond .ok 0) := by
  simp [exec, execEXorb, inRangeByte, Config.stateBytes, h, byteOf_zero]

theorem exec_eXorb_of_ge (h : 200 ≤ off.toNat) :
    exec (.eXorb off data) s = .next (s.raise .engineRange) := by
  simp [exec, execEXorb, inRangeByte, Config.stateBytes, h.not_gt]

theorem exec_eXor_of_le (hnb : nb.toNat ≤ 8) (h : off.toNat + nb.toNat ≤ 200) :
    exec (.eXor off nb data) s =
      .next ({ s with S := stXor s.S off.toNat nb.toNat data }.respond .ok 0) := by
  simp [exec, execEXor, legalCount, inRangeBytes, Config.stateBytes, hnb, h]

theorem exec_eXor_of_gt (hnb : nb.toNat ≤ 8) (h : 200 < off.toNat + nb.toNat) :
    exec (.eXor off nb data) s = .next (s.raise .engineRange) := by
  simp [exec, execEXor, legalCount, inRangeBytes, Config.stateBytes, hnb, h.not_ge]

theorem exec_eXor_of_illegalCount (hnb : 8 < nb.toNat) :
    exec (.eXor off nb data) s = .next (s.raise .illegalCommandE) := by
  simp [exec, execEXor, legalCount, hnb]

theorem exec_eExtract_of_le (hnb : nb.toNat ≤ 8) (h : off.toNat + nb.toNat ≤ 200) :
    exec (.eExtract off nb) s = .next (s.respond .ok (stRead s.S off.toNat nb.toNat)) := by
  simp [exec, execEExtract, legalCount, inRangeBytes, Config.stateBytes, hnb, h]

theorem exec_eExtract_of_gt (hnb : nb.toNat ≤ 8) (h : 200 < off.toNat + nb.toNat) :
    exec (.eExtract off nb) s = .next (s.raise .engineRange) := by
  simp [exec, execEExtract, legalCount, inRangeBytes, Config.stateBytes, hnb, h.not_ge]

theorem exec_eExtract_of_illegalCount (hnb : 8 < nb.toNat) :
    exec (.eExtract off nb) s = .next (s.raise .illegalCommandE) := by
  simp [exec, execEExtract, legalCount, hnb]

theorem exec_ePermute :
    exec .ePermute s =
      .next ({ s with S := keccakF s.S, scratch := s.permuteS.scratch }.respond .ok 0) := by
  rw [← State.permuteS_eq]
  rfl

end Commands

/-! #### Legality at the E-port (R50, R81, R133) -/

theorem acceptE_of_decodeE {cw : CommandWord} {i : Instr} (h : decodeE cw = .ok i) (s : State) :
    acceptE exec cw s = exec i s := by
  simp only [acceptE, h]

theorem acceptE_of_decodeE_error {cw : CommandWord} {e : DecodeError} (h : decodeE cw = .error e)
    (s : State) : acceptE exec cw s = .next (s.raise .illegalCommandE) := by
  simp only [acceptE, h]

/-- The command that a legal word stands for is the one its OP and operands name (R46). -/
theorem decodeE_of_legalE {cw : CommandWord} {i : Instr} (h : legalE cw = true)
    (ho : operandsOf .engine cw = some i) : decodeE cw = .ok i := by
  obtain ⟨j, hj⟩ := (exists_decode_iff_legal (p := .engine)).mpr h
  obtain ⟨-, -, hoperands⟩ := decoderAcceptsExactlyLegalWords .engine cw
  have hji : j = i := Option.some.inj ((hoperands j hj).symm.trans ho)
  exact hji ▸ hj

theorem exists_decodeE_error_of_not_legalE {cw : CommandWord} (h : legalE cw ≠ true) :
    ∃ e, decodeE cw = .error e := by
  cases hd : decodeE cw with
  | ok i => exact absurd (legalE_of_decodeE hd) h
  | error e => exact ⟨e, rfl⟩

/-- A word whose OP names a command runs it where it is legal, and is refused with code 2 where it is not; `P`
is what R50 asks of the other fields. -/
theorem acceptE_of_operandsOf {cw : CommandWord} {i : Instr} {P : Prop} [Decidable P]
    (ho : operandsOf .engine cw = some i) (hP : legalE cw = true ↔ P) (s : State) :
    if P then acceptE exec cw s = exec i s
    else ∃ f : PortFaults, acceptE exec cw s =
      .next { s with rsp := some { code := .illegalCommand, data := 0 }, portFaults := f } := by
  split
  next h => exact acceptE_of_decodeE (decodeE_of_legalE (hP.mpr h) ho) s
  next h =>
    obtain ⟨e, he⟩ := exists_decodeE_error_of_not_legalE (mt hP.mp h)
    exact ⟨_, acceptE_of_decodeE_error he s⟩

/-- Where the operands of a word name a well-formed command, the word of that command is the only legal one. -/
theorem legalE_iff_eq_encode {cw : CommandWord} {i : Instr} (ho : operandsOf .engine cw = some i)
    (hwf : i.wf = true) (hp : i.port = .engine) : legalE cw = true ↔ cw = encode i := by
  constructor
  · intro h
    exact (encodeOfDecodeIsIdentity .engine cw i (decodeE_of_legalE h ho)).1.symm
  · rintro rfl
    exact legalE_of_decodeE ((decode_eq_ok_iff (p := .engine)).mpr ⟨rfl, hwf, hp⟩)

/-! #### The statements, command by command -/

/-- Settles O29: of OP = 8 the word of E.RESET is the only legal one. -/
theorem eResetZeroesState : Obligations.EResetZeroesState := by
  refine ⟨exec_eReset, stByte_zero, fun cw s hop => ?_⟩
  have ho : operandsOf .engine cw = some .eReset := by simp [operandsOf, hop]
  exact acceptE_of_operandsOf ho (legalE_iff_eq_encode ho rfl rfl) s

/-- Settles O30, by the byte law of StXorByte. -/
theorem eXorbChangesOneByte : Obligations.EXorbChangesOneByte :=
  ⟨fun off value s h => ⟨_, fun c hc => stByte_stXorByte s.S off.toNat c _ h hc, exec_eXorb_of_lt s h⟩,
    fun _ _ s h => ⟨_, exec_eXorb_of_ge s h⟩,
    fun cw s hop => acceptE_of_operandsOf (by simp [operandsOf, hop])
      (by simp [legalE, hop, and_comm]) s⟩

/-- Settles O31, by the byte law of StXor. -/
theorem eXorIsAllOrNothing : Obligations.EXorIsAllOrNothing :=
  ⟨fun off nb data s hnb h => ⟨_, stByte_stXor s.S off.toNat nb.toNat data h, exec_eXor_of_le s hnb h⟩,
    fun _ _ _ s hnb h => ⟨_, exec_eXor_of_gt s hnb h⟩,
    fun cw s hop => acceptE_of_operandsOf (by simp [operandsOf, hop])
      (by simp [legalE, hop, and_comm]) s⟩

/-- Settles O32, by the byte law of StRead. -/
theorem eExtractReadsBytes : Obligations.EExtractReadsBytes :=
  ⟨fun off nb s hnb h => ⟨_, fun k _ => byteOf_stRead s.S off.toNat nb.toNat hnb k,
      exec_eExtract_of_le s hnb h⟩,
    fun _ _ s hnb h => ⟨_, exec_eExtract_of_gt s hnb h⟩,
    fun cw s hop => acceptE_of_operandsOf (by simp [operandsOf, hop])
      (by simp [legalE, hop, and_left_comm]) s⟩

/-- Settles O33, by what a permutation of S changes; of OP = 0xC the word of E.PERMUTE is the only legal one. -/
theorem ePermuteAppliesKeccakF : Obligations.EPermuteAppliesKeccakF := by
  refine ⟨fun s => ⟨_, exec_ePermute s⟩, fun cw s hop => ?_⟩
  have ho : operandsOf .engine cw = some .ePermute := by simp [operandsOf, hop]
  exact acceptE_of_operandsOf ho (legalE_iff_eq_encode ho rfl rfl) s

/-! #### Everything an E-port word can do (R80, R90, R92) -/

/-- What an E-port word can do, with its answer: code 0 and a new S, or an error and nothing else. -/
inductive EngineAnswer (s : State) : Outcome → Prop
  | ok (A : Lanes) (sc : Scratch) (data : BitVec 64) :
      EngineAnswer s (.next ({ s with S := A, scratch := sc }.respond .ok data))
  | range : EngineAnswer s (.next (s.raise .engineRange))
  | illegal : EngineAnswer s (.next (s.raise .illegalCommandE))

theorem exec_engineAnswer {i : Instr} (hp : i.port = .engine) (s : State) :
    EngineAnswer s (exec i s) := by
  cases i with
  | eReset => exact .ok _ s.scratch 0
  | eXorb off value =>
    rcases Nat.lt_or_ge off.toNat 200 with h | h
    · rw [exec_eXorb_of_lt s h]; exact .ok _ s.scratch 0
    · rw [exec_eXorb_of_ge s h]; exact .range
  | eXor off nb data =>
    rcases Nat.lt_or_ge 8 nb.toNat with hnb | hnb
    · rw [exec_eXor_of_illegalCount s hnb]; exact .illegal
    · rcases Nat.lt_or_ge 200 (off.toNat + nb.toNat) with h | h
      · rw [exec_eXor_of_gt s hnb h]; exact .range
      · rw [exec_eXor_of_le s hnb h]; exact .ok _ s.scratch 0
  | eExtract off nb =>
    rcases Nat.lt_or_ge 8 nb.toNat with hnb | hnb
    · rw [exec_eExtract_of_illegalCount s hnb]; exact .illegal
    · rcases Nat.lt_or_ge 200 (off.toNat + nb.toNat) with h | h
      · rw [exec_eExtract_of_gt s hnb h]; exact .range
      · rw [exec_eExtract_of_le s hnb h]; exact .ok s.S s.scratch _
  | ePermute => rw [exec_ePermute]; exact .ok _ _ 0
  | sReset => cases hp
  | sAbsorb nb data => cases hp
  | sDigest len => cases hp
  | sErrclr => cases hp

theorem acceptE_engineAnswer (cw : CommandWord) (s : State) : EngineAnswer s (acceptE exec cw s) := by
  cases hd : decodeE cw with
  | ok i => rw [acceptE_of_decodeE hd]; exact exec_engineAnswer (decodeE_port hd) s
  | error e => rw [acceptE_of_decodeE_error hd]; exact .illegal

/-- Settles O34: STATUS and err_o read nothing that an answer changes. -/
theorem enginePortLeavesSpongeContext : Obligations.EnginePortLeavesSpongeContext := by
  intro cw s
  have h := acceptE_engineAnswer cw s
  generalize acceptE exec cw s = o at h
  cases h with
  | ok A sc data => exact ⟨A, sc, _, _, _, rfl, rfl, rfl, rfl, fun hcode => absurd rfl hcode⟩
  | range => exact ⟨s.S, s.scratch, _, _, _, rfl, rfl, rfl, rfl, fun _ => ⟨rfl, rfl⟩⟩
  | illegal => exact ⟨s.S, s.scratch, _, _, _, rfl, rfl, rfl, rfl, fun _ => ⟨rfl, rfl⟩⟩

/-! #### The finalization as engine traffic (R93, R107) -/

/-- S after the first S.DIGEST, whatever its length: squeezing works on W (R109). -/
theorem exec_sDigest_S (len : BitVec 32) (s : State) (hf : s.finalized = false) :
    ∃ t, exec (.sDigest len) s = .next t ∧
      t.S = keccakF (stXorByte (stXorByte s.S s.absorbed.val 0x1F) 167 0x80) := by
  refine ⟨_, rfl, ?_⟩
  rw [hf, State.squeeze_eq, State.finalize_eq]
  rfl

/-- Settles O37: each of the three engine commands does its part of Finalize() (R107). -/
theorem finalizeIsEngineTraffic : Obligations.FinalizeIsEngineTraffic := by
  intro len s hf
  obtain ⟨t, ht, hS⟩ := exec_sDigest_S len s hf
  have hoff : (BitVec.ofNat 8 s.absorbed.val).toNat = s.absorbed.val :=
    ofNat_toNat_of_le_stateBytes (by omega)
  refine ⟨t, _, _, _, ht, exec_eXorb_of_lt s (by omega), exec_eXorb_of_lt _ (by decide),
    exec_ePermute _, ?_⟩
  rw [hS, hoff]
  rfl

end Sys2Proof.Machine

/-! ### O40, O45: acceptance at the E-port, and the edges on which it waits (R80, R91, R157, R160) -/

namespace Sys2Proof.Machine

theorem State.idleBlock.busy {s : State} (h : s.idleBlock) : s.busy = false :=
  s.busy_eq_false_iff.mpr h.1

theorem State.idleBlock.oq {s : State} (h : s.idleBlock) : s.oq = [] := h.2.2.2

/-- e_ready, signal by signal (R54, R157). -/
theorem State.eReady_eq_true_iff {s : State} {inp : Inputs} :
    s.eReady inp = true ↔ inp.rstN = true ∧ s.build.engineTestPort = true ∧ s.busy = false ∧
      s.rsp = none ∧ inp.sValid = false := by
  simp [State.eReady, and_assoc]

/-! #### A step with a word on the E-port -/

/-- With nothing to take, an edge only counts itself before a word is accepted. -/
theorem State.transferred_of_empty (s : State) (inp : Inputs) (hq : s.oq = []) (hr : s.rsp = none) :
    s.transferred inp = { s with freeCtr := s.freeCtr + 1 } :=
  State.takeTransfers_of_empty { s with freeCtr := s.freeCtr + 1 } inp hq hr

/-- An idle block whose S-port presents nothing accepts a word on the E-port while e_ready is 1. -/
theorem State.edge_of_eReady (run : Instr → State → Outcome) {s : State} {inp : Inputs}
    (h : s.eReady inp = true) (hv : inp.eValid = true) :
    s.edge run inp = acceptE run inp.eCw ((s.transferred inp).recordAccepted .engine inp.eCw) := by
  obtain ⟨hr, -, hb, -, hs⟩ := State.eReady_eq_true_iff.mp h
  simp [State.edge_of_rstN run s inp hr, hb, hs, hv, h]

/-- While e_ready is 0, only the transfers of the edge happen. -/
theorem State.edge_of_not_eReady (run : Instr → State → Outcome) {s : State} {inp : Inputs}
    (h : s.eReady inp = false) (hr : inp.rstN = true) (hb : s.busy = false) (hs : inp.sValid = false) :
    s.edge run inp = .next (s.transferred inp) := by
  simp [State.edge_of_rstN run s inp hr, hb, hs, h]

/-- Settles O40, by the two values of e_ready. -/
theorem stepRunsEPortCommand : Obligations.StepRunsEPortCommand := by
  intro s inp rest hin hidle hr hs hv
  have hb : State.busy { s with inputs := rest } = false := hidle.busy
  rw [step_cons s inp rest hin]
  refine ⟨fun hrsp hp => ?_, fun hblocked => ?_⟩
  · have hready : State.eReady { s with inputs := rest } inp = true :=
      State.eReady_eq_true_iff.mpr ⟨hr, hp, hb, hrsp, hs⟩
    rw [State.edge_of_eReady exec hready hv,
      State.transferred_of_empty { s with inputs := rest } inp hidle.oq hrsp]
    exact ⟨fun i hd => acceptE_of_decodeE hd _, fun e hd => acceptE_of_decodeE_error hd _⟩
  · have hready : State.eReady { s with inputs := rest } inp = false := by
      rw [Bool.eq_false_iff, Ne, State.eReady_eq_true_iff]
      rintro ⟨-, hp, -, hrsp, -⟩
      rcases hblocked with h | h
      · exact h hrsp
      · cases h.symm.trans hp
    rw [State.edge_of_not_eReady exec hready hr hb hs,
      State.transferred_of_oq_nil { s with inputs := rest } inp hidle.oq hr]

/-! #### Edges on which the E-port waits -/

/-- The inputs of an edge with nothing presented on the E-port. -/
def Inputs.withoutEValid (inp : Inputs) : Inputs := { inp with eValid := false }

/-- Where e_ready is 0, an edge does not see e_valid. -/
theorem State.edge_withoutEValid (run : Instr → State → Outcome) {s : State} {inp : Inputs}
    (h : s.eReady inp = false) : s.edge run inp = s.edge run inp.withoutEValid := by
  simp only [State.edge, h, Bool.and_false, Inputs.withoutEValid, Bool.false_and]
  rfl

/-- Where e_ready is 0 on every edge, no edge sees e_valid: `P` is a property of the state that the edges keep,
`Q` one of their inputs. -/
theorem State.edges_withoutEValid {P : State → Prop} {Q : Inputs → Prop}
    (hready : ∀ s inp, P s → Q inp → s.eReady inp = false)
    (hkeep : ∀ s t inp, P s → Q inp → s.edge exec inp = .next t → P t)
    {ins : List Inputs} {s : State} (hs : P s) (hins : ∀ inp ∈ ins, Q inp) :
    s.edges exec ins = s.edges exec (ins.map Inputs.withoutEValid) := by
  induction ins generalizing s with
  | nil => rfl
  | cons inp rest ih =>
    obtain ⟨hinp, hrest⟩ := List.forall_mem_cons.mp hins
    obtain ⟨t, ht⟩ := s.edge_completes inp
    simp only [List.map_cons, State.edges, ← State.edge_withoutEValid exec (hready s inp hs hinp), ht]
    exact ih (hkeep s t inp hs hinp ht) hrest

/-! #### A held response stays held until it is taken (R160) -/

theorem State.absorbUntilFull_rsp (s : State) (vs : List Byte) : (s.absorbUntilFull vs).rsp = s.rsp := by
  induction vs generalizing s with
  | nil => rfl
  | cons v vs ih =>
    simp only [State.absorbUntilFull]
    split
    · exact ih _
    · rfl

theorem State.nextOutput_rsp (s : State) : s.nextOutput.rsp = s.rsp := by
  unfold State.nextOutput
  split
  · rfl
  · split
    · rfl
    · obtain ⟨A, sc, o, h⟩ :=
        State.squeezeBytes_update (min 8 s.latch.left) { s with micro := .sqzOut }
      simp only [State.emitWord, h]

/-- Progress of a command leaves the response register as it is, or puts a response into it. -/
theorem State.progress_rsp_cases (s : State) :
    s.progress.rsp = s.rsp ∨ ∃ r, s.progress.rsp = some r := by
  unfold State.progress
  cases s.micro with
  | idle => exact .inl rfl
  | absorb => exact .inl (s.absorbUntilFull_rsp s.latch.pend)
  | absPerm => dsimp only; split <;> exact .inl rfl
  | finPerm =>
    dsimp only
    split
    · exact .inl rfl
    · split
      · split <;> exact .inl rfl
      · exact .inl rfl
  | sqzOut =>
    dsimp only
    split
    · exact .inl (State.nextOutput_rsp _)
    · split
      · exact .inl s.nextOutput_rsp
      · exact .inl rfl
  | sqzPerm =>
    dsimp only
    split
    · exact .inl (State.nextOutput_rsp _)
    · exact .inl rfl
  | eng =>
    dsimp only
    split
    · exact .inr ⟨_, rfl⟩
    · exact .inl rfl

/-- Of the S-port's commands S.RESET alone touches the response register (R92, log entry 25). -/
theorem SpongeEffect.rsp {s t : State} {i : Instr} (he : SpongeEffect s i t) (hi : i ≠ .sReset) :
    t.rsp = s.rsp := by
  cases he with
  | reset => exact absurd rfl hi
  | absorb | lateAbsorb | digest | errclr => rfl

/-- An edge without rst_n, on which the requester takes nothing and no S.RESET is accepted, keeps a response
held. -/
theorem EdgeEffect.rsp_ne_none {s t : State} {inp : Inputs} (he : EdgeEffect s inp t) (h : s.rsp ≠ none)
    (hr : inp.rstN = true) (htake : inp.eRspReady = false)
    (hreset : inp.sValid = true → decodeS inp.sCw ≠ .ok .sReset) : t.rsp ≠ none := by
  have hheld : (s.transferred inp).rsp ≠ none := by
    rw [s.transferred_eq inp hr]
    simpa [htake] using h
  cases he with
  | rst hr' => simp [hr] at hr'
  | progress _ _ =>
    rcases (s.transferred inp).progress_rsp_cases with hkept | ⟨r, hnew⟩
    · rwa [hkept]
    · rw [hnew]; exact Option.some_ne_none r
  | command _ _ hv hd he =>
    rwa [he.rsp fun hi => hreset hv (hi ▸ hd)]
  | illegal _ _ _ _ => exact hheld
  | engine _ _ _ he =>
    obtain ⟨A, sc, r, f, -, rfl⟩ := he
    exact Option.some_ne_none r
  | quiet _ _ => exact hheld

/-- Settles O45: the S-port comes first on an edge, and e_ready stays 0 under each of the three conditions. -/
theorem ePortWaits : Obligations.EPortWaits := by
  refine ⟨fun s inp hidle hr hv => ?_, fun ins s h => ?_⟩
  · rw [State.edge_of_rstN exec s inp hr, hidle.busy, hv, s.transferred_of_oq_nil inp hidle.oq hr]
    rfl
  · rcases h with hvalid | hport | ⟨hrsp, hins⟩
    · refine State.edges_withoutEValid (P := fun _ => True) (fun s inp _ hv => ?_)
        (fun _ _ _ _ _ _ => trivial) trivial hvalid
      simp [State.eReady, hv]
    · refine State.edges_withoutEValid (P := fun s => s.build.engineTestPort = false) (Q := fun _ => True)
        (fun s inp hp _ => ?_) (fun s t inp hp _ ht => ?_) hport fun _ _ => trivial
      · simp [State.eReady, hp]
      · rwa [State.edge_build (fun _ _ _ => exec_build) ht]
    · refine State.edges_withoutEValid (P := fun s => s.rsp ≠ none) (fun s inp hs _ => ?_)
        (fun s t inp hs ⟨htake, hr, hreset⟩ ht =>
          (State.edgeEffect ht).rsp_ne_none hs hr htake hreset) hrsp hins
      simp [State.eReady, hs]

end Sys2Proof.Machine

/-! ### O58: the cycle-level machine refines the transaction-level one (R118, R155) -/

namespace Sys2Proof.Machine

/-- No command's effect touches the model's count of clock edges (log entry 3). -/
theorem exec_freeCtr {i : Instr} {s t : State} (h : exec i s = .next t) : t.freeCtr = s.freeCtr := by
  cases hp : i.port with
  | sponge =>
    obtain ⟨A, B, sc, a, f, o, u, l, m, q, r, -, e⟩ := exec_sponge_update i s hp
    rw [e] at h; cases h; rfl
  | engine =>
    obtain ⟨A, sc, r, f, e⟩ := exec_engine_update i s hp
    rw [e] at h; cases h; rfl

theorem State.completed_freeCtr_eq (s : State) : s.completed.freeCtr = s.freeCtr :=
  (congrArg State.freeCtr (s.completed_freeCtr s.freeCtr) :)

/-- Where no command is in progress, nothing is left to be completed. -/
theorem State.completed_of_not_busy {s : State} (hb : s.busy = false) : s.completed = s := by
  simp only [State.completed, s.busy_eq_false_iff.mp hb]

/-- Edges on which the environment presents nothing keep what the command in progress comes to. -/
theorem State.edges_completed {ins : List Inputs} {s u : State}
    (hins : ∀ inp ∈ ins, inp.rstN = true ∧ inp.sValid = false ∧ inp.eValid = false ∧
      inp.eRspReady = false)
    (h : s.cycleInv) (hu : s.edges beginCommand ins = .next u) :
    u.completed = { s.completed with freeCtr := s.freeCtr + ins.length } := by
  induction ins generalizing s with
  | nil =>
    cases hu
    exact State.completed_freeCtr _ _
  | cons inp rest ih =>
    obtain ⟨⟨hr, hs, he, hp⟩, hrest⟩ := List.forall_mem_cons.mp hins
    obtain ⟨t, ht, hinv, hcomp⟩ := s.edge_completed inp hr hs he hp h
    have hctr : t.freeCtr = s.freeCtr + 1 := by rw [← t.completed_freeCtr_eq, hcomp]
    simp only [State.edges, ht] at hu
    rw [ih hrest hinv hu, hcomp, hctr, List.length_cons, Nat.add_assoc, Nat.add_comm 1]

/-- Settles O58: starting a command settles what it comes to, no edge changes that, and at IDLE it is the
state itself. -/
theorem cycleMachineRefinesTransaction : Obligations.CycleMachineRefinesTransaction := by
  intro i s t u₀ u ins hidle ht hu₀ hins hu hb
  obtain ⟨hinv, hcomp⟩ := beginCommand_completed i s t u₀ hidle ht hu₀
  have hctr : u₀.freeCtr = s.freeCtr := by
    rw [← u₀.completed_freeCtr_eq, hcomp, ← exec_freeCtr ht]
  calc u = u.completed := (State.completed_of_not_busy hb).symm
    _ = { u₀.completed with freeCtr := u₀.freeCtr + ins.length } := State.edges_completed hins hinv hu
    _ = _ := by rw [hcomp, hctr]

end Sys2Proof.Machine

/-! ### O15 to O19, O21 to O23, O48: the S-port's commands (R103 to R116, R121) -/

namespace Sys2Proof.Machine

/-! #### Each command by its phase and byte count -/

section Commands

variable {nb : BitVec 4} {data : BitVec 64} {s : State}

theorem exec_sAbsorb (hnb : nb.toNat ≤ 8) (hf : s.finalized = false) :
    exec (.sAbsorb nb data) s = .next (s.absorbBytes (dataBytes nb.toNat data)) := by
  simp [exec, execSAbsorb, legalCount, hnb, hf]

theorem exec_sAbsorb_of_finalized (hnb : nb.toNat ≤ 8) (hf : s.finalized = true) :
    exec (.sAbsorb nb data) s = .next { s with errUaf := true } := by
  simp [exec, execSAbsorb, legalCount, hnb, hf]

theorem exec_sAbsorb_of_illegalCount (hnb : 8 < nb.toNat) :
    exec (.sAbsorb nb data) s = .next { s with errIll := true } := by
  simp [exec, execSAbsorb, legalCount, Nat.not_le.mpr hnb]

theorem exec_sDigest_of_finalized (len : BitVec 32) (hf : s.finalized = true) :
    exec (.sDigest len) s = .next (s.squeeze len.toNat) := by
  rw [exec, execSDigest, if_pos hf]

theorem exec_sDigest_of_absorbing (len : BitVec 32) (hf : s.finalized = false) :
    exec (.sDigest len) s = .next (s.finalize.squeeze len.toNat) := by
  rw [exec, execSDigest, hf, if_neg Bool.false_ne_true]

end Commands

/-- S with the padding of R107 and its permutation, from the offset `a`. -/
def paddedLanes (A : Lanes) (a : Nat) : Lanes :=
  keccakF (stXorByte (stXorByte A a 0x1F#8) 167 0x80#8)

/-- What an S.DIGEST squeezes from: S, finalized first in the Absorbing phase (R106, R107). -/
def State.digestLanes (s : State) : Lanes :=
  if s.finalized then s.S else paddedLanes s.S s.absorbed.val

/-- The first n bytes squeezed from the lanes A (R112). -/
def squeezedBytes (A : Lanes) (n : Nat) : List Byte := (List.range n).map (squeezedByte A)

/-- A longer output starts with the shorter one, since byte j does not depend on the length (R112). -/
theorem squeezedBytes_take (A : Lanes) {m n : Nat} (h : m ≤ n) :
    (squeezedBytes A n).take m = squeezedBytes A m := by
  rw [squeezedBytes, ← List.map_take, List.take_range, Nat.min_eq_left h, squeezedBytes]

/-- Squeezing, with what `squeezeBytes_loadW` says of its bytes, of W and of `squeeze_off`. -/
theorem State.squeeze_eq_squeezedBytes (s : State) (n : Nat) :
    ∃ (sc : Scratch) (o : Fin 169), o.val = (if n = 0 then 0 else (n - 1) % 168 + 1) ∧
      s.squeeze n =
        { s with
          W := keccakFTimes ((n - 1) / 168) s.S
          scratch := sc
          squeezeOff := o
          oq := s.oq ++ outWords (squeezedBytes s.S n)
          micro := if n = 0 then s.micro else .sqzOut } := by
  obtain ⟨hout, hW, hoff⟩ := State.squeezeBytes_loadW s n
  refine ⟨(State.squeezeBytes n s.loadW).2.scratch, (State.squeezeBytes n s.loadW).2.squeezeOff, hoff, ?_⟩
  rw [State.squeeze_eq, hout, hW]
  rfl

/-- S.DIGEST, whole, for both phases. -/
theorem exec_sDigest (len : BitVec 32) (s : State) :
    ∃ (sc : Scratch) (o : Fin 169), o.val = (if len.toNat = 0 then 0 else (len.toNat - 1) % 168 + 1) ∧
      exec (.sDigest len) s =
        .next { s with
          S := s.digestLanes
          W := keccakFTimes ((len.toNat - 1) / 168) s.digestLanes
          scratch := sc
          finalized := true
          squeezeOff := o
          oq := s.oq ++ outWords (squeezedBytes s.digestLanes len.toNat)
          micro := if len.toNat = 0 then s.micro else .sqzOut } := by
  rw [State.digestLanes]
  cases hf : s.finalized with
  | true =>
    obtain ⟨sc, o, ho, h⟩ := s.squeeze_eq_squeezedBytes len.toNat
    refine ⟨sc, o, ho, ?_⟩
    rw [exec_sDigest_of_finalized len hf, if_pos rfl, h, ← hf]
  | false =>
    obtain ⟨sc, o, ho, h⟩ := s.finalize.squeeze_eq_squeezedBytes len.toNat
    refine ⟨sc, o, ho, ?_⟩
    rw [exec_sDigest_of_absorbing len hf, if_neg Bool.false_ne_true, h, State.finalize_eq]
    rfl

/-- Settles O18: the law of S.DIGEST, with the micro-state left open. -/
theorem sDigestFinalizesAndSqueezes : Obligations.SDigestFinalizesAndSqueezes := by
  intro len s
  obtain ⟨sc, o, ho, h⟩ := exec_sDigest len s
  refine ⟨s.digestLanes, sc, o, if len.toNat = 0 then s.micro else .sqzOut, rfl, ho, fun h0 => if_pos h0,
    fun h0 => ?_, h⟩
  rw [if_neg h0]
  decide

/-! #### The bytes of an S.ABSORB (R104, R123) -/

/-- Bytes that fill the rate block and then go on, but do not fill the next one. -/
theorem State.absorbBytes_of_crossing (s : State) (vs ws : List Byte)
    (hvs : s.absorbed.val + vs.length = 168) (hws : ws.length < 168) :
    s.absorbBytes (vs ++ ws) =
      { s with
        S := stXorBytes (keccakF (stXorBytes s.S s.absorbed.val vs)) 0 ws
        absorbed := ⟨ws.length, hws⟩
        scratch := (s.absorbBytes vs).scratch } := by
  rw [State.absorbBytes_append, s.absorbBytes_of_full vs hvs, State.absorbBytes_of_lt _ ws (by simpa using hws)]
  simp

/-- Settles O17, by the byte law of the XORs. -/
theorem sAbsorbTouchesOnlyItsBytes : Obligations.SAbsorbTouchesOnlyItsBytes := by
  refine fun nb data data' s t hnb hf => ⟨fun ht hlt c hc => ?_, fun hsame => ?_⟩
  · rw [exec_sAbsorb hnb hf, State.absorbBytes_of_lt _ _ (by simpa using hlt)] at ht
    cases ht
    rw [stByte_stXorBytes _ _ _ (by rw [dataBytes_length]; omega) _ hc, dataBytes_length]
    split
    next hin => rw [dataBytes_getD _ _ _ (by omega)]
    next => rfl
  · have hbytes : dataBytes nb.toNat data = dataBytes nb.toNat data' :=
      List.map_congr_left fun k hk => hsame k (List.mem_range.mp hk)
    rw [exec_sAbsorb hnb hf, exec_sAbsorb hnb hf, hbytes]

/-! #### Legality at the S-port (R49, R101, R132) -/

theorem acceptS_of_decodeS {cw : CommandWord} {i : Instr} (h : decodeS cw = .ok i) (s : State) :
    acceptS exec cw s = exec i s := by
  simp only [acceptS, h]

theorem acceptS_of_decodeS_error {cw : CommandWord} {e : DecodeError} (h : decodeS cw = .error e)
    (s : State) : acceptS exec cw s = .next { s with errIll := true } := by
  simp only [acceptS, h, State.raise_illegalCommandS]

/-- A word whose OP names a command runs it where it is legal, and only sets ERR_ILL where it is not; `P` is
what R49 asks of the other fields. -/
theorem acceptS_of_operandsOf {cw : CommandWord} {i : Instr} {P : Prop} [Decidable P]
    (ho : operandsOf .sponge cw = some i) (hP : legalS cw = true ↔ P) (s : State) :
    acceptS exec cw s = if P then exec i s else .next { s with errIll := true } := by
  obtain ⟨hlegal, -, hoperands⟩ := decoderAcceptsExactlyLegalWords .sponge cw
  cases hd : decodeS cw with
  | ok j =>
    rw [if_pos (hP.mp (hlegal.mp ⟨j, hd⟩)), acceptS_of_decodeS hd,
      Option.some.inj ((hoperands j hd).symm.trans ho)]
  | error e =>
    have hillegal := legalS_of_decodeS_error hd
    rw [if_neg fun h => Bool.false_ne_true (hillegal.symm.trans (hP.mpr h)), acceptS_of_decodeS_error hd]

/-- A command without operands has one legal word. -/
theorem legalS_iff_eq_encode {cw : CommandWord} {i : Instr} (ho : operandsOf .sponge cw = some i)
    (hwf : i.wf = true) (hp : i.port = .sponge) : legalS cw = true ↔ cw = encode i := by
  obtain ⟨hlegal, -, hoperands⟩ := decoderAcceptsExactlyLegalWords .sponge cw
  constructor
  · intro h
    obtain ⟨j, hj⟩ := hlegal.mpr h
    have hji := Option.some.inj ((hoperands j hj).symm.trans ho)
    rw [← hji]
    exact (decode_eq_ok_iff.mp hj).1.symm
  · rintro rfl
    exact legalS_of_decodeS (decode_eq_ok_iff (p := .sponge) |>.mpr ⟨rfl, hwf, hp⟩)

/-- Settles O16: in the Absorbing phase by where the bytes end, and the legal words by R49. -/
theorem sAbsorbXorsAndPermutes : Obligations.SAbsorbXorsAndPermutes := by
  refine ⟨fun nb data s hnb hf => ⟨fun hlt => ?_, fun hge => ?_⟩,
    fun nb data s hnb hf => exec_sAbsorb_of_finalized hnb hf, fun cw s hop => ?_⟩
  · have h := s.absorbBytes_of_lt (dataBytes nb.toNat data) (by simpa using hlt)
    exact ⟨_, by simp, (exec_sAbsorb hnb hf).trans (congrArg _ h)⟩
  · have h := s.absorbBytes_of_crossing ((dataBytes nb.toNat data).take (168 - s.absorbed.val))
      ((dataBytes nb.toNat data).drop (168 - s.absorbed.val))
      (by rw [List.length_take, dataBytes_length]; omega) (by rw [List.length_drop, dataBytes_length]; omega)
    rw [List.take_append_drop] at h
    refine ⟨_, _, ?_, (exec_sAbsorb hnb hf).trans (congrArg _ h)⟩
    simp only [List.length_drop, dataBytes_length]
    omega
  · exact acceptS_of_operandsOf (by simp [operandsOf, hop])
      (by simp [legalS, hop, and_comm, and_left_comm]) s

/-- Settles O19: the law of S.DIGEST names no error flag, and R49 says which words are legal. -/
theorem sDigestLegalInBothPhases : Obligations.SDigestLegalInBothPhases := by
  intro cw s hop
  have hacc := acceptS_of_operandsOf (cw := cw) (i := .sDigest (CommandWord.len cw))
    (P := cw.nb = 0 ∧ cw.off = 0 ∧ cw.rsv = 0 ∧ cw.argHi = 0) (by simp [operandsOf, hop])
    (by simp [legalS, hop, and_comm, and_assoc, and_left_comm]) s
  obtain ⟨sc, o, -, h⟩ := exec_sDigest cw.len s
  exact ⟨fun hP => ⟨_, (hacc.trans (if_pos hP)).trans h, h, rfl, rfl, rfl⟩,
    fun hP => hacc.trans (if_neg hP)⟩

/-! #### S.RESET and S.ERRCLR (R103, R114) -/

theorem exec_sReset (s : State) :
    exec .sReset s =
      .next { s with S := Lanes.zero, absorbed := 0, finalized := false, squeezeOff := 0,
                     errUaf := false, errIll := false, rsp := s.rspAfterReset } := rfl

/-- STATUS of an idle block with a fresh context (R24). -/
theorem State.status_eq_zero {s : State} (hb : s.busy = false) (hf : s.finalized = false)
    (huaf : s.errUaf = false) (hill : s.errIll = false) (ha : s.absorbed = 0) (ho : s.squeezeOff = 0) :
    s.status = 0 := by
  rw [State.status_of_not_busy s hb]
  simp [State.statusFields, hb, hf, huaf, hill, ha, ho]

/-- Settles O15: the word of S.RESET is the only legal one of OP = 1. -/
theorem sResetRestoresFreshContext : Obligations.SResetRestoresFreshContext := by
  refine ⟨fun s => ⟨_, s.rspAfterReset_cases.symm, exec_sReset s⟩, stByte_zero, fun s t hb ht => ?_,
    fun cw s hop => ?_⟩
  · rw [exec_sReset] at ht
    cases ht
    exact State.status_eq_zero hb rfl rfl rfl rfl rfl
  · have ho : operandsOf .sponge cw = some .sReset := by simp [operandsOf, hop]
    exact acceptS_of_operandsOf ho (legalS_iff_eq_encode ho rfl rfl) s

/-- Settles O22: the word of S.ERRCLR is the only legal one of OP = 4. -/
theorem sErrclrClearsErrorFlags : Obligations.SErrclrClearsErrorFlags := by
  refine ⟨fun s => rfl, fun s t ht => ?_, fun cw s hop => ?_⟩
  · cases ht
    rfl
  · have ho : operandsOf .sponge cw = some .sErrclr := by simp [operandsOf, hop]
    exact acceptS_of_operandsOf ho (legalS_iff_eq_encode ho rfl rfl) s

/-- Settles O48, field by field: what differs from R29's values is named. -/
theorem sResetEqualsRst : Obligations.SResetEqualsRst := by
  rintro s ⟨hm, hl, hr, hq⟩
  refine ⟨_, s.rspAfterReset_cases.symm, ?_⟩
  rw [exec_sReset]
  simp only [State.rstEdge, State.resetOf, hm, hl, hr, hq]

/-! #### The padding (R107, R108) -/

/-- Settles O21, by the byte law of StXorByte: at absorbed = 167 both XORs hit byte 167. -/
theorem paddingBytes : Obligations.PaddingBytes := by
  intro s c hc
  rw [State.padS_eq]
  simp only [stByte_stXorByte _ 167 c _ (by decide) hc,
    stByte_stXorByte s.S s.absorbed.val c _ (by omega) hc]
  refine ⟨fun ha => ?_, fun ha => ?_⟩
  · rw [ha]
    split
    · rw [BitVec.xor_assoc]; rfl
    · rfl
  · by_cases hca : c = s.absorbed.val
    · rw [if_neg (by omega), if_pos hca, if_pos hca]
    · rw [if_neg hca, if_neg hca]

/-! #### A rejected S.ABSORB (R116, R131) -/

/-- The state with another value of ERR_UAF. -/
def State.withErrUaf (s : State) (b : Bool) : State := { s with errUaf := b }

theorem State.squeezeByte_withErrUaf (s : State) (b : Bool) :
    (s.withErrUaf b).squeezeByte = (s.squeezeByte.1, s.squeezeByte.2.withErrUaf b) := by
  by_cases h : s.squeezeOff.val < 168
  · rw [State.squeezeByte_of_lt s h, State.squeezeByte_of_lt (s.withErrUaf b) h]
    rfl
  · rw [State.squeezeByte_of_full s h, State.squeezeByte_of_full (s.withErrUaf b) h]
    rfl

theorem State.squeezeBytes_withErrUaf (n : Nat) (s : State) (b : Bool) :
    State.squeezeBytes n (s.withErrUaf b) =
      ((State.squeezeBytes n s).1, (State.squeezeBytes n s).2.withErrUaf b) := by
  induction n generalizing s with
  | zero => rfl
  | succ n ih => simp only [State.squeezeBytes_succ, State.squeezeByte_withErrUaf, ih]

/-- Squeezing reads no error flag. -/
theorem State.squeeze_withErrUaf (n : Nat) (s : State) (b : Bool) :
    (s.withErrUaf b).squeeze n = (s.squeeze n).withErrUaf b := by
  have h := State.squeezeBytes_withErrUaf n s.loadW b
  rw [State.squeeze, show (s.withErrUaf b).loadW = s.loadW.withErrUaf b from rfl, h]
  rfl

/-- Settles O23: S.DIGEST reads no error flag. -/
theorem rejectedAbsorbIsNotFatal : Obligations.RejectedAbsorbIsNotFatal := by
  intro nb data len s hnb hf
  exact ⟨_, _, _, exec_sAbsorb_of_finalized hnb hf, rfl, exec_sDigest_of_finalized len hf,
    exec_sDigest_of_finalized len hf, s.squeeze_withErrUaf len.toNat true⟩

end Sys2Proof.Machine

/-! ### O24, O25, O26, O27: messages and digests (R117, R119, R120, R124) -/

namespace Sys2Proof.Machine

/-! #### S.ABSORB commands that carry a message -/

/-- The S.ABSORB commands with the given operands, in order. -/
def absorbCommands (cs : List (BitVec 4 × BitVec 64)) : List Instr := cs.map fun c => .sAbsorb c.1 c.2

/-- The bytes that S.ABSORB commands with these operands carry (R46). -/
def carriedBytes (cs : List (BitVec 4 × BitVec 64)) : List Byte := cs.flatMap fun c => dataBytes c.1.toNat c.2

/-- Every operand nb is legal (R46). -/
def LegalCounts (cs : List (BitVec 4 × BitVec 64)) : Prop := ∀ c ∈ cs, c.1.toNat ≤ 8

/-- The words the host has taken and those that wait for it. -/
def State.delivered (s : State) : List OutWord := s.taken ++ s.oq

@[simp] theorem State.settle_delivered (s : State) : s.settle.delivered = s.delivered := by
  simp [State.delivered, State.settle]

@[simp] theorem State.absorbBytes_delivered (s : State) (vs : List Byte) :
    (s.absorbBytes vs).delivered = s.delivered := by
  rw [State.absorbBytes_frame]
  rfl

theorem State.Absorbed.trans {s t u : State} {vs ws : List Byte} (h : s.Absorbed vs t)
    (h' : t.Absorbed ws u) : s.Absorbed (vs ++ ws) u := by
  obtain ⟨huf, hS, ha⟩ := h'
  obtain ⟨-, hS', ha'⟩ := h.append ws
  exact ⟨huf, hS.trans hS', ha.trans ha'⟩

/-- In the Absorbing phase, S.ABSORB commands absorb the bytes they carry and give no output. -/
theorem runCommands_absorbCommands {cs : List (BitVec 4 × BitVec 64)} {s : State} (hcs : LegalCounts cs)
    (hf : s.finalized = false) :
    ∃ t, runCommands (absorbCommands cs) s = .next t ∧ s.Absorbed (carriedBytes cs) t ∧
      t.delivered = s.delivered := by
  induction cs generalizing s with
  | nil => exact ⟨s, rfl, ⟨hf, rfl, rfl⟩, rfl⟩
  | cons c cs ih =>
    obtain ⟨hc, hcs⟩ := List.forall_mem_cons.mp hcs
    have hfirst : s.Absorbed (dataBytes c.1.toNat c.2) (s.absorbBytes (dataBytes c.1.toNat c.2)).settle :=
      State.Absorbed.append (vs := []) ⟨hf, rfl, rfl⟩ _
    obtain ⟨t, hrun, hrest, hdelivered⟩ := ih hcs hfirst.1
    refine ⟨t, ?_, ?_, by simpa using hdelivered⟩
    · simpa only [absorbCommands, List.map_cons, runCommands, exec_sAbsorb hc hf] using hrun
    · rw [carriedBytes, List.flatMap_cons]
      exact hfirst.trans hrest

/-- The operands of UPDATE (R57). -/
def updateOperands (bytes : List Byte) : List (BitVec 4 × BitVec 64) :=
  (List.range (chunkCount bytes.length)).map fun c =>
    (BitVec.ofNat 4 (chunkOf bytes c).length, packData (chunkOf bytes c))

theorem updateCommands_eq_absorbCommands (bytes : List Byte) :
    updateCommands bytes = absorbCommands (updateOperands bytes) := by
  rw [updateCommands_eq, absorbCommands, updateOperands, List.map_map]
  rfl

theorem legalCounts_updateOperands (bytes : List Byte) : LegalCounts (updateOperands bytes) := by
  intro c hc
  obtain ⟨k, -, rfl⟩ := List.mem_map.mp hc
  have hlen := chunkOf_length_le bytes k
  rwa [ofNat_toNat_of_le_eight hlen]

@[simp] theorem carriedBytes_updateOperands (bytes : List Byte) : carriedBytes (updateOperands bytes) = bytes := by
  have hchunk : ∀ c, dataBytes (BitVec.ofNat 4 (chunkOf bytes c).length).toNat (packData (chunkOf bytes c)) =
      chunkOf bytes c := fun c => by
    rw [ofNat_toNat_of_le_eight (chunkOf_length_le bytes c), dataBytes_packData (chunkOf_length_le bytes c)]
  rw [carriedBytes, updateOperands, List.flatMap_map]
  simp only [hchunk]
  rw [flatMap_chunkOf, List.take_of_length_le (le_chunkCount _)]

/-! #### The digest of a message -/

/-- The lanes from which the digest of a message is squeezed: the message absorbed from a fresh context, and
finalized. -/
def messageLanes (M : List Byte) : Lanes := (State.reset.absorbBytes M).digestLanes

/-- The sponge context is fresh (R29). -/
def State.FreshContext (s : State) : Prop :=
  s.S = Lanes.zero ∧ s.absorbed = 0 ∧ s.finalized = false

theorem State.Absorbed.digestLanes {s t : State} {M : List Byte} (hs : s.FreshContext)
    (h : s.Absorbed M t) : t.digestLanes = messageLanes M := by
  obtain ⟨hS, ha, -⟩ := hs
  obtain ⟨htf, htS, hta⟩ := h
  obtain ⟨hS', ha'⟩ := State.absorbBytes_congr s State.reset M hS ha
  have hrf : (State.reset.absorbBytes M).finalized = false := State.reset.absorbBytes_finalized M
  rw [messageLanes, State.digestLanes, State.digestLanes, htf, hrf, htS, hta, hS', ha']

theorem exec_sDigest_delivered (len : BitVec 32) (s : State) :
    ∃ t, exec (.sDigest len) s = .next t ∧ t.S = s.digestLanes ∧ t.finalized = true ∧
      t.oq = s.oq ++ outWords (squeezedBytes s.digestLanes len.toNat) ∧
      t.delivered = s.delivered ++ outWords (squeezedBytes s.digestLanes len.toNat) := by
  obtain ⟨sc, o, -, h⟩ := exec_sDigest len s
  exact ⟨_, h, rfl, rfl, rfl, (List.append_assoc ..).symm⟩

/-- The host has taken the first n bytes squeezed for the message M, after what was there in the state s. -/
def State.GivesDigest (s : State) (M : List Byte) (n : BitVec 32) (t : State) : Prop :=
  t.taken = s.delivered ++ outWords (squeezedBytes (messageLanes M) n.toNat)

theorem State.GivesDigest.outputBytes {s t : State} {M : List Byte} {n : BitVec 32}
    (h : s.GivesDigest M n t) (hq : s.oq = []) :
    outputBytes (t.taken.drop s.taken.length) = squeezedBytes (messageLanes M) n.toNat := by
  rw [h, State.delivered, hq, List.append_nil, List.drop_left, outputBytes_outWords]

/-- From a fresh context, S.ABSORB commands and then S.DIGEST give the digest of the bytes they carry. -/
theorem runCommands_digest {cs : List (BitVec 4 × BitVec 64)} {s : State} (n : BitVec 32)
    (hcs : LegalCounts cs) (hs : s.FreshContext) :
    ∃ t, runCommands (absorbCommands cs ++ [.sDigest n]) s = .next t ∧
      s.GivesDigest (carriedBytes cs) n t := by
  have ⟨_, _, hf⟩ := hs
  obtain ⟨u, hrun, habs, hdelivered⟩ := runCommands_absorbCommands hcs hf
  obtain ⟨v, hv, -, -, -, hout⟩ := exec_sDigest_delivered n u
  refine ⟨v.settle, ?_, ?_⟩
  · rw [runCommands_append hrun]
    simp only [runCommands, hv]
  · rw [habs.digestLanes hs, hdelivered] at hout
    exact hout

/-- HASH gives the digest of its bytes, from every state (R57). -/
theorem runCommands_hashCommands (M : List Byte) (n : BitVec 32) (s : State) :
    ∃ t, runCommands (hashCommands M n) s = .next t ∧ s.GivesDigest M n t := by
  rw [hashCommands, updateCommands_eq_absorbCommands]
  have h := runCommands_digest n (legalCounts_updateOperands M)
    (s := State.settle { s with S := Lanes.zero, absorbed := 0, finalized := false, squeezeOff := 0,
                                errUaf := false, errIll := false, rsp := s.rspAfterReset }) ⟨rfl, rfl, rfl⟩
  rw [carriedBytes_updateOperands] at h
  obtain ⟨t, hrun, hdigest⟩ := h
  refine ⟨t, ?_, ?_⟩
  · rw [runCommands, exec_sReset]
    exact hrun
  · rw [State.GivesDigest, State.settle_delivered] at hdigest
    exact hdigest

/-- Settles O24: both sequences absorb the bytes they carry, and both digests are the message's. -/
theorem streamingEquivalence : Obligations.StreamingEquivalence := by
  refine ⟨fun cs ds s hcs hds hf hbytes => ?_, fun cs n s hcs hS ha hf hq => ?_⟩
  · obtain ⟨t, ht, ⟨-, htS, hta⟩, -⟩ := runCommands_absorbCommands hcs hf
    obtain ⟨u, hu, ⟨-, huS, hua⟩, -⟩ := runCommands_absorbCommands hds hf
    have hcarried : carriedBytes cs = carriedBytes ds := hbytes
    exact ⟨t, u, ht, hu, by rw [htS, huS, hcarried], by rw [hta, hua, hcarried]⟩
  · obtain ⟨t, ht, htd⟩ := runCommands_digest n hcs ⟨hS, ha, hf⟩
    obtain ⟨u, hu, hud⟩ := runCommands_hashCommands (carriedBytes cs) n s
    exact ⟨t, u, ht, hu, (htd.outputBytes hq).trans (hud.outputBytes hq).symm⟩

/-- Settles O26: output byte j of a digest does not depend on its length (R112). -/
theorem shorterHashIsPrefix : Obligations.ShorterHashIsPrefix := by
  intro M n₁ n₂ s hq hle
  obtain ⟨t, ht, htd⟩ := runCommands_hashCommands M n₁ s
  obtain ⟨u, hu, hud⟩ := runCommands_hashCommands M n₂ s
  refine ⟨t, u, ht, hu, ?_⟩
  rw [htd.outputBytes hq, hud.outputBytes hq, squeezedBytes_take _ hle]

/-! #### S-port commands in the Squeezable phase (R119) -/

/-- In the Squeezable phase no S-port command but S.RESET changes S or the phase. -/
theorem exec_sponge_of_finalized {i : Instr} {s : State} (hp : i.port = .sponge) (hi : i ≠ .sReset)
    (hf : s.finalized = true) : ∃ t, exec i s = .next t ∧ t.finalized = true ∧ t.S = s.S := by
  cases i with
  | sReset => exact absurd rfl hi
  | sAbsorb nb data =>
    by_cases hnb : nb.toNat ≤ 8
    · exact ⟨_, exec_sAbsorb_of_finalized hnb hf, hf, rfl⟩
    · exact ⟨_, exec_sAbsorb_of_illegalCount (by omega), hf, rfl⟩
  | sDigest len =>
    obtain ⟨t, ht, hS, htf, -⟩ := exec_sDigest_delivered len s
    exact ⟨t, ht, htf, hS.trans (if_pos hf)⟩
  | sErrclr => exact ⟨_, rfl, hf, rfl⟩
  | eReset | eXorb | eXor | eExtract | ePermute => cases hp

theorem runCommands_sponge_of_finalized {is : List Instr} {s : State}
    (his : ∀ i ∈ is, i.port = .sponge ∧ i ≠ .sReset) (hf : s.finalized = true) (hq : s.oq = []) :
    ∃ t, runCommands is s = .next t ∧ t.finalized = true ∧ t.S = s.S ∧ t.oq = [] := by
  induction is generalizing s with
  | nil => exact ⟨s, rfl, hf, rfl, hq⟩
  | cons i is ih =>
    obtain ⟨⟨hp, hi⟩, his⟩ := List.forall_mem_cons.mp his
    obtain ⟨u, hu, huf, huS⟩ := exec_sponge_of_finalized hp hi hf
    obtain ⟨t, ht, htf, htS, htq⟩ := ih (s := u.settle) his huf rfl
    exact ⟨t, by rw [runCommands, hu]; exact ht, htf, htS.trans huS, htq⟩

/-- Settles O25: S stays as the first S.DIGEST left it, and both outputs are squeezed from it. -/
theorem repeatedDigestIsIdempotent : Obligations.RepeatedDigestIsIdempotent := by
  intro n₁ n₂ s is hq hle his
  obtain ⟨t, ht, htS, htf, htq, -⟩ := exec_sDigest_delivered n₁ s
  obtain ⟨u, hu, huf, huS, huq⟩ := runCommands_sponge_of_finalized (s := t.settle) his htf rfl
  obtain ⟨v, hv, hvS, -, hvq, -⟩ := exec_sDigest_delivered n₂ u
  have hlanes : u.digestLanes = t.S := (if_pos huf).trans huS
  refine ⟨t, u, v, ht, hu, hv, hvS.trans hlanes, ?_⟩
  rw [htq, hvq, hq, huq, hlanes, ← htS, List.nil_append, List.nil_append, outputBytes_outWords,
    outputBytes_outWords, squeezedBytes_take _ hle]

/-! #### SHAKE128 of the whole message (R2, R124) -/

/-- The padding fills the rate block that the message ends in. -/
theorem shakePadding_length (m : Nat) : (shakePadding m).length = 168 - m % 168 := by
  simp only [shakePadding]
  split
  next h => exact h.symm
  next h =>
    simp only [List.length_cons, List.length_append, List.length_replicate, List.length_nil]
    omega

@[simp] theorem stXorByte_zero (T : Lanes) (b : Nat) : stXorByte T b 0#8 = T := by
  by_cases hb : b < 200
  · refine lanes_ext_bytes fun c hc => ?_
    rw [stByte_stXorByte T b c _ hb hc, BitVec.xor_zero, ite_self]
  · exact stXorByte_of_ge T b _ (by omega)

theorem stXorBytes_replicate_zero (T : Lanes) (b n : Nat) : stXorBytes T b (List.replicate n 0#8) = T := by
  induction n generalizing b with
  | zero => rfl
  | succ n ih => rw [List.replicate_succ, stXorBytes, stXorByte_zero, ih]

/-- Two bytes XORed into the same place are their XOR. -/
theorem stXorByte_stXorByte (T : Lanes) (b : Nat) (v w : Byte) (hb : b < 200) :
    stXorByte (stXorByte T b v) b w = stXorByte T b (v ^^^ w) := by
  refine lanes_ext_bytes fun c hc => ?_
  simp only [stByte_stXorByte _ b c _ hb hc]
  split
  · exact BitVec.xor_assoc ..
  · rfl

/-- The padding bytes, XORed in from the message's end on, are the two XORs of R107. -/
theorem stXorBytes_shakePadding (T : Lanes) (m : Nat) :
    stXorBytes T (m % 168) (shakePadding m) =
      stXorByte (stXorByte T (m % 168) 0x1F#8) 167 0x80#8 := by
  simp only [shakePadding]
  split
  next h =>
    rw [show m % 168 = 167 by omega, stXorByte_stXorByte _ _ _ _ (by decide)]
    rfl
  next h =>
    have hlast : m % 168 + 1 + (168 - m % 168 - 2) = 167 := by omega
    simp only [stXorBytes, stXorBytes_append, BitVec.ofNat_eq_ofNat, stXorBytes_replicate_zero,
      List.length_replicate, hlast]

/-- `absorbed` counts the bytes mod 168 (R15). -/
theorem State.absorbBytes_absorbed (s : State) (vs : List Byte) :
    (s.absorbBytes vs).absorbed.val = (s.absorbed.val + vs.length) % 168 := by
  induction vs generalizing s with
  | nil => simp [Nat.mod_eq_of_lt]
  | cons v vs ih =>
    rw [State.absorbBytes_cons, ih, List.length_cons]
    by_cases h : s.absorbed.val + 1 < 168
    · rw [State.absorbByte_of_lt s v h]
      dsimp only
      omega
    · rw [State.absorbByte_of_full s v h]
      simp only [Fin.val_zero]
      omega

/-- Finalize() absorbs the padding as if it were the rest of the message. -/
theorem messageLanes_eq_absorbBytes (M : List Byte) :
    messageLanes M = (State.reset.absorbBytes (M ++ shakePadding M.length)).S := by
  have ha : (State.reset.absorbBytes M).absorbed.val = M.length % 168 := by
    rw [State.absorbBytes_absorbed, show State.reset.absorbed.val = 0 from rfl, Nat.zero_add]
  have hf : (State.reset.absorbBytes M).finalized = false := State.reset.absorbBytes_finalized M
  rw [State.absorbBytes_append,
    State.absorbBytes_of_full _ (shakePadding M.length) (by rw [ha, shakePadding_length]; omega)]
  rw [messageLanes, State.digestLanes, hf, ha]
  simp only [Bool.false_eq_true, if_false, paddedLanes, stXorBytes_shakePadding]

/-- The rate blocks before block k + 1 are those before block k and then block k. -/
theorem take_append_rateBlock (padded : List Byte) (k : Nat) :
    padded.take (168 * k) ++ rateBlock padded k = padded.take (168 * (k + 1)) := by
  rw [rateBlock, ← List.take_add, Nat.mul_succ]

/-- The byte loop of S.ABSORB, block by block. -/
theorem absorbBytes_rateBlocks (padded : List Byte) (k : Nat) (hk : 168 * k ≤ padded.length) :
    (State.reset.absorbBytes (padded.take (168 * k))).S =
      (List.range k).foldl (fun A b => keccakF (stXorBytes A 0 (rateBlock padded b))) Lanes.zero := by
  induction k with
  | zero => rfl
  | succ k ih =>
    have ha : (State.reset.absorbBytes (padded.take (168 * k))).absorbed.val = 0 := by
      rw [State.absorbBytes_absorbed, show State.reset.absorbed.val = 0 from rfl, List.length_take]
      omega
    rw [← take_append_rateBlock, State.absorbBytes_append,
      State.absorbBytes_of_full _ (rateBlock padded k) (by
        rw [ha, rateBlock, List.length_take, List.length_drop]; omega),
      List.range_succ, List.foldl_append, ← ih (by omega), ha]
    rfl

/-- The lanes of a message's digest are those of the standard's block form. -/
theorem absorbBlocks_eq_messageLanes (M : List Byte) :
    absorbBlocks (M ++ shakePadding M.length) = messageLanes M := by
  have hlen : 168 * ((M ++ shakePadding M.length).length / 168) = (M ++ shakePadding M.length).length := by
    rw [List.length_append, shakePadding_length]
    omega
  rw [absorbBlocks, ← absorbBytes_rateBlocks _ _ hlen.le, hlen, List.take_length,
    ← messageLanes_eq_absorbBytes]

theorem shake128_eq (M : List Byte) (n : Nat) : shake128 M n = squeezedBytes (messageLanes M) n := by
  rw [shake128, absorbBlocks_eq_messageLanes, squeezedBytes]

/-- Settles O27: the digest of the bytes carried, and SHAKE128 in the block form, are squeezed from the same
lanes. -/
theorem digestIsShake128OfMessage : Obligations.DigestIsShake128OfMessage := by
  intro cs n s hcs hS ha hf hq
  obtain ⟨t, ht, htd⟩ := runCommands_digest n hcs ⟨hS, ha, hf⟩
  exact ⟨t, ht, (htd.outputBytes hq).trans (shake128_eq _ _).symm⟩

end Sys2Proof.Machine

/-! ### O39, O42, O44: steps with S-port words, and the hand-over of output words (R100, R111, R128) -/

namespace Sys2Proof.Machine

/-- An edge of an idle block that presents nothing has its transfers alone. -/
theorem State.edge_of_nothing_presented (run : Instr → State → Outcome) {s : State} {inp : Inputs}
    (hr : inp.rstN = true) (hb : s.busy = false) (hs : inp.sValid = false) (he : inp.eValid = false) :
    s.edge run inp = .next (s.transferred inp) := by
  simp [State.edge_of_rstN run s inp hr, hb, hs, he]

/-- Settles O39, by what the next edge presents. -/
theorem stepRunsSPortCommand : Obligations.StepRunsSPortCommand := by
  intro s hidle
  refine ⟨fun hin => ?_, fun inp rest hin hr => ⟨fun hv => ?_, fun hs he => ?_⟩⟩
  · rw [step_nil s hin, State.edge_of_nothing_presented exec rfl hidle.busy rfl rfl]
    exact congrArg _ (State.takeTransfers_of_not_ready _ _ rfl rfl)
  · have hb : State.busy { s with inputs := rest } = false := hidle.busy
    have hedge : step s = acceptS exec inp.sCw
        ((State.transferred { s with inputs := rest } inp).recordAccepted .sponge inp.sCw) := by
      rw [step_cons s inp rest hin, State.edge_of_rstN _ _ _ hr, hb, hv]
      rfl
    rw [hedge, State.transferred_of_oq_nil { s with inputs := rest } inp hidle.oq hr]
    exact ⟨fun i hd => acceptS_of_decodeS hd _, fun e hd => acceptS_of_decodeS_error hd _⟩
  · rw [step_cons s inp rest hin,
      State.edge_of_nothing_presented (s := { s with inputs := rest }) exec hr hidle.busy hs he,
      State.transferred_of_oq_nil { s with inputs := rest } inp hidle.oq hr]

/-! #### Handing out the words of an S.DIGEST -/

/-- An edge without rst_n of a block that only waits for its words to be taken: the transfers, and IDLE once no
word is left. -/
theorem State.edge_of_waiting (s : State) (inp : Inputs) (hm : s.micro = .sqzOut)
    (hl : s.latch = Latch.empty) (hr : inp.rstN = true) :
    s.edge exec inp =
      .next { s.transferred inp with
        micro := if (s.transferred inp).oq = [] then .idle else .sqzOut } := by
  have hb : s.busy = true := by simp [State.busy, hm]
  rw [State.edge_of_rstN exec s inp hr, if_pos hb,
    State.progress_of_waiting _ ((s.transferred_micro inp).trans hm) ((s.transferred_latch inp).trans hl)]

/-- Settles O42: no word is accepted while the block waits, and the transfers are those of the edge. -/
theorem outputWordsLeaveInOrder : Obligations.OutputWordsLeaveInOrder := by
  intro s inp w ws hm hl hq hr
  have hedge := s.edge_of_waiting inp hm hl hr
  rw [s.transferred_eq inp hr, hq] at hedge
  refine ⟨fun hready => ?_, fun hready => ?_⟩
  · simpa [hready] using hedge
  · simpa [hready, hq, hm] using hedge

/-- As many edges with o_ready as there are words hand out all of them; with none left the block is idle
already. -/
theorem State.edges_take_all {inp : Inputs} (hr : inp.rstN = true) (ho : inp.oReady = true)
    (he : inp.eRspReady = false) (ws : List OutWord) {s : State}
    (hm : s.micro = if ws = [] then .idle else .sqzOut) (hl : s.latch = Latch.empty) (hq : s.oq = ws) :
    s.edges exec (List.replicate ws.length inp) =
      .next { s with
        oq := []
        taken := s.taken ++ ws
        micro := .idle
        freeCtr := s.freeCtr + ws.length } := by
  induction ws generalizing s with
  | nil =>
    rw [if_pos rfl] at hm
    rw [List.length_nil, Nat.add_zero, List.append_nil, ← hm, ← hq]
    rfl
  | cons w ws ih =>
    have hedge : s.edge exec inp =
        .next { s with
          oq := ws
          taken := s.taken ++ [w]
          micro := if ws = [] then .idle else .sqzOut
          freeCtr := s.freeCtr + 1 } := by
      simpa [he] using (outputWordsLeaveInOrder s inp w ws hm hl hq hr).1 ho
    rw [List.length_cons, List.replicate_succ, State.edges, hedge]
    dsimp only
    rw [ih (by rfl) (by exact hl) (by rfl)]
    simp only [List.append_assoc, List.singleton_append, Nat.add_assoc, Nat.add_comm 1]

/-- Settles O44, with the inputs of an edge on which the host takes a word and nothing else. -/
theorem takingAllWordsCompletesDigest : Obligations.TakingAllWordsCompletesDigest :=
  fun s hm hl hne => State.edges_take_all rfl rfl rfl s.oq (by rw [hm, if_neg hne]) hl rfl

end Sys2Proof.Machine

/-! ### O6, O35: illegal words, and the order of the checks (R132, R133, R136) -/

namespace Sys2Proof.Machine

theorem acceptS_of_illegal {cw : CommandWord} (h : legalS cw = false) (s : State) :
    acceptS exec cw s = .next { s with errIll := true } := by
  cases hd : decodeS cw with
  | ok i => cases h.symm.trans (legalS_of_decodeS hd)
  | error e => exact acceptS_of_decodeS_error hd s

theorem acceptE_of_illegal {cw : CommandWord} (h : legalE cw = false) (s : State) :
    acceptE exec cw s = .next (s.raise .illegalCommandE) := by
  obtain ⟨e, he⟩ := exists_decodeE_error_of_not_legalE (Bool.eq_false_iff.mp h)
  exact acceptE_of_decodeE_error he s

/-- Settles O6, port by port. -/
theorem illegalWordsOnlyRecordTheError : Obligations.IllegalWordsOnlyRecordTheError :=
  ⟨fun _ s h => acceptS_of_illegal h s, fun _ s h => ⟨_, acceptE_of_illegal h s⟩⟩

/-- A legal S.ABSORB word in the Squeezable phase (R131). -/
theorem acceptS_of_lateAbsorb {cw : CommandWord} {s : State} (h : legalS cw = true) (hop : cw.op = 2)
    (hf : s.finalized = true) : acceptS exec cw s = .next { s with errUaf := true } := by
  have ho : operandsOf .sponge cw = some (.sAbsorb cw.nb cw.data) := by simp [operandsOf, hop]
  calc acceptS exec cw s
      = exec (.sAbsorb cw.nb cw.data) s := (acceptS_of_operandsOf ho Iff.rfl s).trans (if_pos h)
    _ = .next { s with errUaf := true } := exec_sAbsorb_of_finalized (nb_le_of_legal (p := .sponge) h) hf

/-- A legal E.XORB, E.XOR or E.EXTRACT word that asks for a byte beyond the last (R134). -/
theorem acceptE_of_outOfRange {cw : CommandWord} (h : legalE cw = true)
    (hrange : (cw.op = 9 ∧ 200 ≤ cw.off.toNat) ∨
      ((cw.op = 0xA ∨ cw.op = 0xB) ∧ 200 < cw.off.toNat + cw.nb.toNat)) (s : State) :
    acceptE exec cw s = .next (s.raise .engineRange) := by
  have hrun (i : Instr) (ho : operandsOf .engine cw = some i) : acceptE exec cw s = exec i s :=
    acceptE_of_decodeE (decodeE_of_legalE h ho) s
  have hnb : cw.nb.toNat ≤ 8 := nb_le_of_legal (p := .engine) h
  rcases hrange with ⟨hop, hoff⟩ | ⟨hop | hop, hoff⟩
  · rw [hrun (.eXorb cw.off cw.data) (by simp [operandsOf, hop]), exec_eXorb_of_ge s hoff]
  · rw [hrun (.eXor cw.off cw.nb cw.data) (by simp [operandsOf, hop]), exec_eXor_of_gt s hnb hoff]
  · rw [hrun (.eExtract cw.off cw.nb) (by simp [operandsOf, hop]), exec_eExtract_of_gt s hnb hoff]

/-- Settles O35: an illegal word answers the same in every state and at every offset, and a legal one is
refused for the phase or the range alone. -/
theorem legalityIsCheckedFirst : Obligations.LegalityIsCheckedFirst :=
  ⟨fun _ _ hnb => Bool.eq_false_iff.mpr fun h => absurd (nb_le_of_legal h) (Nat.not_le.mpr hnb),
    fun _ s h => acceptS_of_illegal h s,
    fun _ _ h hop hf => acceptS_of_lateAbsorb h hop hf,
    fun _ s h => ⟨_, acceptE_of_illegal h s⟩,
    fun _ s h hrange => ⟨_, acceptE_of_outOfRange h hrange s⟩⟩

end Sys2Proof.Machine

/-! ### O53: the record of E-port faults (R134) -/

namespace Sys2Proof.Machine

/-! #### No command of the S-port and no progress of a command marks the record -/

theorem SpongeEffect.portFaults {s t : State} {i : Instr} (he : SpongeEffect s i t) :
    t.portFaults = s.portFaults := by
  cases he with
  | reset | absorb | lateAbsorb | digest | errclr => rfl

/-- A word accepted on the S-port leaves an empty response register empty. -/
theorem SpongeEffect.rsp_eq_none {s t : State} {i : Instr} (he : SpongeEffect s i t) (h : s.rsp = none) :
    t.rsp = none := by
  by_cases hi : i = .sReset
  · subst hi
    cases he
    exact s.rspAfterReset_of_none h
  · rw [he.rsp hi, h]

theorem State.absorbUntilFull_portFaults (s : State) (vs : List Byte) :
    (s.absorbUntilFull vs).portFaults = s.portFaults := by
  induction vs generalizing s with
  | nil => rfl
  | cons v vs ih =>
    simp only [State.absorbUntilFull]
    split
    · exact ih _
    · rfl

theorem State.nextOutput_portFaults (s : State) : s.nextOutput.portFaults = s.portFaults := by
  unfold State.nextOutput
  split
  · rfl
  · split
    · rfl
    · obtain ⟨A, sc, o, h⟩ :=
        State.squeezeBytes_update (min 8 s.latch.left) { s with micro := .sqzOut }
      simp only [State.emitWord, h]

theorem State.progress_portFaults (s : State) : s.progress.portFaults = s.portFaults := by
  unfold State.progress
  cases s.micro with
  | idle => rfl
  | absorb => exact s.absorbUntilFull_portFaults s.latch.pend
  | absPerm => dsimp only; split <;> rfl
  | finPerm =>
    dsimp only
    split
    · rfl
    · split
      · split <;> rfl
      · rfl
  | sqzOut =>
    dsimp only
    split
    · exact State.nextOutput_portFaults _
    · split
      · exact s.nextOutput_portFaults
      · rfl
  | sqzPerm =>
    dsimp only
    split
    · exact State.nextOutput_portFaults _
    · rfl
  | eng => dsimp only; split <;> rfl

@[simp] theorem State.transferred_portFaults (s : State) (inp : Inputs) :
    (s.transferred inp).portFaults = s.portFaults := by
  obtain ⟨_, _, _, _, h⟩ := s.transferred_update inp; rw [h]

/-- The transfers of an edge leave an empty response register empty. -/
theorem State.transferred_rsp_of_none (s : State) {inp : Inputs} (hr : inp.rstN = true)
    (h : s.rsp = none) : (s.transferred inp).rsp = none := by
  rcases s.transferred_rsp_cases inp hr with hkept | hgone
  · rw [hkept, h]
  · exact hgone

/-! #### The record follows the responses -/

/-- In `t` an E-port word has been answered that met the record `f`: code 0 leaves the record as it was, code 2
and code 3 mark it, each in its own bit (R133, R134). -/
inductive AnswerMarked (f : PortFaults) (t : State) : Prop
  | ok (data : BitVec 64) (hr : t.rsp = some { code := .ok, data := data }) (hf : t.portFaults = f)
  | illegal (hr : t.rsp = some { code := .illegalCommand, data := 0 })
      (hf : t.portFaults = { f with illegal := true })
  | range (hr : t.rsp = some { code := .engineRange, data := 0 })
      (hf : t.portFaults = { f with range := true })

theorem acceptE_answerMarked {cw : CommandWord} {s t : State} (h : acceptE exec cw s = .next t) :
    AnswerMarked s.portFaults t := by
  have ha := acceptE_engineAnswer cw s
  rw [h] at ha
  cases ha with
  | ok A sc data => exact .ok data rfl rfl
  | range => exact .range rfl rfl
  | illegal => exact .illegal rfl rfl

theorem AnswerMarked.eq_marked_of_code {f : PortFaults} {t : State} (h : AnswerMarked f t) :
    ∃ r, t.rsp = some r ∧
      t.portFaults = { illegal := f.illegal || decide (r.code = .illegalCommand),
                       range := f.range || decide (r.code = .engineRange) } := by
  cases h with
  | ok data hr hf => exact ⟨_, hr, by simp [hf]⟩
  | illegal hr hf => exact ⟨_, hr, by simp [hf]⟩
  | range hr hf => exact ⟨_, hr, by simp [hf]⟩

/-- An edge accepts a word on the E-port, or it leaves the record as it was and, where no command is in
progress, gives no response. -/
theorem State.edge_answerMarked {s t : State} {inp : Inputs} (h : s.edge exec inp = .next t) :
    AnswerMarked s.portFaults t ∨
      (t.portFaults = s.portFaults ∧ (s.rsp = none → s.busy = false → t.rsp = none)) := by
  rcases s.edge_cases exec inp with ⟨-, e⟩ | ⟨-, hb, e⟩ | ⟨hr, -, -, e⟩ | ⟨-, -, -, -, -, -, e⟩ |
    ⟨hr, -, -, -, e⟩ <;> rw [e] at h
  · cases h; exact .inr ⟨rfl, fun _ _ => rfl⟩
  · cases h
    exact .inr ⟨by simp [State.progress_portFaults], fun _ hidle => not_fallen hb hidle⟩
  · unfold acceptS at h
    split at h
    next i hd =>
      have he := exec_spongeEffect (decodeS_port hd) (decodeS_wf hd) h
      exact .inr ⟨by simp [he.portFaults], fun hrsp _ => he.rsp_eq_none (s.transferred_rsp_of_none hr hrsp)⟩
    next => cases h; exact .inr ⟨by simp, fun hrsp _ => s.transferred_rsp_of_none hr hrsp⟩
  · exact .inl (by simpa using acceptE_answerMarked h)
  · cases h; exact .inr ⟨by simp, fun hrsp _ => s.transferred_rsp_of_none hr hrsp⟩

/-- Settles O53: an edge marks the record with the answer of the word it accepts on the E-port, or not at
all. -/
theorem portFaultsAreNeverCleared : Obligations.PortFaultsAreNeverCleared := by
  refine ⟨fun s t inp h => ?_, fun cw s t h => (acceptE_answerMarked h).eq_marked_of_code⟩
  rcases State.edge_answerMarked h with ha | ⟨hf, hquiet⟩
  · cases ha with
    | ok data hr hf => simp [hf, hr]
    | illegal hr hf => simp [hf, hr]
    | range hr hf => simp [hf, hr]
  · rw [hf]
    refine ⟨id, id, not_risen, not_risen, fun r hrsp ht hb => ?_⟩
    cases (hquiet hrsp hb).symm.trans ht

end Sys2Proof.Machine

/-! ### O54: every step goes on (R140, R165) -/

namespace Sys2Proof.Machine

theorem beginCommand_completes (i : Instr) (s : State) : ∃ t, beginCommand i s = .next t := by
  cases i with
  | sAbsorb nb data =>
    simp only [beginCommand, beginSAbsorb]
    split
    · exact ⟨_, rfl⟩
    · exact exec_completes (.sAbsorb nb data) s
  | sDigest len =>
    simp only [beginCommand, beginSDigest]
    split
    · split
      · exact exec_completes (.sDigest len) s
      · exact ⟨_, rfl⟩
    · exact ⟨_, rfl⟩
  | ePermute => exact ⟨_, rfl⟩
  | sReset => exact exec_completes .sReset s
  | sErrclr => exact exec_completes .sErrclr s
  | eReset => exact exec_completes .eReset s
  | eXorb off value => exact exec_completes (.eXorb off value) s
  | eXor off nb data => exact exec_completes (.eXor off nb data) s
  | eExtract off nb => exact exec_completes (.eExtract off nb) s

/-- An edge goes on in every machine whose commands do: nothing but an accepted command could stop it. -/
theorem State.edge_completes_of_run {run : Instr → State → Outcome} (hrun : ∀ i s, ∃ t, run i s = .next t)
    (s : State) (inp : Inputs) : ∃ t, s.edge run inp = .next t := by
  rcases s.edge_cases run inp with ⟨-, h⟩ | ⟨-, -, h⟩ | ⟨-, -, -, h⟩ | ⟨-, -, -, -, -, -, h⟩ |
    ⟨-, -, -, -, h⟩ <;> rw [h]
  · exact ⟨_, rfl⟩
  · exact ⟨_, rfl⟩
  · unfold acceptS
    split
    · exact hrun _ _
    · exact ⟨_, rfl⟩
  · unfold acceptE
    split
    · exact hrun _ _
    · exact ⟨_, rfl⟩
  · exact ⟨_, rfl⟩

/-- Settles O54, with the edge that comes next in each machine. -/
theorem stepNeverStops : Obligations.StepNeverStops := by
  intro s
  rw [step, cycleStep, State.nextEdge_eq, State.nextEdge_eq]
  exact ⟨State.edge_completes _ _, State.edge_completes_of_run beginCommand_completes _ _⟩

end Sys2Proof.Machine

/-! ### O59: with o_ready = 1 the cycle-level machine takes the cycles of the timing table (R163) -/

namespace Sys2Proof.Machine

/-- An edge on which the host is ready to take an output word, and does nothing else. -/
def Inputs.takeOnly : Inputs := { Inputs.quiet with oReady := true }

/-! #### Counting cycles -/

/-- The clock cycles that a permutation at round `rnd` still takes (R72). -/
def clocksLeft (u : Unroll) (rnd : Fin 24) : Nat := ceilDiv (24 - rnd.val) u.rounds

/-- The cycles that hand out `left` bytes from offset `off` of W: one for each word, and a permutation for each
further block that they reach into (R109, R163). -/
def outputCycles (u : Unroll) (off left : Nat) : Nat :=
  ceilDiv left 8 + permuteCycles u * ((off + left - 1) / 168)

/-- The cycles of an S.DIGEST with `left` bytes to give, from the copy W <- S on: none if there is nothing to
give. -/
def squeezeCycles (u : Unroll) (left : Nat) : Nat :=
  if left = 0 then 0 else 1 + outputCycles u 0 left

theorem clocksLeft_zero (u : Unroll) : clocksLeft u 0 = permuteCycles u := by cases u <;> rfl

theorem clocksLeft_of_lastClock {u : Unroll} {rnd : Fin 24} (h : lastClock u rnd = true) :
    clocksLeft u rnd = 1 := by
  have hle : 24 ≤ rnd.val + u.rounds := of_decide_eq_true h
  have hlt := rnd.isLt
  exact Nat.div_eq_of_lt_le (by omega) (by omega)

theorem clocksLeft_nextRnd {u : Unroll} {rnd : Fin 24} (h : lastClock u rnd = false) :
    clocksLeft u rnd = clocksLeft u (nextRnd u rnd) + 1 := by
  have hlt : rnd.val + u.rounds < 24 := Nat.not_le.mp (of_decide_eq_false h)
  rw [clocksLeft, clocksLeft, ceilDiv, ceilDiv, nextRnd, dif_pos hlt, ← Nat.add_div_right _ (rounds_pos u)]
  congr 1
  have := rounds_pos u
  dsimp only
  omega

theorem outputCycles_zero (u : Unroll) {off : Nat} (h : off ≤ 168) : outputCycles u off 0 = 0 := by
  rw [outputCycles, Nat.div_eq_of_lt (b := 168) (by omega), Nat.mul_zero]
  rfl

/-- A word costs one cycle: its block holds all of it. -/
theorem outputCycles_word (u : Unroll) {off left : Nat} (hoff : 8 ∣ off) (hlt : off < 168)
    (h0 : left ≠ 0) :
    outputCycles u off left = outputCycles u (off + min 8 left) (left - min 8 left) + 1 := by
  have hword : ceilDiv left 8 = ceilDiv (left - min 8 left) 8 + 1 := by unfold ceilDiv; omega
  have hblock : (off + min 8 left + (left - min 8 left) - 1) / 168 = (off + left - 1) / 168 := by omega
  rw [outputCycles, outputCycles, hblock, hword]
  omega

/-- At the end of the block a permutation comes first. -/
theorem outputCycles_block (u : Unroll) {left : Nat} (h0 : left ≠ 0) :
    outputCycles u 168 left = permuteCycles u + outputCycles u 0 left := by
  have hblock : (168 + left - 1) / 168 = (0 + left - 1) / 168 + 1 := by omega
  rw [outputCycles, outputCycles, hblock, Nat.mul_succ]
  omega

/-! #### The cycles that a command in progress still takes -/

/-- With o_ready = 1, the command in progress takes `n` more cycles, and at most one word waits: one case for
each thing that the controller can be doing (R23, log entry 6). -/
inductive State.CyclesLeft (s : State) (n : Nat) : Prop
  /-- No command is in progress. -/
  | idle (hm : s.micro = .idle) (hn : n = 0)
  /-- The bytes of an S.ABSORB left over are XORed. -/
  | absorb (hq : s.oq.tail = []) (hm : s.micro = .absorb)
      (hfit : s.absorbed.val + s.latch.pend.length < 168) (hn : n = 1)
  /-- S is permuted after a full rate block. -/
  | absPerm (hq : s.oq.tail = []) (hm : s.micro = .absPerm)
      (hfit : s.absorbed.val + s.latch.pend.length < 168)
      (hn : n = clocksLeft s.build.unroll s.rnd + if s.latch.pend = [] then 0 else 1)
  /-- The padding is XORed. -/
  | pad (hq : s.oq.tail = []) (hm : s.micro = .finPerm) (hpad : s.latch.pad = true) (hrnd : s.rnd = 0)
      (hn : n = 1 + (permuteCycles s.build.unroll + squeezeCycles s.build.unroll s.latch.left))
  /-- S is permuted by the finalization. -/
  | finPerm (hq : s.oq.tail = []) (hm : s.micro = .finPerm) (hpad : s.latch.pad = false)
      (hn : n = clocksLeft s.build.unroll s.rnd + squeezeCycles s.build.unroll s.latch.left)
  /-- S is copied to W. -/
  | copy (hq : s.oq.tail = []) (hm : s.micro = .sqzOut) (hcopy : s.latch.copy = true)
      (hn : n = 1 + outputCycles s.build.unroll 0 s.latch.left)
  /-- A word is handed out. -/
  | word (hq : s.oq.tail = []) (hm : s.micro = .sqzOut) (hcopy : s.latch.copy = false)
      (hoff : s.latch.left = 0 ∨ 8 ∣ s.squeezeOff.val)
      (hn : n = 1 + outputCycles s.build.unroll s.squeezeOff.val s.latch.left)
  /-- W is permuted between blocks. -/
  | sqzPerm (hq : s.oq.tail = []) (hm : s.micro = .sqzPerm) (hcopy : s.latch.copy = false)
      (hn : n = clocksLeft s.build.unroll s.rnd + outputCycles s.build.unroll 0 s.latch.left)
  /-- S is permuted by an E.PERMUTE. -/
  | eng (hq : s.oq.tail = []) (hm : s.micro = .eng) (hn : n = clocksLeft s.build.unroll s.rnd)

theorem clocksLeft_pos (u : Unroll) (rnd : Fin 24) : 0 < clocksLeft u rnd := by
  cases h : lastClock u rnd with
  | true => rw [clocksLeft_of_lastClock h]; exact Nat.one_pos
  | false => rw [clocksLeft_nextRnd h]; exact Nat.succ_pos _

/-- BUSY is 1 exactly while cycles are left. -/
theorem State.CyclesLeft.busy_iff {s : State} {n : Nat} (h : s.CyclesLeft n) :
    s.busy = true ↔ 0 < n := by
  have hclock := clocksLeft_pos s.build.unroll s.rnd
  cases h with
  | idle hm hn => simp [State.busy, hm, hn]
  | absorb _ hm | absPerm _ hm | pad _ hm | finPerm _ hm | copy _ hm | word _ hm | sqzPerm _ hm | eng _ hm =>
    simp only [State.busy, hm]
    exact iff_of_true rfl (by omega)

theorem State.squeezeBytes_squeezeOff {k : Nat} {s : State} (h : s.squeezeOff.val + k ≤ 168) :
    (State.squeezeBytes k s).2.squeezeOff.val = s.squeezeOff.val + k := by
  induction k generalizing s with
  | zero => rfl
  | succ k ih =>
    rw [State.squeezeBytes_succ, State.squeezeByte_of_lt s (by omega), ih (by dsimp only; omega)]
    dsimp only
    omega

/-! #### What the progress of one clock edge leaves -/

section Progress

variable {s : State} (hq : s.oq = [])
include hq

/-- XORing bytes ends at once below the end of the rate block, and a full block is permuted, with one more cycle
where bytes are left over (R104, R163). -/
theorem State.absorbUntilFull_cyclesLeft {vs : List Byte} (hlen : vs.length ≤ 168) :
    (s.absorbUntilFull vs).CyclesLeft
      (if s.absorbed.val + vs.length < 168 then 0
       else if s.absorbed.val + vs.length = 168 then permuteCycles s.build.unroll
       else permuteCycles s.build.unroll + 1) := by
  induction vs generalizing s with
  | nil => exact .idle rfl (if_pos s.absorbed.isLt)
  | cons v vs ih =>
    rw [List.length_cons] at hlen ⊢
    rw [State.absorbUntilFull]
    split
    next h =>
      rw [← Nat.add_assoc, Nat.add_right_comm]
      exact ih hq (by omega)
    next h =>
      have hlt := s.absorbed.isLt
      have hfull : s.absorbed.val + (vs.length + 1) = 168 ↔ vs = [] := by
        rw [← List.length_eq_zero_iff]; omega
      refine .absPerm (by simp [hq]) rfl (by simpa using hlen) ?_
      rw [if_neg (by omega), clocksLeft_zero]
      simp only [hfull]
      split <;> rfl

/-- The next word put into OQ, or a permutation of W, or the end of the command. -/
theorem State.nextOutput_cyclesLeft (hcopy : s.latch.copy = false)
    (hoff : s.latch.left = 0 ∨ 8 ∣ s.squeezeOff.val) :
    s.nextOutput.CyclesLeft (outputCycles s.build.unroll s.squeezeOff.val s.latch.left) := by
  have hle : s.squeezeOff.val ≤ 168 := Nat.lt_succ_iff.mp s.squeezeOff.isLt
  unfold State.nextOutput
  split
  next h0 => exact .idle rfl (by rw [h0, outputCycles_zero _ hle])
  next h0 =>
    have h8 : 8 ∣ s.squeezeOff.val := hoff.resolve_left h0
    split
    next hfull =>
      refine .sqzPerm (by simp [hq]) rfl hcopy ?_
      rw [hfull, outputCycles_block _ h0, clocksLeft_zero]
    next hpart =>
      have hword := outputCycles_word s.build.unroll h8 (by omega) h0
      have hoff' := State.squeezeBytes_squeezeOff (k := min 8 s.latch.left)
        (s := { s with micro := .sqzOut }) (by dsimp only; omega)
      obtain ⟨A, sc, o, h⟩ :=
        State.squeezeBytes_update (min 8 s.latch.left) { s with micro := .sqzOut }
      rw [h] at hoff'
      refine .word ?_ ?_ ?_ ?_ ?_ <;> simp only [State.emitWord, h]
      · simp [hq]
      · exact hcopy
      · rw [hoff']; dsimp only; omega
      · rw [hoff', hword, Nat.add_comm]

theorem State.progress_cyclesLeft_of_absorb (hm : s.micro = .absorb)
    (hfit : s.absorbed.val + s.latch.pend.length < 168) : s.progress.CyclesLeft 0 := by
  have hp : s.progress = s.absorbUntilFull s.latch.pend := by simp [State.progress, hm]
  have := State.absorbUntilFull_cyclesLeft hq (vs := s.latch.pend) (by omega)
  rwa [if_pos hfit, ← hp] at this

theorem State.progress_cyclesLeft_of_absPerm (hm : s.micro = .absPerm)
    (hfit : s.absorbed.val + s.latch.pend.length < 168) :
    s.progress.CyclesLeft
      (clocksLeft s.build.unroll s.rnd + (if s.latch.pend = [] then 0 else 1) - 1) := by
  cases hlast : s.lastClock with
  | false =>
    have hp : s.progress = s.clockS := by simp [State.progress, hm, hlast]
    rw [hp, clocksLeft_nextRnd hlast, Nat.succ_add_sub_one]
    exact .absPerm (by simp [hq]) hm hfit rfl
  | true =>
    rw [clocksLeft_of_lastClock hlast, Nat.add_sub_cancel_left]
    by_cases hpend : s.latch.pend = []
    · rw [if_pos hpend]
      exact .idle (by simp [State.progress, hm, hlast, hpend]) rfl
    · rw [if_neg hpend]
      have hp : s.progress = { s.clockS with micro := .absorb } := by
        simp [State.progress, hm, hlast, hpend]
      rw [hp]
      exact .absorb (by simp [hq]) rfl hfit rfl

theorem State.progress_cyclesLeft_of_pad (hm : s.micro = .finPerm) (hpad : s.latch.pad = true)
    (hrnd : s.rnd = 0) :
    s.progress.CyclesLeft
      (permuteCycles s.build.unroll + squeezeCycles s.build.unroll s.latch.left) := by
  have hp : s.progress = { s.padS with latch := { s.latch with pad := false } } := by
    simp [State.progress, hm, hpad]
  rw [hp]
  exact .finPerm (by simp [hq]) hm rfl (by simp [hrnd, clocksLeft_zero])

theorem State.progress_cyclesLeft_of_finPerm (hm : s.micro = .finPerm) (hpad : s.latch.pad = false) :
    s.progress.CyclesLeft
      (clocksLeft s.build.unroll s.rnd + squeezeCycles s.build.unroll s.latch.left - 1) := by
  cases hlast : s.lastClock with
  | false =>
    have hp : s.progress = s.clockS := by simp [State.progress, hm, hpad, hlast]
    rw [hp, clocksLeft_nextRnd hlast, Nat.succ_add_sub_one]
    exact .finPerm (by simp [hq]) hm hpad rfl
  | true =>
    rw [clocksLeft_of_lastClock hlast, Nat.add_sub_cancel_left, squeezeCycles]
    by_cases h0 : s.latch.left = 0
    · rw [if_pos h0]
      exact .idle (by simp [State.progress, hm, hpad, hlast, h0]) rfl
    · rw [if_neg h0]
      have hp : s.progress = { s.clockS with
          finalized := true
          squeezeOff := 0
          micro := .sqzOut
          latch := { s.latch with copy := true } } := by
        simp [State.progress, hm, hpad, hlast, h0]
      rw [hp]
      exact .copy (by simp [hq]) rfl rfl rfl

theorem State.progress_cyclesLeft_of_copy (hm : s.micro = .sqzOut) (hcopy : s.latch.copy = true) :
    s.progress.CyclesLeft (outputCycles s.build.unroll 0 s.latch.left) := by
  have hp : s.progress = { s.loadW with latch := { s.latch with copy := false } }.nextOutput := by
    simp [State.progress, hm, hcopy]
  rw [hp]
  exact State.nextOutput_cyclesLeft hq rfl (.inr (Nat.dvd_zero 8))

theorem State.progress_cyclesLeft_of_word (hm : s.micro = .sqzOut) (hcopy : s.latch.copy = false)
    (hoff : s.latch.left = 0 ∨ 8 ∣ s.squeezeOff.val) :
    s.progress.CyclesLeft (outputCycles s.build.unroll s.squeezeOff.val s.latch.left) := by
  have hp : s.progress = s.nextOutput := by simp [State.progress, hm, hcopy, hq]
  rw [hp]
  exact State.nextOutput_cyclesLeft hq hcopy hoff

theorem State.progress_cyclesLeft_of_sqzPerm (hm : s.micro = .sqzPerm) (hcopy : s.latch.copy = false) :
    s.progress.CyclesLeft
      (clocksLeft s.build.unroll s.rnd + outputCycles s.build.unroll 0 s.latch.left - 1) := by
  cases hlast : s.lastClock with
  | false =>
    have hp : s.progress = s.clockW := by simp [State.progress, hm, hlast]
    rw [hp, clocksLeft_nextRnd hlast, Nat.succ_add_sub_one]
    exact .sqzPerm (by simp [hq]) hm hcopy rfl
  | true =>
    have hp : s.progress = { s.clockW with squeezeOff := 0 }.nextOutput := by
      simp [State.progress, hm, hlast]
    rw [hp, clocksLeft_of_lastClock hlast, Nat.add_sub_cancel_left]
    exact State.nextOutput_cyclesLeft hq hcopy (.inr (Nat.dvd_zero 8))

theorem State.progress_cyclesLeft_of_eng (hm : s.micro = .eng) :
    s.progress.CyclesLeft (clocksLeft s.build.unroll s.rnd - 1) := by
  cases hlast : s.lastClock with
  | false =>
    have hp : s.progress = s.clockS := by simp [State.progress, hm, hlast]
    rw [hp, clocksLeft_nextRnd hlast]
    exact .eng (by simp [hq]) hm rfl
  | true =>
    rw [clocksLeft_of_lastClock hlast]
    exact .idle (by simp [State.progress, hm, hlast]) rfl

/-- Once the word that waited is taken, the progress of one edge uses up one cycle. -/
theorem State.CyclesLeft.progress {n : Nat} (h : s.CyclesLeft (n + 1)) : s.progress.CyclesLeft n := by
  cases h with
  | idle hm hn => cases hn
  | absorb _ hm hfit hn =>
    rw [Nat.succ.inj hn]
    exact State.progress_cyclesLeft_of_absorb hq hm hfit
  | absPerm _ hm hfit hn =>
    rw [← Nat.add_sub_cancel (n := n) (m := 1), hn]
    exact State.progress_cyclesLeft_of_absPerm hq hm hfit
  | pad _ hm hpad hrnd hn =>
    rw [Nat.add_left_cancel ((Nat.add_comm 1 n).trans hn)]
    exact State.progress_cyclesLeft_of_pad hq hm hpad hrnd
  | finPerm _ hm hpad hn =>
    rw [← Nat.add_sub_cancel (n := n) (m := 1), hn]
    exact State.progress_cyclesLeft_of_finPerm hq hm hpad
  | copy _ hm hcopy hn =>
    rw [Nat.add_left_cancel ((Nat.add_comm 1 n).trans hn)]
    exact State.progress_cyclesLeft_of_copy hq hm hcopy
  | word _ hm hcopy hoff hn =>
    rw [Nat.add_left_cancel ((Nat.add_comm 1 n).trans hn)]
    exact State.progress_cyclesLeft_of_word hq hm hcopy hoff
  | sqzPerm _ hm hcopy hn =>
    rw [← Nat.add_sub_cancel (n := n) (m := 1), hn]
    exact State.progress_cyclesLeft_of_sqzPerm hq hm hcopy
  | eng _ hm hn =>
    rw [← Nat.add_sub_cancel (n := n) (m := 1), hn]
    exact State.progress_cyclesLeft_of_eng hq hm

end Progress

/-! #### Edges on which the host takes -/

@[simp] theorem State.transferred_takeOnly_oq (s : State) :
    (s.transferred Inputs.takeOnly).oq = s.oq.tail := by
  rw [s.transferred_eq _ rfl]; rfl

theorem State.CyclesLeft.oq_tail {s : State} {n : Nat} (h : s.CyclesLeft (n + 1)) : s.oq.tail = [] := by
  cases h with
  | idle hm hn => cases hn
  | absorb hq | absPerm hq | pad hq | finPerm hq | copy hq | word hq | sqzPerm hq | eng hq => exact hq

/-- Taking a word uses up no cycle by itself. -/
theorem State.CyclesLeft.transferred {s : State} {n : Nat} (h : s.CyclesLeft n) :
    (s.transferred Inputs.takeOnly).CyclesLeft n := by
  cases h with
  | idle hm hn => exact .idle (by simpa) hn
  | absorb hq hm hfit hn => exact .absorb (by simp [hq]) (by simpa) (by simpa) hn
  | absPerm hq hm hfit hn => exact .absPerm (by simp [hq]) (by simpa) (by simpa) (by simpa)
  | pad hq hm hpad hrnd hn => exact .pad (by simp [hq]) (by simpa) (by simpa) (by simpa) (by simpa)
  | finPerm hq hm hpad hn => exact .finPerm (by simp [hq]) (by simpa) (by simpa) (by simpa)
  | copy hq hm hcopy hn => exact .copy (by simp [hq]) (by simpa) (by simpa) (by simpa)
  | word hq hm hcopy hoff hn =>
    exact .word (by simp [hq]) (by simpa) (by simpa) (by simpa) (by simpa)
  | sqzPerm hq hm hcopy hn => exact .sqzPerm (by simp [hq]) (by simpa) (by simpa) (by simpa)
  | eng hq hm hn => exact .eng (by simp [hq]) (by simpa) (by simpa)

/-- Each edge on which the host takes what there is uses up one cycle. -/
theorem State.CyclesLeft.edge {s : State} {n : Nat} (h : s.CyclesLeft (n + 1)) :
    ∃ t, s.edge beginCommand Inputs.takeOnly = .next t ∧ t.CyclesLeft n := by
  refine ⟨(s.transferred Inputs.takeOnly).progress, ?_, ?_⟩
  · rw [State.edge_of_rstN _ _ _ rfl, if_pos (h.busy_iff.mpr n.succ_pos)]
  · exact h.transferred.progress (by simp [h.oq_tail])

theorem State.CyclesLeft.edges {k n : Nat} {s : State} (h : s.CyclesLeft (k + n)) :
    ∃ t, s.edges beginCommand (List.replicate k Inputs.takeOnly) = .next t ∧ t.CyclesLeft n := by
  induction k generalizing s with
  | zero => exact ⟨s, rfl, by rwa [Nat.zero_add] at h⟩
  | succ k ih =>
    rw [Nat.succ_add] at h
    obtain ⟨t, ht, hleft⟩ := h.edge
    obtain ⟨u, hu, hdone⟩ := ih hleft
    exact ⟨u, by rw [List.replicate_succ, State.edges, ht]; exact hu, hdone⟩

/-! #### How many cycles a command takes -/

/-- No command but S.DIGEST changes the micro-state. -/
theorem exec_micro {i : Instr} {s t : State} (hi : ∀ len, i ≠ .sDigest len) (h : exec i s = .next t) :
    t.micro = s.micro := by
  cases hp : i.port with
  | engine =>
    obtain ⟨A, sc, r, f, e⟩ := exec_engine_update i s hp
    rw [e] at h; cases h; rfl
  | sponge =>
    cases i with
    | sDigest len => exact absurd rfl (hi len)
    | sReset | sErrclr => cases h; rfl
    | sAbsorb nb data =>
      simp only [exec, execSAbsorb] at h
      split at h
      · split at h <;> cases h
        · rfl
        · rw [State.absorbBytes_frame]
      · cases h; rfl
    | eReset | eXorb | eXor | eExtract | ePermute => cases hp

/-- From an idle block, a command that is executed at once leaves no cycles. -/
theorem State.CyclesLeft.of_exec {i : Instr} {s u : State} (hm : s.micro = .idle)
    (hi : ∀ len, i ≠ .sDigest len) (h : exec i s = .next u) : u.CyclesLeft 0 :=
  .idle ((exec_micro hi h).trans hm) rfl

/-- The table's line of S.DIGEST: the finalization where it is still to do, and the squeeze. -/
theorem busyCyclesDigest_eq (u : Unroll) (s : State) (n : Nat) :
    busyCyclesDigest u s n =
      (if s.finalized then 0 else 1 + permuteCycles u) + squeezeCycles u n := by
  rw [busyCyclesDigest, squeezeCycles]
  by_cases h0 : n = 0
  · simp [h0]
  · have hblocks : ceilDiv n Config.rate - 1 = (0 + n - 1) / 168 := by
      unfold ceilDiv Config.rate; omega
    simp only [if_neg h0, hblocks, outputCycles]
    split <;> omega

theorem beginSDigest_cyclesLeft {len : BitVec 32} {s u : State} (hm : s.micro = .idle)
    (hq : s.oq.tail = []) (h : beginSDigest len s = .next u) :
    u.CyclesLeft (busyCyclesDigest s.build.unroll s len.toNat) := by
  rw [busyCyclesDigest_eq]
  unfold beginSDigest at h
  split at h
  next hf =>
    rw [if_pos hf, Nat.zero_add, squeezeCycles]
    split at h
    next h0 =>
      have hmicro : (s.squeeze len.toNat).micro = s.micro := by simp [State.squeeze_eq, h0]
      rw [execSDigest, if_pos hf] at h
      cases h
      exact .idle (hmicro.trans hm) (if_pos h0)
    next h0 =>
      cases h
      exact .copy hq rfl rfl (if_neg h0)
  next hf =>
    rw [if_neg hf, Nat.add_assoc]
    cases h
    exact .pad hq rfl rfl rfl rfl

theorem beginSAbsorb_cyclesLeft {nb : BitVec 4} {data : BitVec 64} {s u : State}
    (hm : s.micro = .idle) (hq : s.oq = []) (h : beginSAbsorb nb data s = .next u) :
    u.CyclesLeft (busyCyclesAbsorb s.build.unroll s nb) := by
  rw [busyCyclesAbsorb]
  unfold beginSAbsorb at h
  split at h
  next hc =>
    rw [if_pos hc]
    cases h
    have hlen : (dataBytes nb.toNat data).length = nb.toNat := dataBytes_length _ _
    have hleft := State.absorbUntilFull_cyclesLeft hq (vs := dataBytes nb.toNat data) (by omega)
    rwa [hlen] at hleft
  next hc =>
    rw [if_neg hc]
    exact .of_exec (i := .sAbsorb nb data) hm nofun h

/-- The accepting edge of a command leaves the cycles of the timing table. -/
theorem beginCommand_cyclesLeft {i : Instr} {s u : State} (hidle : s.idleBlock)
    (h : beginCommand i s = .next u) : u.CyclesLeft (busyCycles s i) := by
  have hq : s.oq.tail = [] := by rw [hidle.oq]; rfl
  cases i with
  | sAbsorb nb data => exact beginSAbsorb_cyclesLeft hidle.1 hidle.oq h
  | sDigest len => exact beginSDigest_cyclesLeft hidle.1 hq h
  | ePermute => cases h; exact .eng hq rfl (clocksLeft_zero _).symm
  | sReset => exact .of_exec (i := .sReset) hidle.1 nofun h
  | sErrclr => exact .of_exec (i := .sErrclr) hidle.1 nofun h
  | eReset => exact .of_exec (i := .eReset) hidle.1 nofun h
  | eXorb off value => exact .of_exec (i := .eXorb off value) hidle.1 nofun h
  | eXor off nb data => exact .of_exec (i := .eXor off nb data) hidle.1 nofun h
  | eExtract off nb => exact .of_exec (i := .eExtract off nb) hidle.1 nofun h

/-- Settles O59: the accepting edge leaves the table's cycles, and each edge uses up one. -/
theorem cycleMachineMeetsTimingTable : Obligations.CycleMachineMeetsTimingTable := by
  intro i s u₀ k hidle hu₀ hk
  obtain ⟨n, hn⟩ := Nat.exists_eq_add_of_le hk
  obtain ⟨u, hu, hleft⟩ := (hn ▸ beginCommand_cyclesLeft hidle hu₀).edges
  exact ⟨u, hu, by rw [hleft.busy_iff]; omega⟩

end Sys2Proof.Machine

/-! ### O43: words that are never taken hang the block (R159) -/

namespace Sys2Proof.Machine

/-- Without o_ready, an edge of a block that waits for its words to be taken changes the response register and
counts itself. -/
theorem State.edge_of_untaken {s : State} {inp : Inputs} (hm : s.micro = .sqzOut)
    (hl : s.latch = Latch.empty) (hne : s.oq ≠ []) (hr : inp.rstN = true) (ho : inp.oReady = false) :
    ∃ r l, s.edge exec inp =
      .next { s with rsp := r, responses := l, freeCtr := s.freeCtr + 1 } := by
  obtain ⟨w, ws, hq⟩ := List.exists_cons_of_ne_nil hne
  exact ⟨_, _, (outputWordsLeaveInOrder s inp w ws hm hl hq hr).2 ho⟩

/-- Settles O43, by induction on the edges. -/
theorem untakenOutputHangsBlock : Obligations.UntakenOutputHangsBlock := by
  intro ins
  induction ins with
  | nil =>
    intro s hm _ _ _
    exact ⟨s, s.rsp, s.responses, rfl, by simp [State.busy, hm], rfl⟩
  | cons inp rest ih =>
    intro s hm hl hne hins
    obtain ⟨⟨hr, ho⟩, hrest⟩ := List.forall_mem_cons.mp hins
    obtain ⟨r₁, l₁, hedge⟩ := State.edge_of_untaken hm hl hne hr ho
    obtain ⟨t, r, l, ht, hb, e⟩ :=
      ih { s with rsp := r₁, responses := l₁, freeCtr := s.freeCtr + 1 } hm hl hne hrest
    refine ⟨t, r, l, by rw [State.edges, hedge]; exact ht, hb, ?_⟩
    rw [e, List.length_cons, Nat.add_comm rest.length, ← Nat.add_assoc]

end Sys2Proof.Machine

/-! ### O60: the records of an edge (R40, R43, R156, R164) -/

namespace Sys2Proof.Machine

/-- The word that an edge without rst_n accepts, with its port, if it accepts one (R91, R156). -/
def State.acceptedWord (s : State) (inp : Inputs) : List (Port × CommandWord) :=
  if s.busy then []
  else if inp.sValid then [(.sponge, inp.sCw)]
  else if inp.eValid ∧ s.build.engineTestPort ∧ s.rsp = none then [(.engine, inp.eCw)]
  else []

theorem State.SameRecords.eq {s t : State} (h : s.SameRecords t) :
    t.accepted = s.accepted ∧ t.taken = s.taken ∧ t.responses = s.responses ∧
      t.pastRuns = s.pastRuns := by
  obtain ⟨hrun, hpast⟩ := h
  exact ⟨congrArg RunRecord.accepted hrun, congrArg RunRecord.taken hrun,
    congrArg RunRecord.responses hrun, hpast⟩

section AnyMachine

variable {run : Instr → State → Outcome}
  (hrun : ∀ {i : Instr} {s t : State}, run i s = .next t → s.SameRecords t)
include hrun

theorem acceptS_records {cw : CommandWord} {s t : State} (h : acceptS run cw s = .next t) :
    s.SameRecords t := by
  unfold acceptS at h
  split at h
  · exact hrun h
  · cases h; exact ⟨rfl, rfl⟩

theorem acceptE_records {cw : CommandWord} {s t : State} (h : acceptE run cw s = .next t) :
    s.SameRecords t := by
  unfold acceptE at h
  split at h
  · exact hrun h
  · cases h; exact ⟨rfl, rfl⟩

/-- The records after an edge without rst_n are those of its transfers, and the word it accepts. -/
theorem State.edge_records {s t : State} {inp : Inputs} (hr : inp.rstN = true)
    (h : s.edge run inp = .next t) :
    State.SameRecords { s.transferred inp with accepted := s.accepted ++ s.acceptedWord inp } t := by
  have hacc : (s.transferred inp).accepted = s.accepted := by rw [s.transferred_eq inp hr]
  rcases s.edge_cases run inp with ⟨hrst, e⟩ | ⟨-, hb, e⟩ | ⟨-, hb, hs, e⟩ |
    ⟨-, hb, hs, he, hp, hq, e⟩ | ⟨-, hb, hs, hwait, e⟩ <;> rw [e] at h
  · cases hr.symm.trans hrst
  · have hword : s.acceptedWord inp = [] := by simp [State.acceptedWord, hb]
    cases h
    rw [hword, List.append_nil, ← hacc]
    exact State.progress_records _
  · have hword : s.acceptedWord inp = [(.sponge, inp.sCw)] := by simp [State.acceptedWord, hb, hs]
    rw [hword, ← hacc]
    exact acceptS_records hrun h
  · have hword : s.acceptedWord inp = [(.engine, inp.eCw)] := by
      simp [State.acceptedWord, hb, hs, he, hp, hq]
    rw [hword, ← hacc]
    exact acceptE_records hrun h
  · have hno : ¬ (inp.eValid ∧ s.build.engineTestPort ∧ s.rsp = none) :=
      fun ⟨he, hp, hq⟩ => (hwait he).elim (fun hnot => by simp [hnot] at hp) (absurd hq)
    have hword : s.acceptedWord inp = [] := by
      rw [State.acceptedWord, hb, hs]
      exact if_neg hno
    cases h
    rw [hword, List.append_nil, ← hacc]
    exact ⟨rfl, rfl⟩

end AnyMachine

/-- Settles O60: neither machine's commands touch the records, so an edge adds its transfers alone. -/
theorem everyTransferIsRecordedOnce : Obligations.EveryTransferIsRecordedOnce := by
  intro s t inp hr h
  have hrec : State.SameRecords { s.transferred inp with accepted := s.accepted ++ s.acceptedWord inp } t :=
    h.elim (State.edge_records exec_records hr) (State.edge_records beginCommand_records hr)
  rw [s.transferred_eq inp hr] at hrec
  obtain ⟨hacc, htaken, hresp, hpast⟩ := hrec.eq
  refine ⟨hacc, htaken, ?_, hpast⟩
  simpa using hresp

end Sys2Proof.Machine

/-! ### O46: an edge with rst_n = 0 (R150, R151) -/

namespace Sys2Proof.Machine

theorem State.edge_of_rst (run : Instr → State → Outcome) (s : State) {inp : Inputs}
    (hr : inp.rstN = false) :
    s.edge run inp = .next { s with freeCtr := s.freeCtr + 1 }.rstEdge := by
  simp [State.edge, hr]

/-- While rst_n is 0, no ready and no valid output is 1 (R150). -/
theorem State.outputs_of_rst (s : State) {inp : Inputs} (hr : inp.rstN = false) :
    (s.outputs inp).sReady = false ∧ (s.outputs inp).oValid = false ∧
      ∀ e, (s.outputs inp).engine = some e → e.eReady = false ∧ e.eRspValid = false := by
  refine ⟨by simp [State.outputs, State.sReady, hr], by simp [State.outputs, State.oValid, hr],
    fun e he => ?_⟩
  simp only [State.outputs] at he
  split at he <;> cases he
  simp [State.eReady, State.eRspValid, hr]

/-- Settles O46: in either machine the edge gives `State.rstEdge`, whose fields are the reset values. -/
theorem rstEdgeResetsBlock : Obligations.RstEdgeResetsBlock := by
  intro s inp hr
  refine ⟨⟨_, s.edge_of_rst exec hr, s.edge_of_rst beginCommand hr, ?_⟩, s.outputs_of_rst hr⟩
  simp [State.rstEdge, State.resetOf, State.busy, State.runRecord]

end Sys2Proof.Machine
